-- ==== Sys2Proof/Word.lean ====
section
/-! DEFINITION. The word types of the engine: the widths that 00_scope R11 and 30_encoding R80, R82 fix. -/

namespace Sys2Proof

/-- A command code, a data byte, a byte of source memory (R11). -/
abbrev Byte := BitVec 8

/-- A Colour or a window coordinate, 16 bits (R11). -/
abbrev Half := BitVec 16

/-- The descriptor's `PTR` and `LEN` fields, 32 bits (R82). -/
abbrev Word := BitVec 32

/-- One operation request, 160 bits, passed by value (R80, R81). -/
abbrev Descriptor := BitVec 160

end Sys2Proof
end

