-- ==== Sys2Proof/Config.lean ====
section
/-! DEFINITION. The implementation parameters of 00_scope R10, their constraints and defaults, and the free values
the spec leaves to the environment. -/

namespace Sys2Proof

/-- The two values of the mode-select latch (10_state R24). -/
inductive Mode where
  | command
  | data
  deriving DecidableEq, Repr, Inhabited

/-- What the bus answers to one synchronous transmit (41 R112, R114). With `timeout k` the first `k` bytes of that
transmit reached the wire: "any prefix of them, possibly none". -/
inductive SyncDraw where
  | ok
  | timeout (sent : Nat)
  deriving DecidableEq, Repr, Inhabited

/-- What the excluded collaborator does on the pins in `RESET_SEQ` (R10: "opaque"). It has no content here. -/
inductive PinSequence where
  | external
  deriving DecidableEq, Repr

/-- One entry `(c, [d1, ..., dm])` of the table `INIT_SEQ` (46 R191). -/
structure InitEntry where
  command : Byte
  data    : List Byte
  deriving DecidableEq, Repr

/-- The parameters of R10. `NB` is derived (`Config.nb`). -/
structure Config where
  n              : Nat
  panelWidth     : Nat
  panelHeight    : Nat
  cmdCaset       : Byte
  cmdPaset       : Byte
  cmdRamwr       : Byte
  syncWaitBound  : Nat
  addrW          : Nat
  resetSeq       : Option PinSequence
  initSeq        : Option (List InitEntry)
  dcLevelCommand : BitVec 1
  deriving DecidableEq, Repr

/-- The default column of R10. PRESUMED, unsafe: the codes, the panel size and the polarity are "from general
knowledge, not in source" (log 2). -/
def Config.default : Config where
  n := 64
  panelWidth := 240
  panelHeight := 320
  cmdCaset := 0x2A
  cmdPaset := 0x2B
  cmdRamwr := 0x2C
  syncWaitBound := 100
  addrW := 32
  resetSeq := none
  initSeq := none
  dcLevelCommand := 0

/-- `NB = 2*N`, the staging capacity in bytes (R10). -/
def Config.nb (c : Config) : Nat := 2 * c.n

/-- The constraint column of R10. -/
def Config.wf (c : Config) : Bool :=
  (List.range 16).any (fun k => 2 ^ k == c.n)
    && decide (1 ≤ c.panelWidth) && decide (c.panelWidth ≤ 65536)
    && decide (1 ≤ c.panelHeight) && decide (c.panelHeight ≤ 65536)
    && decide (0 < c.syncWaitBound)
    && decide (1 ≤ c.addrW) && decide (c.addrW ≤ 32)

/-- The three command codes are pairwise distinct: the premise of the panel contract (92 D7). -/
def Config.codesDistinct (c : Config) : Bool :=
  c.cmdCaset != c.cmdPaset && c.cmdCaset != c.cmdRamwr && c.cmdPaset != c.cmdRamwr

/-- FREE VALUE, safe (log 6): what the bus answers to the synchronous transmit with this number, where the run's
own list of answers does not say. "Which status comes back is not decided by the engine" (R112). -/
opaque Config.freeSync : Nat → SyncDraw

/-- FREE VALUE, safe (log 7): the value of `DC` after `reset()`, "unspecified" (R190). -/
opaque Config.freeMode : Nat → Mode

/-- The window registers and the two coordinates of the write cursor of the panel (20_memory R60). -/
inductive PanelRegister where
  | xs
  | xe
  | ys
  | ye
  | cx
  | cy
  deriving DecidableEq, Repr

/-- FREE VALUE, safe (log 29): what a panel register holds after draw `k`, where the contract leaves it at "any value"
(93 U8, U9, U15, U21). -/
opaque Config.freeRegister (k : Nat) : PanelRegister → Half

/-- FREE VALUE, safe (log 29): what the pixel with this key holds after draw `k`, where frame memory is "any value". -/
opaque Config.freePixel (k key : Nat) : Half

/-- FREE VALUE, safe (log 29): the last command byte of a panel whose state is any value. -/
opaque Config.freeCommand (k : Nat) : Byte

/-- FREE VALUE, safe (log 29): the parameter bytes before the index of a panel whose state is any value. -/
opaque Config.freeParams (k : Nat) : List Byte

/-- FREE VALUE, safe (log 29): the byte latch of a panel whose state is any value. -/
opaque Config.freeLatch (k : Nat) : Option Byte

end Sys2Proof
end

