-- ==== Sys2Proof/Machine/State.lean ====
section
/-! DEFINITION. The state: every element of 10_state R20, and beside it what the spec gives the other agents and the
observer (R34): source memory, the wire trace, the panel, the requests, and the parameters. -/

namespace Sys2Proof.Machine

/-- One wire event: a byte tagged with the mode it moved in (20_memory R58). -/
structure Event where
  mode : Mode
  byte : Byte
  deriving DecidableEq, Repr

/-- Where a transfer takes its bytes from (10_state R25). The address of `mem` is exact (30_encoding R104). -/
inductive Source where
  | staging
  | mem (addr : Nat)
  deriving DecidableEq, Repr

/-- The record of the transfer in flight (R25). -/
structure InFlight where
  src  : Source
  len  : Nat
  sent : Nat
  deriving DecidableEq, Repr

/-- A staging slot: its two bytes of the one physical array, in wire order (R27, R28, 90 C7), and whether an operation
has written it since acceptance. R26 calls the content of a slot so marked defined, and any other slot unwritten. That
the bytes and the mark are two things is the model's reading (log 31). -/
structure Slot where
  hi      : Byte
  lo      : Byte
  written : Bool
  deriving DecidableEq, Repr

/-- The operand latches (R21). -/
structure Latches where
  x   : Half
  y   : Half
  w   : Half
  h   : Half
  ptr : Word
  c0  : Half
  c1  : Half
  arg : Byte
  len : Word
  deriving DecidableEq, Repr

/-- The mono cursor (R30). `p` and `col` are exact (R12, log 12). -/
structure MonoCursor where
  p    : Nat
  mask : Byte
  col  : Nat
  deriving DecidableEq, Repr

/-- The three operations that stream chunks (44 R154). -/
inductive Stream where
  | fill
  | colour
  | mono
  deriving DecidableEq, Repr

/-- One primitive action of ENGINE, one line of an operation's pseudocode (00_scope R8, R13; 92 D1, D33). -/
inductive Primitive where
  /-- `DC <- m`. -/
  | drive (m : Mode)
  /-- `SyncTx(bytes)` (41 R112). -/
  | transmit (bytes : List Byte)
  /-- `perform RESET_SEQ` (46 R190). -/
  | resetPanel
  /-- `DC <- unspecified` (R190). -/
  | driveFree
  /-- The end of the table of `init()`: the panel is assumed ready (R191). -/
  | tableSent
  /-- `for i in 0 .. N-1 do SLOT[i] <- colour` (44 R152), one action by 92 D33. -/
  | fillSlots
  /-- The counters and the mono cursor before the chunk loop (44 R152, 45 R165, R167). -/
  | setCounters (op : Stream)
  /-- `CNT <- min(REM, N)` (45 R167). -/
  | setCount
  /-- `UnpackOne(i)` (45 R168). -/
  | unpack (i : Nat)
  /-- `beginAsyncTransfer(Mem(PTR), LEN)` (43 R130): flag and record in one action, which 10_state R36 (i) needs. -/
  | beginDirect
  /-- `beginAsyncTransfer` of the current chunk. -/
  | beginChunk (op : Stream)
  deriving DecidableEq, Repr

/-- What follows the last of a line of primitives: retirement, the test of a chunk loop, or an `awaitCompletion`. -/
inductive Ending where
  | retire
  | loop (op : Stream)
  | awaitDirect
  | awaitChunk (op : Stream)
  deriving DecidableEq, Repr

/-- Where a busy engine stands between two steps (R22): before the primitives still to perform, or inside
`awaitCompletion`, either requested directly or performed for the current chunk. The loop counters are `rem`, `off`,
`cnt` and the cursor. -/
inductive Position where
  | line (todo : List Primitive) (ending : Ending)
  | awaitDirect
  | awaitChunk (op : Stream)
  deriving DecidableEq, Repr

/-- The sequencer phase `SEQ` (R22): `Idle`, or `Busy(op, position)`. -/
inductive Seq where
  | idle
  | busy (pos : Position)
  deriving DecidableEq, Repr

/-- An event of the sequence of asynchronous transfers the observer sees (00_scope R16 (c)). -/
inductive XferEvent where
  | begun (src : Source) (len : Nat)
  | completed
  deriving DecidableEq, Repr

/-- Which agent moves next (00_scope R15). ENGINE's turn is one primitive action (`primitive`; R8, 92 D1), or a run of
them up to its next hold or retirement, given as one (`engine`, log 9). -/
inductive Turn where
  | engine
  | primitive
  | xfer
  | hostWrite (addr : Word) (value : Byte)
  deriving DecidableEq, Repr

/-- The panel as the contract of 20_memory R60 to R66 describes it. -/
structure Panel where
  /-- `reset()` has been performed, the first step of the boot order (70 R222). -/
  wasReset : Bool
  /-- The panel obeys the window protocol: after `reset()` and then `init()` (46 R191, R192, 92 D25, log 19). -/
  ready : Bool
  /-- `XS` (R60). -/
  xs : Half
  /-- `XE`. -/
  xe : Half
  /-- `YS`. -/
  ys : Half
  /-- `YE`. -/
  ye : Half
  /-- The write cursor `(cx, cy)`, exact (R12). -/
  cursor : Nat × Nat
  /-- `GRAM`: the pixels written since draw number `draw`, keys rising; the key is `column + 65536 * row`. Any other
  pixel holds its free value of that draw. -/
  gram : List (Nat × Half)
  /-- The last command byte received. -/
  cmd : Byte
  /-- The frame of that command goes on within the contract, so that the next data byte has a meaning. -/
  inFrame : Bool
  /-- The parameter bytes of the frame so far; their number is the index of the next. -/
  params : List Byte
  /-- The one-byte latch for the first byte of a pixel. -/
  latch : Option Byte
  /-- The number of the last draw of the panel's free values (log 29). -/
  draw : Nat
  deriving DecidableEq, Repr

/-- A panel whose state is any value (93 U8, U9, U15, U21): all of R60's state, the receiver's included, holds the free
values of draw `k`, and no frame of the contract is being received. -/
def Panel.unspecified (wasReset ready : Bool) (k : Nat) : Panel where
  wasReset := wasReset
  ready := ready
  xs := Config.freeRegister k .xs
  xe := Config.freeRegister k .xe
  ys := Config.freeRegister k .ys
  ye := Config.freeRegister k .ye
  cursor := ((Config.freeRegister k .cx).toNat, (Config.freeRegister k .cy).toNat)
  gram := []
  cmd := Config.freeCommand k
  inFrame := false
  params := Config.freeParams k
  latch := Config.freeLatch k
  draw := k

/-- The state. Fields up to `cnt` are the engine's own (R20). -/
structure State where
  /-- `SEQ` (R22). -/
  seq : Seq
  /-- `X, Y, W, H, PTR, C0, C1, ARG, LEN` (R21). -/
  ops : Latches
  /-- `DONE`: no asynchronous transfer currently pending (R23). -/
  done : Bool
  /-- `DC` (R24). -/
  dc : Mode
  /-- `XFER` (R25). -/
  xfer : Option InFlight
  /-- `STG`, slot by slot (R26). -/
  stg : List Slot
  /-- `P, MASK, COL` (R30). -/
  cursor : MonoCursor
  /-- `REM` (R31). -/
  rem : Nat
  /-- `OFF` (R31). -/
  off : Nat
  /-- `CNT` (R31). -/
  cnt : Nat
  /-- The sticky mark `SyncTimeout` (R32, 41 R114). -/
  syncTimeout : Bool
  /-- Host source memory (20_memory R51): the bytes HOST has placed, addresses strictly rising. -/
  mem : List Host.Cell
  /-- The wire trace (R58). -/
  wire : List Event
  /-- Transfer requests and completions (00_scope R16 (c)). -/
  transfers : List XferEvent
  /-- Reads of host source memory (R16 (d)). -/
  reads : List Nat
  /-- How many operations have retired (R16 (e)). -/
  retired : Nat
  /-- PANEL (20_memory R60). -/
  panel : Panel
  /-- The parameters (00_scope R10); no step changes them. -/
  cfg : Config
  /-- The descriptors HOST has yet to present, in order (R22). -/
  requests : List Descriptor
  /-- Which agent moves next; after the last one, ENGINE alone moves, one primitive action a step (log 8). -/
  turns : List Turn
  /-- The bus's answers by draw number, as far as the run fixes them (41 R112, log 6). -/
  sync : List SyncDraw
  /-- The number of the next draw of a free value (logs 6, 7). -/
  draws : Nat
  deriving DecidableEq, Repr

/-- Why the machine stops with a fault: the treatments `fault` of 93_implementation_defined Part 1, and two stops of
the model's own. Each is safe: the model stops where the spec gives no behaviour. -/
inductive Fault where
  /-- `beginAsyncTransfer` while `DONE = 0` (43 R133). Raised by `whenDone`. Safe. -/
  | xferOverlap
  /-- A synchronous transmit or a write of `DC` while a transfer is in flight (41 R115). Raised by every operation
  that does either. Safe. -/
  | busConflict
  /-- HOST writes a byte that the operation in progress or the transfer in flight reads (43 R139, 20_memory R72).
  Raised by `hostWrite`. Safe. -/
  | inFlightMutation
  /-- A transfer reads a staging slot not written since acceptance (10_state R26). Raised by `xferStep`. Safe. -/
  | unwrittenStagingRead
  /-- An operation is requested while another is in progress (60 R210). Raised by every meaning when `SEQ` is not
  `Idle`; no step reaches it. Safe. -/
  | reentry
  /-- A read of a source byte HOST has not placed: the read "has no step" (20_memory R53, R57). Raised by
  `readSource`. DEDUCED, safe (log 5). -/
  | unplacedSourceRead
  /-- HOST writes an address at or above `2^ADDR_W`, which does not exist (R51). Raised by `hostWrite`. Safe. -/
  | addressOutsideSpace
  deriving DecidableEq, Repr

/-- Why a request has no meaning: the six names of 60 R204. Each is safe: the spec itself has the model refuse. -/
inductive Refusal where
  /-- No meaning yet. Raised by `exec` alone. Safe. -/
  | notModelled (mnemonic : String)
  /-- 30_encoding R84. Raised by the acceptance of a request. Safe. -/
  | illegalDescriptor
  /-- 44 R155 (i), (ii). Raised by the three rectangle operations. Safe. -/
  | badRectangle
  /-- 20_memory R53, 43 R134, 44 R155 (iii). Raised by the bitmap operations and `beginAsyncTransfer`. Safe. -/
  | addressWrap
  /-- 43 R134. Raised by `beginAsyncTransfer`. Safe. -/
  | emptyTransfer
  /-- 46 R190. Raised by `reset`. Safe. -/
  | noResetSequence
  /-- 46 R191. Raised by `init`. Safe. -/
  | noInitTable
  deriving DecidableEq, Repr

/-- The state after reset (10_state R35, 70 R220) of an engine with parameters `cfg`, with `dc` for the value of `DC`
that the spec leaves unspecified. The elements R35 calls "unwritten" hold zero, the bytes of the staging slots, which
are marked unwritten, too: DESIGN CHOICE, unsafe (log 4). The panel, not yet reset, holds its free values (U21, log 29). -/
def State.resetWith (cfg : Config) (dc : Mode) : State where
  seq := .idle
  ops := ⟨0, 0, 0, 0, 0, 0, 0, 0, 0⟩
  done := true
  dc := dc
  xfer := none
  stg := List.replicate cfg.n ⟨0, 0, false⟩
  cursor := ⟨0, 0, 0⟩
  rem := 0
  off := 0
  cnt := 0
  syncTimeout := false
  mem := []
  wire := []
  transfers := []
  reads := []
  retired := 0
  panel := Panel.unspecified false false 0
  cfg := cfg
  requests := []
  turns := []
  sync := []
  draws := 0

/-- The machine right after reset, with the default parameters (log 2). `DC` holds `Command`: DESIGN CHOICE, unsafe
(log 3). -/
def State.reset : State := State.resetWith Config.default .command

end Sys2Proof.Machine
end

