-- ==== Sys2Proof/Machine/Flags.lean ====
section
/-! DEFINITION. The engine's two one-bit state elements: `DONE` (10_state R23) and `DC` (R24). -/

namespace Sys2Proof.Machine

/-- `DC <- m` (R24). No byte moves, so nothing reaches the wire (20_memory R58). -/
def writeDC (m : Mode) (s : State) : State := { s with dc := m }

/-- `DONE <- 0`, one of the two writes of the flag (R23); made by `beginAsyncTransfer` (43 R130). -/
def clearDone (s : State) : State := { s with done := false }

/-- `DONE <- 1`, the other write; made by the completion notification (43 R137). -/
def setDone (s : State) : State := { s with done := true }

/-- The electrical level of the mode-select signal (00_scope R10, `DC_LEVEL_COMMAND`). -/
def modeLevel (cfg : Config) (m : Mode) : BitVec 1 :=
  match m with
  | .command => cfg.dcLevelCommand
  | .data => ~~~cfg.dcLevelCommand

end Sys2Proof.Machine
end

