-- ==== Sys2Proof/Syntax.lean ====
section
/-! DEFINITION. The eleven operations of the opcode map (30_encoding R83), each with the operands it uses. -/

namespace Sys2Proof

/-- One constructor per row of spec/opcode_table.json. Operand names are the source's (R97). -/
inductive Instr where
  | reset
  | init
  | plotPixel (x y colour : Half)
  | drawColourBitmap (x y w h : Half) (data : Word)
  | drawMonoBitmap (x y w h : Half) (data : Word) (fg bg : Half)
  | fillRectangle (x y w h colour : Half)
  | sendCommand (code : Byte)
  | sendDataByte (value : Byte)
  | setWindow (xStart yStart xEnd yEnd : Half)
  | beginAsyncTransfer (buffer byteLength : Word)
  | awaitCompletion
  deriving DecidableEq, Repr

end Sys2Proof
end

