-- ==== Sys2Proof/WellFormed.lean ====
section
/-! DEFINITION. What an instruction must meet to be a legal request: `PTR[31:ADDR_W]` is zero (30_encoding R82, R84).
Every other operand fits its field by its type. -/

namespace Sys2Proof

/-- `PTR` lies in the address space of `2^ADDR_W` bytes. -/
def pointerFits (addrW : Nat) (p : Word) : Bool := decide (p.toNat < 2 ^ addrW)

/-- A well-formed instruction of an engine whose source-memory addresses have `addrW` bits. -/
def Instr.wf (addrW : Nat) : Instr → Bool
  | .reset => true
  | .init => true
  | .plotPixel _ _ _ => true
  | .drawColourBitmap _ _ _ _ p => pointerFits addrW p
  | .drawMonoBitmap _ _ _ _ p _ _ => pointerFits addrW p
  | .fillRectangle _ _ _ _ _ => true
  | .sendCommand _ => true
  | .sendDataByte _ => true
  | .setWindow _ _ _ _ => true
  | .beginAsyncTransfer p _ => pointerFits addrW p
  | .awaitCompletion => true

end Sys2Proof
end

