-- ==== Sys2Proof/Decode.lean ====
section
/-! DEFINITION. The operation descriptor (30_encoding R81 to R86): its fields, the decoder, the encoder. -/

namespace Sys2Proof

/-- `OPC = D[7:0]` (R82). -/
def opcField (d : Descriptor) : Byte := d.extractLsb' 0 8
/-- `ARG = D[15:8]`. -/
def argField (d : Descriptor) : Byte := d.extractLsb' 8 8
/-- `RSV = D[31:16]`. -/
def rsvField (d : Descriptor) : Half := d.extractLsb' 16 16
/-- `X = D[47:32]`. -/
def xField (d : Descriptor) : Half := d.extractLsb' 32 16
/-- `Y = D[63:48]`. -/
def yField (d : Descriptor) : Half := d.extractLsb' 48 16
/-- `W = D[79:64]`. -/
def wField (d : Descriptor) : Half := d.extractLsb' 64 16
/-- `H = D[95:80]`. -/
def hField (d : Descriptor) : Half := d.extractLsb' 80 16
/-- `PTR = D[127:96]`. -/
def ptrField (d : Descriptor) : Word := d.extractLsb' 96 32
/-- `C0 = D[143:128]`. -/
def c0Field (d : Descriptor) : Half := d.extractLsb' 128 16
/-- `C1 = D[159:144]`. -/
def c1Field (d : Descriptor) : Half := d.extractLsb' 144 16
/-- `LEN = D[159:128]`, which overlays `C1:C0`. -/
def lenField (d : Descriptor) : Word := d.extractLsb' 128 32

/-- Why a descriptor is illegal (R84). -/
inductive DecodeError where
  /-- `RSV != 0`. -/
  | reservedNotZero
  /-- `PTR[31:ADDR_W] != 0`. -/
  | pointerTooWide
  /-- `OPC` is not one of the eleven codes. -/
  | unassignedOpcode
  deriving DecidableEq, Repr

/-- The operation a code selects, with the operands the opcode map lists for it (R83). The fields it does not list
are ignored (R85). -/
def selectOperation (opc : Byte) (d : Descriptor) : Except DecodeError Instr :=
  match opc.toNat with
  | 0x00 => .ok .reset
  | 0x01 => .ok .init
  | 0x02 => .ok (.plotPixel (xField d) (yField d) (c0Field d))
  | 0x03 => .ok (.drawColourBitmap (xField d) (yField d) (wField d) (hField d) (ptrField d))
  | 0x04 => .ok (.drawMonoBitmap (xField d) (yField d) (wField d) (hField d) (ptrField d) (c0Field d) (c1Field d))
  | 0x05 => .ok (.fillRectangle (xField d) (yField d) (wField d) (hField d) (c0Field d))
  | 0x10 => .ok (.sendCommand (argField d))
  | 0x11 => .ok (.sendDataByte (argField d))
  | 0x12 => .ok (.setWindow (xField d) (yField d) (wField d) (hField d))
  | 0x13 => .ok (.beginAsyncTransfer (ptrField d) (lenField d))
  | 0x14 => .ok .awaitCompletion
  | _ => .error .unassignedOpcode

/-- The decoder, total on all 160-bit values (R83, R84). DESIGN CHOICE, safe (log 13): the check of `PTR` is made on
every descriptor, as R84 words it, also where the operation does not use `PTR`. -/
def decode (addrW : Nat) (d : Descriptor) : Except DecodeError Instr :=
  if rsvField d ≠ 0 then .error .reservedNotZero
  else if pointerFits addrW (ptrField d) = false then .error .pointerTooWide
  else selectOperation (opcField d) d

/-- A descriptor with its fields laid out as R82 places them, `RSV` zero; `top` is `W4`, that is `C1:C0` or `LEN`. -/
def pack (opc arg : Byte) (x y w h : Half) (ptr top : Word) : Descriptor :=
  top ++ ptr ++ h ++ w ++ y ++ x ++ (0 : Half) ++ arg ++ opc

/-- The encoder: the descriptor of the assembler's table (R97), all other fields zero. -/
def encode : Instr → Descriptor
  | .reset => pack 0x00 0 0 0 0 0 0 0
  | .init => pack 0x01 0 0 0 0 0 0 0
  | .plotPixel x y c => pack 0x02 0 x y 0 0 0 ((0 : Half) ++ c)
  | .drawColourBitmap x y w h p => pack 0x03 0 x y w h p 0
  | .drawMonoBitmap x y w h p fg bg => pack 0x04 0 x y w h p (bg ++ fg)
  | .fillRectangle x y w h c => pack 0x05 0 x y w h 0 ((0 : Half) ++ c)
  | .sendCommand code => pack 0x10 code 0 0 0 0 0 0
  | .sendDataByte value => pack 0x11 value 0 0 0 0 0 0
  | .setWindow xs ys xe ye => pack 0x12 0 xs ys xe ye 0 0
  | .beginAsyncTransfer p len => pack 0x13 0 0 0 0 0 p len
  | .awaitCompletion => pack 0x14 0 0 0 0 0 0 0

/-- The 160-bit descriptor whose lowest `nbits` bits are those of `w`; the bits above are zero. -/
def descriptorOfBits (nbits w : Nat) : Descriptor := BitVec.ofNat 160 (w % 2 ^ nbits)

/-- What the decoder reads from a table row's bits, with the default `ADDR_W` (log 23). -/
def decodeTableWord (nbits w : Nat) : Option Instr :=
  if nbits ≤ 160 then
    match decode Config.default.addrW (descriptorOfBits nbits w) with
    | .ok i => some i
    | .error _ => none
  else none

end Sys2Proof
end

