-- ==== Sys2Proof/Machine/Operands.lean ====
section
/-! DEFINITION. Operands: latching (30_encoding R86), the two bytes of a 16-bit value (00_scope R13), and the
arithmetic of rectangles, totals and ranges (R100 to R104, 44 R155). -/

namespace Sys2Proof.Machine

/-- `hi8(v) = v[15:8]` (R13). -/
def hi8 (v : Half) : Byte := v.extractLsb' 8 8

/-- `lo8(v) = v[7:0]` (R13). -/
def lo8 (v : Half) : Byte := v.extractLsb' 0 8

/-- `{a, b}`, the 16-bit value with `a` more significant (R12). -/
def joinBytes (a b : Byte) : Half := a ++ b

/-- `bswap16(v) = {v[7:0], v[15:8]}` (R13). -/
def bswap16 (v : Half) : Half := lo8 v ++ hi8 v

/-- A slot that Colour `c` has been written to: high byte first (10_state R28). -/
def slotOf (c : Half) : Slot := ⟨hi8 c, lo8 c, true⟩

/-- The slot made unwritten (R26). Its bytes stay as they are (42 R120, 44 R150, 45 R165, 46 R190, R191, 47 R246; log 31), and no
operation reads them: `stagingByte` answers for a written slot only. -/
def Slot.unwritten (sl : Slot) : Slot := { sl with written := false }

/-- The latches loaded from a descriptor at acceptance, every field of it (R86). -/
def latchesOf (d : Descriptor) : Latches where
  x := xField d
  y := yField d
  w := wField d
  h := hField d
  ptr := ptrField d
  c0 := c0Field d
  c1 := c1Field d
  arg := argField d
  len := lenField d

/-- `total_pixels = W * H`, exact (R101). -/
def totalPixels (w h : Half) : Nat := w.toNat * h.toNat

/-- `total_bytes = W * H * 2`, exact (R101). -/
def totalBytes (w h : Half) : Nat := w.toNat * h.toNat * 2

/-- `S = ceil(W/8)`, the bytes of one row of a mono bitmap (R94). -/
def rowStride (w : Half) : Nat := (w.toNat + 7) / 8

/-- The bytes of a mono bitmap, `H * ceil(W/8)` (R94). -/
def monoBytes (w h : Half) : Nat := h.toNat * rowStride w

/-- Conditions (i) and (ii) of 44 R155: the size is positive and the inclusive end coordinates fit 16 bits. -/
def rectangleFits (x y w h : Half) : Bool :=
  decide (1 ≤ w.toNat) && decide (1 ≤ h.toNat)
    && decide (x.toNat + w.toNat - 1 ≤ 65535) && decide (y.toNat + h.toNat - 1 ≤ 65535)

/-- `origin + size - 1`, the inclusive end coordinate of a rectangle that fits (R100). -/
def endCoord (origin size : Half) : Half := BitVec.ofNat 16 (origin.toNat + size.toNat - 1)

/-- The `n` bytes from `p` lie below `2^ADDR_W` (20_memory R53, R104): the last address is inside the space. -/
def rangeFits (cfg : Config) (p : Word) (n : Nat) : Bool := decide (p.toNat + n ≤ 2 ^ cfg.addrW)

/-- The bus's answer of draw number `k`: the run's own where it fixes one, else the free value (41 R112, log 6). -/
def syncAnswer (s : State) (k : Nat) : SyncDraw := (s.sync[k]?).getD (Config.freeSync k)

/-- The bytes of a transmit that reached the wire (R112 (v), R114). -/
def sentPrefix (a : SyncDraw) (bs : List Byte) : List Byte :=
  match a with
  | .ok => bs
  | .timeout k => bs.take k

/-- Whether the answer is `TIMEOUT`. -/
def timedOut (a : SyncDraw) : Bool :=
  match a with
  | .ok => false
  | .timeout _ => true

end Sys2Proof.Machine
end

