-- ==== Sys2Proof/Machine/Panel.lean ====
section
/-! DEFINITION. PANEL, the sink of the wire: the external contract of 20_memory R60 to R66. Where the contract says
nothing (R65, R66), the panel's state is any value from there on: free values, until the wire sets them again (logs 11,
29). -/

namespace Sys2Proof.Machine

/-- Writes the value at a key of a list of keys and values kept in strictly rising order. -/
def insertAt {α : Type} (k : Nat) (v : α) : List (Nat × α) → List (Nat × α)
  | [] => [(k, v)]
  | (j, u) :: t =>
    if k < j then (k, v) :: (j, u) :: t
    else if k = j then (k, v) :: t
    else (j, u) :: insertAt k v t

/-- The value at a key, `none` for a key that is not listed. -/
def lookupAt {α : Type} (k : Nat) : List (Nat × α) → Option α
  | [] => none
  | (j, u) :: t => if k = j then some u else lookupAt k t

/-- The canonical form: keys strictly rising. -/
def rising {α : Type} : List (Nat × α) → Bool
  | (a, _) :: (b, v) :: t => decide (a < b) && rising ((b, v) :: t)
  | _ => true

/-- The key of the pixel at a column and a row. -/
def pixelKey (col row : Nat) : Nat := col + 65536 * row

/-- `GRAM[col][row]` (R60): the pixel written last, else the free value. -/
def Panel.pixel (p : Panel) (col row : Nat) : Half :=
  (lookupAt (pixelKey col row) p.gram).getD (Config.freePixel p.draw (pixelKey col row))

/-- The panel after an event to which the contract gives no effect (R65, R66): its state is any value from here on, drawn
anew, and the frame is over. The command byte is still the last received (log 11). -/
def Panel.lose (p : Panel) : Panel := { Panel.unspecified p.wasReset p.ready (p.draw + 1) with cmd := p.cmd }

/-- The panel at the end of the table of `init()` (46 R191): window registers and frame memory are any value, drawn anew;
the cursor and the receiver state are what the table's bytes left. It is ready if `reset()` came before (R192, 70 R222,
92 D25, log 19) and `complete`, that no byte may be missing. -/
def Panel.afterInit (complete : Bool) (p : Panel) : Panel :=
  { p with
    ready := p.wasReset && complete
    xs := Config.freeRegister (p.draw + 1) .xs
    xe := Config.freeRegister (p.draw + 1) .xe
    ys := Config.freeRegister (p.draw + 1) .ys
    ye := Config.freeRegister (p.draw + 1) .ye
    gram := []
    draw := p.draw + 1 }

/-- A frame is unfinished: fewer than four parameters after an address command, or half a pixel (R65: "a pixel stream
ends on an odd byte"). -/
def Panel.midFrame (cfg : Config) (p : Panel) : Bool :=
  p.inFrame && ((p.cmd == cfg.cmdRamwr && p.latch.isSome) ||
    ((p.cmd == cfg.cmdCaset || p.cmd == cfg.cmdPaset) && p.params.length != 4))

/-- The window lies on the panel: `xs <= xe <= PANEL_WIDTH-1` and the same for rows (42 R122). -/
def Panel.windowValid (cfg : Config) (p : Panel) : Bool :=
  decide (p.xs.toNat ≤ p.xe.toNat) && decide (p.xe.toNat < cfg.panelWidth)
    && decide (p.ys.toNat ≤ p.ye.toNat) && decide (p.ye.toNat < cfg.panelHeight)

/-- A `Command` event of a ready panel. It starts a frame whatever came before: an address command is followed by its
parameters (R61, R62), the memory-write command puts the cursor on the window's first pixel and clears the latch
(R63), any other has an unspecified effect (R66). An unfinished frame before it leaves the panel's values open
(log 11). -/
def Panel.onCommand (cfg : Config) (p : Panel) (b : Byte) : Panel :=
  let q : Panel :=
    { (if p.midFrame cfg then p.lose else p) with cmd := b, inFrame := true, params := [] }
  if cfg.codesDistinct = false then q.lose
  else if b = cfg.cmdCaset ∨ b = cfg.cmdPaset then q
  else if b = cfg.cmdRamwr then { q with cursor := (q.xs.toNat, q.ys.toNat), latch := none }
  else q.lose

/-- The next parameter byte of an address command, for a panel of `size` columns or rows; the fourth sets the two
registers by `set`, each high byte first. A window with start past end, or off the panel, leaves the panel's state at
any value (R65, 93 U8); so does a fifth byte (log 11). -/
def Panel.onAddressByte (size : Nat) (set : Half → Half → Panel → Panel) (p : Panel) (b : Byte) : Panel :=
  match p.params with
  | [b0, b1, b2] =>
    let start := joinBytes b0 b1
    let stop := joinBytes b2 b
    if start.toNat ≤ stop.toNat ∧ stop.toNat < size then set start stop { p with params := [b0, b1, b2, b] }
    else p.lose
  | ps => if ps.length < 3 then { p with params := ps ++ [b] } else p.lose

/-- A byte after the column-address-set command: `XS` and `XE` (R61). -/
def Panel.onColumnByte (cfg : Config) (p : Panel) (b : Byte) : Panel :=
  p.onAddressByte cfg.panelWidth (fun start stop p => { p with xs := start, xe := stop }) b

/-- A byte after the row-address-set command: `YS` and `YE` (R62). -/
def Panel.onRowByte (cfg : Config) (p : Panel) (b : Byte) : Panel :=
  p.onAddressByte cfg.panelHeight (fun start stop p => { p with ys := start, ye := stop }) b

/-- The cursor after a pixel: at `XE` it goes to `XS` of the next row (R64, 90 C6). -/
def nextCursor (xs xe : Nat) (c : Nat × Nat) : Nat × Nat :=
  if c.1 = xe then (xs, c.2 + 1) else (c.1 + 1, c.2)

/-- The window, which lies on the panel, has room for the pixel at the cursor (R64). -/
def Panel.hasRoom (cfg : Config) (p : Panel) : Bool := p.windowValid cfg && decide (p.cursor.2 ≤ p.ye.toNat)

/-- A pixel byte: the first of a pair is latched, the second writes the pixel and advances the cursor (R64). A byte past
the window, the first of its pair too (93 U9: "More pixel bytes than the window holds"), or in a window that is none,
leaves the panel's state at any value (R65). -/
def Panel.onPixelByte (cfg : Config) (p : Panel) (b : Byte) : Panel :=
  if p.hasRoom cfg then
    match p.latch with
    | none => { p with latch := some b }
    | some a =>
      { p with
        gram := insertAt (pixelKey p.cursor.1 p.cursor.2) (joinBytes a b) p.gram
        cursor := nextCursor p.xs.toNat p.xe.toNat p.cursor
        latch := none }
  else p.lose

/-- A `Data` event of a ready panel, read by the last command received (R61 to R64); outside a frame of the contract
its effect is unspecified (R66). -/
def Panel.onData (cfg : Config) (p : Panel) (b : Byte) : Panel :=
  if p.inFrame then
    if p.cmd = cfg.cmdCaset then p.onColumnByte cfg b
    else if p.cmd = cfg.cmdPaset then p.onRowByte cfg b
    else p.onPixelByte cfg b
  else p.lose

/-- One wire event reaches the panel. Before `reset()` and then `init()` it obeys no contract (46 R190 to
R192, 70 R222, 93 U21): whatever it receives leaves any value. -/
def Panel.receive (cfg : Config) (p : Panel) (e : Event) : Panel :=
  if p.ready then
    match e.mode with
    | .command => p.onCommand cfg e.byte
    | .data => p.onData cfg e.byte
  else
    match e.mode with
    | .command => { p.lose with cmd := e.byte }
    | .data => p.lose

end Sys2Proof.Machine
end

