-- ==== Sys2Proof/Machine/Ops.lean ====
section
/-! DEFINITION. The shared operations: outcomes in sequence, source memory, the wire, the staging buffer, the
transfer engine and the XFER agent, acceptance and retirement. The engine takes no exception and has no handler entry
or return (60 R200); its one asynchronous event, the completion notification (R205 to R208), is `xferComplete`. -/

namespace Sys2Proof.Machine

/-- What a step or a part of one answers. -/
abbrev Out := Host.Outcome State Fault Refusal

/-- `f` after `o`; a fault or a refusal ends it. -/
def andThen (o : Out) (f : State → Out) : Out :=
  match o with
  | .next s => f s
  | .fault r => .fault r
  | .refused r => .refused r

/-! ### Host source memory (20_memory R51 to R53) -/

/-- The byte HOST placed at an address; `none` where it placed nothing (log 5). -/
def Memory.read (m : List Host.Cell) (a : Nat) : Option Byte := lookupAt a m

/-- HOST places a byte. -/
def Memory.write (m : List Host.Cell) (a : Nat) (b : Byte) : List Host.Cell := insertAt a b m

/-- The canonical form: addresses strictly rising. An unlisted address reads as nothing, so no entry is redundant. -/
def Memory.wf (m : List Host.Cell) : Bool := rising m

/-- `MemRead(a, 1)` (R53): the byte goes to `k`, and the read is observed (00_scope R16 (d)). An address at or above
`2^ADDR_W` has no meaning; one HOST placed nothing at has no step. -/
def readSource (a : Nat) (s : State) (k : Byte → State → Out) : Out :=
  if a < 2 ^ s.cfg.addrW then
    match Memory.read s.mem a with
    | some b => k b { s with reads := s.reads ++ [a] }
    | none => .fault .unplacedSourceRead
  else .refused .addressWrap

/-! ### The wire (20_memory R58) and the synchronous transmit (41 R112) -/

/-- `WIRE.emit` of each event in order: the trace grows at its end and the panel receives them. -/
def put (es : List Event) (s : State) : State :=
  { s with wire := s.wire ++ es, panel := es.foldl (Panel.receive s.cfg) s.panel }

/-- Bytes tagged with the mode they move in. -/
def tagged (m : Mode) (bs : List Byte) : List Event := bs.map (Event.mk m)

/-- `SyncTx(bs)` (R112): the bytes go out in the mode `DC` holds. The status is not examined: after `TIMEOUT` a
prefix has gone out, the mark `SyncTimeout` is set, and the engine goes on (R114). -/
def syncTx (bs : List Byte) (s : State) : State :=
  { put (tagged s.dc (sentPrefix (syncAnswer s s.draws) bs)) s with
    syncTimeout := s.syncTimeout || timedOut (syncAnswer s s.draws)
    draws := s.draws + 1 }

/-- The events of a `setWindow` whose transmits all complete, in order (R120). -/
def windowEvents (cfg : Config) (xStart yStart xEnd yEnd : Half) : List Event :=
  [⟨.command, cfg.cmdCaset⟩,
   ⟨.data, hi8 xStart⟩, ⟨.data, lo8 xStart⟩, ⟨.data, hi8 xEnd⟩, ⟨.data, lo8 xEnd⟩,
   ⟨.command, cfg.cmdPaset⟩,
   ⟨.data, hi8 yStart⟩, ⟨.data, lo8 yStart⟩, ⟨.data, hi8 yEnd⟩, ⟨.data, lo8 yEnd⟩,
   ⟨.command, cfg.cmdRamwr⟩]

/-- The two events of a Colour on the wire: high byte first (30_encoding R91). -/
def colourEvents (c : Half) : List Event := [⟨.data, hi8 c⟩, ⟨.data, lo8 c⟩]

/-! ### The staging buffer (10_state R26 to R29) -/

/-- `SLOT[i] <- c` (R28). -/
def writeSlot (i : Nat) (c : Half) (s : State) : State :=
  { s with stg := s.stg.set i (slotOf c) }

/-- `for i in 0 .. N-1 do SLOT[i] <- c` (44 R152): every slot holds `c`. -/
def prefill (c : Half) (s : State) : State :=
  { s with stg := List.replicate s.cfg.n (slotOf c) }

/-- `STG[k]`, byte `k` of the buffer (R27): the first byte of a slot is the high one. `none` if the slot is unwritten
or there is no such byte. -/
def stagingByte (stg : List Slot) (k : Nat) : Option Byte :=
  match stg[k / 2]? with
  | some sl => if sl.written then some (if k % 2 = 0 then sl.hi else sl.lo) else none
  | none => none

/-! ### The transfer engine and the XFER agent (43) -/

/-- No transfer is issued while `DONE = 0` (R133). -/
def whenDone (s : State) (k : State → Out) : Out := if s.done then k s else .fault .xferOverlap

/-- `beginAsyncTransfer` (R130): needs `DONE = 1` (R133), then the flag first, the request second. -/
def beginTransfer (src : Source) (len : Nat) (s : State) : Out :=
  whenDone s fun s => .next { clearDone s with
    xfer := some ⟨src, len, 0⟩
    transfers := s.transfers ++ [.begun src len] }

/-- The emit step's effect once its byte is read (R136): the byte goes out in the mode `DC` holds (R135). -/
def xferEmit (f : InFlight) (b : Byte) (s : State) : State :=
  put [⟨s.dc, b⟩] { s with xfer := some { f with sent := f.sent + 1 } }

/-- The completion step, the notification (R137, 60 R208): the record goes, `DONE` becomes 1, nothing else of the
engine changes. -/
def xferComplete (s : State) : State :=
  { setDone s with xfer := none, transfers := s.transfers ++ [.completed] }

/-- The enabled step of the XFER agent (R136, R137); no step when no transfer is in flight (R138). -/
def xferStep (s : State) : Out :=
  match s.xfer with
  | none => .next s
  | some f =>
    if f.sent < f.len then
      match f.src with
      | .staging =>
        match stagingByte s.stg f.sent with
        | some b => .next (xferEmit f b s)
        | none => .fault .unwrittenStagingRead
      | .mem a => readSource (a + f.sent) s (fun b s => .next (xferEmit f b s))
    else if f.sent = f.len then .next (xferComplete s)
    else .next s

/-- ENGINE holds in `awaitCompletion` (R131): XFER takes the turns that stand next in `ts`, one step each, until
`DONE = 1` or another agent's turn comes. R136 allows the steps to be merged: ENGINE holds, so nothing can come
between them (log 9). -/
def xferTurns : List Turn → State → Out
  | .xfer :: ts, s => if s.done then .next s else andThen (xferStep { s with turns := ts }) (xferTurns ts)
  | _, s => .next s

/-! ### Acceptance and retirement (10_state R22, R26; 70 R234) -/

/-- The effect of acceptance on the engine: operands latched (R86), every staging slot marked unwritten (R26). The bytes
of the slots stay: R26 has acceptance of every operation make every slot unwritten, 42 R120 has `setWindow` leave the
buffer untouched, 44 R150 has `plotPixel` never touch it, 45 R165 has `drawColourBitmap` not write it, and 46 R190, R191 and
47 R246 have `reset()` and `init()` leave it as before. That both hold, of the mark and of the bytes, is the model's reading: DESIGN CHOICE, unsafe for a claim about a slot between two operations (log 31). -/
def accept (load : Latches → Latches) (s : State) : State :=
  { s with ops := load s.ops, stg := s.stg.map Slot.unwritten }

/-- An operation is accepted only when `SEQ = Idle` (R22); a request made otherwise would be a re-entry (60 R210). -/
def whenIdle (s : State) (k : State → Out) : Out :=
  match s.seq with
  | .idle => k s
  | .busy _ => .fault .reentry

/-- The bus is exclusive: no synchronous transmit and no write of `DC` while a transfer is in flight (41 R115). Tested
where a bus-using operation is accepted, and at each such action (log 32). -/
def onFreeBus (s : State) (k : State → Out) : Out :=
  match s.xfer with
  | none => k s
  | some _ => .fault .busConflict

/-- ENGINE holds: `SEQ` is `Busy` at this position. -/
def hold (pos : Position) (s : State) : State := { s with seq := .busy pos }

/-- The operation retires: `SEQ` becomes `Idle` (R234). -/
def retire (s : State) : State := { s with seq := .idle, retired := s.retired + 1 }

/-- The request ENGINE would accept next, and the state with the descriptor taken and all its fields latched
(30_encoding R81, R86). -/
def nextRequest (s : State) : Option (Descriptor × State) :=
  match s.requests with
  | [] => none
  | d :: ds => some (d, { s with requests := ds, ops := latchesOf d })

/-! ### Host writes (20_memory R72) -/

/-- The streaming operation a position belongs to. -/
def Position.stream : Position → Option Stream
  | .line _ (.loop op) => some op
  | .line _ (.awaitChunk op) => some op
  | .line _ .retire => none
  | .line _ .awaitDirect => none
  | .awaitChunk op => some op
  | .awaitDirect => none

/-- The position is inside a `beginAsyncTransfer` requested by HOST, before its transfer is issued. -/
def Position.beginsDirect : Position → Bool
  | .line todo _ => todo.contains .beginDirect
  | .awaitDirect => false
  | .awaitChunk _ => false

/-- The addresses the operation in progress reads from source memory, from its acceptance to its retirement (R72):
first address and count. -/
def readRange (s : State) : Nat × Nat :=
  match s.seq with
  | .idle => (0, 0)
  | .busy pos =>
    match pos.stream with
    | some .colour => (s.ops.ptr.toNat, totalBytes s.ops.w s.ops.h)
    | some .mono => (s.ops.ptr.toNat, monoBytes s.ops.w s.ops.h)
    | some .fill => (0, 0)
    | none => if pos.beginsDirect then (s.ops.ptr.toNat, s.ops.len.toNat) else (0, 0)

/-- The addresses the transfer in flight reads. -/
def transferRange (s : State) : Nat × Nat :=
  match s.xfer with
  | some ⟨.mem a, len, _⟩ => (a, len)
  | _ => (0, 0)

/-- Whether an address lies in a range. -/
def inRange (r : Nat × Nat) (a : Nat) : Bool := decide (r.1 ≤ a) && decide (a < r.1 + r.2)

/-- HOST writes a byte of source memory between two steps of the engine. Within the range that the operation or the
transfer in progress reads, it is `InFlightMutation` (43 R139). -/
def hostWrite (a : Word) (b : Byte) (s : State) : Out :=
  if a.toNat < 2 ^ s.cfg.addrW then
    if inRange (readRange s) a.toNat || inRange (transferRange s) a.toNat then .fault .inFlightMutation
    else .next { s with mem := Memory.write s.mem a.toNat b }
  else .fault .addressOutsideSpace

end Sys2Proof.Machine
end

