-- ==== Sys2Proof/Machine/Streaming.lean ====
section
/-! DEFINITION. What the streaming operations share: the mono unpacker (45 R168), their counters, the sources and lengths
of their chunks, and their operand conditions (44 R155). -/

namespace Sys2Proof.Machine

/-- The cursor after one pixel of a row of `width` pixels (45 R168, R169): the mask moves right; when it is exhausted
the next byte begins; at the end of a row a byte that has just begun is kept, any other is left. -/
def advanceCursor (width : Half) (c : MonoCursor) : MonoCursor :=
  let shifted := c.mask >>> 1
  let justReset := shifted == 0
  let p := if justReset then c.p + 1 else c.p
  let mask := if justReset then 0x80 else shifted
  if c.col + 1 = width.toNat then
    if justReset then ⟨p, mask, 0⟩ else ⟨p + 1, 0x80, 0⟩
  else ⟨p, mask, c.col + 1⟩

/-- The colour a source bit selects: 1 is `bgColour`, 0 is `fgColour` (R168). -/
def pickColour (fg bg : Half) (bit : Bool) : Half := if bit then bg else fg

/-- `UnpackOne(i)` (R168): one source bit becomes the colour in slot `i`, and the cursor advances. -/
def unpackOne (i : Nat) (s : State) : Out :=
  readSource s.cursor.p s fun b s =>
    .next { writeSlot i (pickColour s.ops.c0 s.ops.c1 ((b &&& s.cursor.mask) != 0)) s with
      cursor := advanceCursor s.ops.w s.cursor }

/-- The source of the chunk's transfer (44 R152, 45 R165 to R167). -/
def chunkSource (op : Stream) (s : State) : Source :=
  match op with
  | .fill => .staging
  | .colour => .mem (s.ops.ptr.toNat + s.off)
  | .mono => .staging

/-- The length of the chunk's transfer in bytes (30_encoding R102). -/
def chunkBytes (op : Stream) (s : State) : Nat :=
  match op with
  | .fill => min s.rem s.cfg.nb
  | .colour => min s.rem s.cfg.nb
  | .mono => 2 * s.cnt

/-- The counters after the chunk has been awaited (44 R152, 45 R165, R167). -/
def advanceChunk (op : Stream) (s : State) : State :=
  match op with
  | .fill => { s with rem := s.rem - min s.rem s.cfg.nb }
  | .colour => { s with off := s.off + min s.rem s.cfg.nb, rem := s.rem - min s.rem s.cfg.nb }
  | .mono => { s with rem := s.rem - s.cnt }

/-- The value of the counters, and for a mono blit of the cursor, before the chunk loop (44 R152, 45 R165, R167). -/
def startCounters (op : Stream) (s : State) : State :=
  match op with
  | .fill => { s with rem := totalBytes s.ops.w s.ops.h }
  | .colour => { s with off := 0, rem := totalBytes s.ops.w s.ops.h }
  | .mono => { s with cursor := ⟨s.ops.ptr.toNat, 0x80, 0⟩, rem := totalPixels s.ops.w s.ops.h }

/-- The operand conditions (i) and (ii) of 44 R155; otherwise the request is refused. -/
def requireRectangle (x y w h : Half) (o : Out) : Out :=
  if rectangleFits x y w h then o else .refused .badRectangle

/-- The source range lies inside the address space (44 R155 (iii), 43 R134); otherwise the request is refused. -/
def requireRange (cfg : Config) (p : Word) (n : Nat) (o : Out) : Out :=
  if rangeFits cfg p n then o else .refused .addressWrap

end Sys2Proof.Machine
end

