-- ==== Sys2Proof/Machine/Primitives.lean ====
section
/-! DEFINITION. ENGINE's primitive actions (00_scope R8, 92 D1): what each does, the pseudocode of the operations as lines
of them, and how ENGINE goes on: to its next hold or retirement (`run`, `resume`, the chunk loop "prepare chunk, begin
transfer, await completion" of 43 R132), or by one primitive (`place`, `advance`). -/

namespace Sys2Proof.Machine

/-! ### The pseudocode as lines of primitives -/

/-- What one primitive action does. A transmit and a write of `DC` need the free bus (41 R115). `driveFree` makes `DC` a
free value, as 46 R190 says of `reset()`, where 10_state R24 has nothing but `sendCommand`, `sendDataByte` and `setWindow`
write it: DESIGN CHOICE, safe (log 7). -/
def perform (p : Primitive) (s : State) : Out :=
  match p with
  | .drive m => onFreeBus s fun s => .next (writeDC m s)
  | .transmit bs => onFreeBus s fun s => .next (syncTx bs s)
  | .resetPanel => onFreeBus s fun s => .next { s with panel := Panel.unspecified true false (s.panel.draw + 1) }
  | .driveFree => onFreeBus s fun s => .next { writeDC (Config.freeMode s.draws) s with draws := s.draws + 1 }
  | .tableSent => .next { s with panel := s.panel.afterInit (!s.syncTimeout) }
  | .fillSlots => .next (prefill s.ops.c0 s)
  | .setCounters op => .next (startCounters op s)
  | .setCount => .next { s with cnt := min s.rem s.cfg.n }
  | .unpack i => unpackOne i s
  | .beginDirect => beginTransfer (.mem s.ops.ptr.toNat) s.ops.len.toNat s
  | .beginChunk op => beginTransfer (chunkSource op s) (chunkBytes op s) s

/-- A line of primitives, one after the other (00_scope R14). -/
def performAll (todo : List Primitive) (s : State) : Out :=
  match todo with
  | [] => .next s
  | p :: ps => andThen (perform p s) (performAll ps)

/-- `sendCommand(code)` (41 R110), where `code` is `b`. -/
def commandLine (b : Byte) : List Primitive := [.drive .command, .transmit [b]]

/-- `sendDataByte(value)` (41 R111), where `value` is `b`. -/
def dataLine (b : Byte) : List Primitive := [.drive .data, .transmit [b]]

/-- `setWindow` (42 R120), line by line. -/
def windowLine (cfg : Config) (xStart yStart xEnd yEnd : Half) : List Primitive :=
  commandLine cfg.cmdCaset ++
  dataLine (hi8 xStart) ++ dataLine (lo8 xStart) ++ dataLine (hi8 xEnd) ++ dataLine (lo8 xEnd) ++
  commandLine cfg.cmdPaset ++
  dataLine (hi8 yStart) ++ dataLine (lo8 yStart) ++ dataLine (hi8 yEnd) ++ dataLine (lo8 yEnd) ++
  commandLine cfg.cmdRamwr ++ [.drive .data]

/-- The table loop of `init()`: one turn per entry, in order (46 R191). -/
def tableLine (t : List InitEntry) : List Primitive :=
  t.flatMap fun e => commandLine e.command ++ e.data.flatMap dataLine

/-- What a streaming operation does before its chunk loop: the window of its rectangle (30_encoding R100), the pre-fill
of a fill, the counters (44 R152, 45 R165, R167). -/
def streamLine (op : Stream) (cfg : Config) (x y w h : Half) : List Primitive :=
  windowLine cfg x y (endCoord x w) (endCoord y h) ++
  match op with
  | .fill => [.fillSlots, .setCounters .fill]
  | .colour => [.setCounters .colour]
  | .mono => [.setCounters .mono]

/-- One turn of the chunk loop up to its `awaitCompletion`: `drawMonoBitmap` unpacks `CNT` pixels first (R167), the others
have nothing to prepare; then the transfer is begun. -/
def chunkLine (op : Stream) (s : State) : List Primitive :=
  match op with
  | .fill => [.beginChunk .fill]
  | .colour => [.beginChunk .colour]
  | .mono => .setCount :: ((List.range (min s.rem s.cfg.n)).map .unpack ++ [.beginChunk .mono])

/-! ### ENGINE's turn up to its next hold or retirement -/

/-- One turn of the chunk loop: its line, and XFER's turns while ENGINE holds. -/
def chunkTurn (op : Stream) (s : State) : Out :=
  andThen (performAll (chunkLine op s) s) fun s => xferTurns s.turns s

/-- The chunk loop, `while REM > 0` (44 R152, 45 R165, R167). Where XFER has not completed the chunk, ENGINE holds
(43 R131). Every chunk takes something off `REM`, so `REM` turns suffice. -/
def streamLoop (op : Stream) : Nat → State → Out
  | 0, s => .next (retire s)
  | fuel + 1, s =>
    if s.rem = 0 then .next (retire s)
    else
      andThen (chunkTurn op s) fun s =>
        if s.done then streamLoop op fuel (advanceChunk op s) else .next (hold (.awaitChunk op) s)

/-- The chunk loop from its current `REM`. -/
def stream (op : Stream) (s : State) : Out := streamLoop op s.rem s

/-- `awaitCompletion` requested directly (43 R131): it retires once `DONE = 1`, and until then ENGINE holds. -/
def awaitDirect (s : State) : Out :=
  andThen (xferTurns s.turns s) fun s =>
    if s.done then .next (retire s) else .next (hold .awaitDirect s)

/-- `awaitCompletion` of the current chunk, and the rest of the operation after it. -/
def awaitChunk (op : Stream) (s : State) : Out :=
  andThen (xferTurns s.turns s) fun s =>
    if s.done then stream op (advanceChunk op s) else .next (hold (.awaitChunk op) s)

/-- The rest of an operation after its line. -/
def finish (e : Ending) (s : State) : Out :=
  match e with
  | .retire => .next (retire s)
  | .loop op => stream op s
  | .awaitDirect => awaitDirect s
  | .awaitChunk op => awaitChunk op s

/-- A line and the rest of the operation, up to its next hold or its retirement. -/
def run (todo : List Primitive) (e : Ending) (s : State) : Out := andThen (performAll todo s) (finish e)

/-- ENGINE's turn while it is busy: it goes on from where it stands. In `awaitCompletion` it reads `DONE` afresh (43 R131,
20_memory R67 (e)); while that is 0 nothing happens, and once it is 1 the operation goes on. -/
def resume (pos : Position) (s : State) : Out :=
  match pos with
  | .line todo e => run todo e s
  | .awaitDirect => if s.done then .next (retire s) else .next s
  | .awaitChunk op => if s.done then stream op (advanceChunk op s) else .next s

/-- What an accepted operation is handed on to: its line, how it ends, and the state with its operands latched. -/
abbrev Begin := List Primitive → Ending → State → Out

/-! ### One primitive action -/

/-- ENGINE stands before the first of `todo`, or where `e` leads when nothing is left of the line. -/
def place (todo : List Primitive) (e : Ending) (s : State) : State :=
  match todo, e with
  | p :: ps, e => { s with seq := .busy (.line (p :: ps) e) }
  | [], .retire => retire s
  | [], .awaitDirect => hold .awaitDirect s
  | [], .awaitChunk op => hold (.awaitChunk op) s
  | [], .loop op => if s.rem = 0 then retire s else { s with seq := .busy (.line (chunkLine op s) (.awaitChunk op)) }

/-- ENGINE's primitive turn while it is busy: the next primitive, or one look at `DONE`. -/
def advance (pos : Position) (s : State) : Out :=
  match pos with
  | .line (p :: ps) e => andThen (perform p s) fun s => .next (place ps e s)
  | .line [] e => .next (place [] e s)
  | .awaitDirect => if s.done then .next (retire s) else .next s
  | .awaitChunk op => if s.done then .next (place [] (.loop op) (advanceChunk op s)) else .next s

end Sys2Proof.Machine
end

