-- ==== Sys2Proof/Machine/Bitmap.lean ====
section
/-! DEFINITION. The bitmap family: 45_bitmap_blit.md. -/

namespace Sys2Proof.Machine

/-- Acceptance of `drawColourBitmap(x, y, width, height, imageData)` (45 R165, 44 R155). -/
def acceptDrawColourBitmap (x y w h : Half) (data : Word) (s : State) (k : Begin) : Out :=
  whenIdle s fun s =>
  requireRectangle x y w h <|
  requireRange s.cfg data (totalBytes w h) <|
  onFreeBus (accept (fun o => { o with x := x, y := y, w := w, h := h, ptr := data }) s) fun s =>
  k (streamLine .colour s.cfg x y w h) (.loop .colour) s

/-- `drawColourBitmap(x, y, width, height, imageData)` (45 R165): each chunk is transferred from the image itself
(R166). -/
def execDrawColourBitmap (x y w h : Half) (data : Word) (s : State) : Out := acceptDrawColourBitmap x y w h data s run

/-- Acceptance of `drawMonoBitmap(x, y, width, height, imageData, fgColour, bgColour)` (45 R167, 44 R155). -/
def acceptDrawMonoBitmap (x y w h : Half) (data : Word) (fg bg : Half) (s : State) (k : Begin) : Out :=
  whenIdle s fun s =>
  requireRectangle x y w h <|
  requireRange s.cfg data (monoBytes w h) <|
  onFreeBus (accept (fun o => { o with x := x, y := y, w := w, h := h, ptr := data, c0 := fg, c1 := bg }) s) fun s =>
  k (streamLine .mono s.cfg x y w h) (.loop .mono) s

/-- `drawMonoBitmap(x, y, width, height, imageData, fgColour, bgColour)` (45 R167). -/
def execDrawMonoBitmap (x y w h : Half) (data : Word) (fg bg : Half) (s : State) : Out :=
  acceptDrawMonoBitmap x y w h data fg bg s run

end Sys2Proof.Machine
end

