-- ==== Sys2Proof/Machine/ByteProtocol.lean ====
section
/-! DEFINITION. The ByteProtocol family: 41_byte_protocol.md. Of each operation: what its acceptance hands on to `k`, its
line of primitives and how it ends; and its meaning, which runs that. -/

namespace Sys2Proof.Machine

/-- Acceptance of `sendCommand(code)` (41 R110), on a free bus (R115). DEDUCED, safe (log 32): the bus is tested where the
request is accepted. -/
def acceptSendCommand (code : Byte) (s : State) (k : Begin) : Out :=
  whenIdle s fun s =>
  onFreeBus (accept (fun o => { o with arg := code }) s) fun s => k (commandLine code) .retire s

/-- `sendCommand(code)` (41 R110). -/
def execSendCommand (code : Byte) (s : State) : Out := acceptSendCommand code s run

/-- Acceptance of `sendDataByte(value)` (41 R111), on a free bus (R115, log 32). -/
def acceptSendDataByte (value : Byte) (s : State) (k : Begin) : Out :=
  whenIdle s fun s =>
  onFreeBus (accept (fun o => { o with arg := value }) s) fun s => k (dataLine value) .retire s

/-- `sendDataByte(value)` (41 R111). -/
def execSendDataByte (value : Byte) (s : State) : Out := acceptSendDataByte value s run

end Sys2Proof.Machine
end

