-- ==== Sys2Proof/Machine/PanelControl.lean ====
section
/-! DEFINITION. The panel control family: 46_panel_control.md. Both operations need `DONE = 1`, no transfer in flight
(R190, R191); otherwise they are the conflict on the bus (log 15). Both leave the bytes of the staging buffer as before
(R246) and mark its slots unwritten, as every acceptance does (10_state R26; log 31). -/

namespace Sys2Proof.Machine

/-- Acceptance of `reset()` (46 R190): `RESET_SEQ`, which acts on the pins and puts no byte on the wire, then `DC`. -/
def acceptReset (s : State) (k : Begin) : Out :=
  whenIdle s fun s =>
  match s.cfg.resetSeq with
  | none => .refused .noResetSequence
  | some _ => onFreeBus (accept id s) fun s => k [.resetPanel, .driveFree] .retire s

/-- `reset()` (46 R190), the panel's reset: `DC` becomes unspecified, a free value (R190 over 10_state R24: log 7), and so
does all panel state (log 29). -/
def execReset (s : State) : Out := acceptReset s run

/-- Acceptance of `init()` (46 R191): the table goes out by `sendCommand` and `sendDataByte`. -/
def acceptInit (s : State) (k : Begin) : Out :=
  whenIdle s fun s =>
  match s.cfg.initSeq with
  | none => .refused .noInitTable
  | some table => onFreeBus (accept id s) fun s => k (tableLine table ++ [.tableSent]) .retire s

/-- `init()` (46 R191). Afterwards the panel is ready for the window protocol where `reset()` came before, as R192, 70
R222 and 92 D25 ask, unless a timed-out byte leaves that open (log 19). -/
def execInit (s : State) : Out := acceptInit s run

end Sys2Proof.Machine
end

