-- ==== Sys2Proof/Machine/PixelFill.lean ====
section
/-! DEFINITION. The single-pixel and fill family: 44_pixel_and_fill.md. -/

namespace Sys2Proof.Machine

/-- Acceptance of `plotPixel(x, y, colour)` (44 R150): in range, on a free bus (41 R115, log 32), the window of one
pixel and one transmit of two bytes; out of range it retires with nothing done (R201), also with a transfer in flight.
DESIGN CHOICE, unsafe (log 30): 10_state R36 (iv) would have no transfer in flight after a public operation, and the model
follows R150. The staging buffer is never touched (R150): its bytes stay; its slots are marked unwritten, as R26 says of
every acceptance (log 31). -/
def acceptPlotPixel (x y colour : Half) (s : State) (k : Begin) : Out :=
  whenIdle s fun s =>
  let s := accept (fun o => { o with x := x, y := y, c0 := colour }) s
  if x.toNat < s.cfg.panelWidth ∧ y.toNat < s.cfg.panelHeight then
    onFreeBus s fun s => k (windowLine s.cfg x y x y ++ [.transmit [hi8 colour, lo8 colour]]) .retire s
  else k [] .retire s

/-- `plotPixel(x, y, colour)` (44 R150). Out of range with a transfer in flight: log 30. -/
def execPlotPixel (x y colour : Half) (s : State) : Out := acceptPlotPixel x y colour s run

/-- Acceptance of `fillRectangle(x, y, width, height, colour)` (44 R152, R155). -/
def acceptFillRectangle (x y w h colour : Half) (s : State) (k : Begin) : Out :=
  whenIdle s fun s =>
  requireRectangle x y w h <|
  onFreeBus (accept (fun o => { o with x := x, y := y, w := w, h := h, c0 := colour }) s) fun s =>
  k (streamLine .fill s.cfg x y w h) (.loop .fill) s

/-- `fillRectangle(x, y, width, height, colour)` (44 R152, R155). -/
def execFillRectangle (x y w h colour : Half) (s : State) : Out := acceptFillRectangle x y w h colour s run

end Sys2Proof.Machine
end

