-- ==== Sys2Proof/Machine/TransferEngine.lean ====
section
/-! DEFINITION. The TransferEngine family: 43_transfer_engine.md. -/

namespace Sys2Proof.Machine

/-- Acceptance of `beginAsyncTransfer(buffer, byteLength)` requested by HOST, whose source is `Mem(PTR)` (43 R130). An
empty transfer and a range past the top are refused (R134). DEDUCED, safe (log 33): `DONE = 1` is tested here, where the
request is accepted. -/
def acceptBeginAsyncTransfer (buffer byteLength : Word) (s : State) (k : Begin) : Out :=
  whenIdle s fun s =>
  if byteLength = 0 then .refused .emptyTransfer
  else
    requireRange s.cfg buffer byteLength.toNat <|
    whenDone (accept (fun o => { o with ptr := buffer, len := byteLength }) s) fun s => k [.beginDirect] .retire s

/-- `beginAsyncTransfer(buffer, byteLength)` (43 R130): it retires at once, the transfer in flight. -/
def execBeginAsyncTransfer (buffer byteLength : Word) (s : State) : Out :=
  acceptBeginAsyncTransfer buffer byteLength s run

/-- Acceptance of `awaitCompletion()` (43 R131). -/
def acceptAwaitCompletion (s : State) (k : Begin) : Out := whenIdle s fun s => k [] .awaitDirect (accept id s)

/-- `awaitCompletion()` (43 R131). -/
def execAwaitCompletion (s : State) : Out := acceptAwaitCompletion s run

end Sys2Proof.Machine
end

