-- ==== Sys2Proof/Machine/WindowAddressing.lean ====
section
/-! DEFINITION. The WindowAddressing family: 42_window_addressing.md. -/

namespace Sys2Proof.Machine

/-- Acceptance of `setWindow(xStart, yStart, xEnd, yEnd)` (42 R120), on a free bus (41 R115, log 32). No operand is
checked (R122). -/
def acceptSetWindow (xStart yStart xEnd yEnd : Half) (s : State) (k : Begin) : Out :=
  whenIdle s fun s =>
  onFreeBus (accept (fun o => { o with x := xStart, y := yStart, w := xEnd, h := yEnd }) s) fun s =>
  k (windowLine s.cfg xStart yStart xEnd yEnd) .retire s

/-- `setWindow(xStart, yStart, xEnd, yEnd)` (42 R120). -/
def execSetWindow (xStart yStart xEnd yEnd : Half) (s : State) : Out := acceptSetWindow xStart yStart xEnd yEnd s run

end Sys2Proof.Machine
end

