-- ==== Sys2Proof/Machine/Dispatch.lean ====
section
/-! DEFINITION. One arm per operation. -/

namespace Sys2Proof.Machine

def exec (i : Instr) (s : State) : Host.Outcome State Fault Refusal :=
  match i with
  | .reset => Sys2Proof.Machine.execReset s
  | .init => Sys2Proof.Machine.execInit s
  | .plotPixel x y colour => Sys2Proof.Machine.execPlotPixel x y colour s
  | .drawColourBitmap x y w h data => Sys2Proof.Machine.execDrawColourBitmap x y w h data s
  | .drawMonoBitmap x y w h data fg bg => Sys2Proof.Machine.execDrawMonoBitmap x y w h data fg bg s
  | .fillRectangle x y w h colour => Sys2Proof.Machine.execFillRectangle x y w h colour s
  | .sendCommand code => Sys2Proof.Machine.execSendCommand code s
  | .sendDataByte value => Sys2Proof.Machine.execSendDataByte value s
  | .setWindow xStart yStart xEnd yEnd => Sys2Proof.Machine.execSetWindow xStart yStart xEnd yEnd s
  | .beginAsyncTransfer buffer byteLength => Sys2Proof.Machine.execBeginAsyncTransfer buffer byteLength s
  | .awaitCompletion => Sys2Proof.Machine.execAwaitCompletion s

end Sys2Proof.Machine
end

