-- ==== Sys2Proof/Machine/Turns.lean ====
section
/-! DEFINITION. The turn of each agent (00_scope R15), and how a descriptor comes to be the next request. -/

namespace Sys2Proof.Machine

/-- Acceptance of any operation, one arm per operation. -/
def acceptInstr (i : Instr) (s : State) (k : Begin) : Out :=
  match i with
  | .reset => acceptReset s k
  | .init => acceptInit s k
  | .plotPixel x y colour => acceptPlotPixel x y colour s k
  | .drawColourBitmap x y w h data => acceptDrawColourBitmap x y w h data s k
  | .drawMonoBitmap x y w h data fg bg => acceptDrawMonoBitmap x y w h data fg bg s k
  | .fillRectangle x y w h colour => acceptFillRectangle x y w h colour s k
  | .sendCommand code => acceptSendCommand code s k
  | .sendDataByte value => acceptSendDataByte value s k
  | .setWindow xStart yStart xEnd yEnd => acceptSetWindow xStart yStart xEnd yEnd s k
  | .beginAsyncTransfer buffer byteLength => acceptBeginAsyncTransfer buffer byteLength s k
  | .awaitCompletion => acceptAwaitCompletion s k

/-- ENGINE stands before the first primitive of the operation it has just accepted. -/
def begun (todo : List Primitive) (e : Ending) (s : State) : Out := .next (place todo e s)

/-- The next request, handed on to `k` with the state that has taken it. An illegal descriptor is refused (30_encoding
R84). With no request left there is nothing to do. -/
def acceptNext (s : State) (k : Instr → State → Out) : Out :=
  match nextRequest s with
  | none => .next s
  | some (d, s) =>
    match decode s.cfg.addrW d with
    | .error _ => .refused .illegalDescriptor
    | .ok i => k i s

/-- ENGINE's turn up to its next hold or retirement (log 9). Busy, it goes on from where it stands. Idle, it executes the
next request. -/
def engineTurn (s : State) : Out :=
  match s.seq with
  | .busy pos => resume pos s
  | .idle => acceptNext s exec

/-- ENGINE's turn of one primitive action (00_scope R8, 92 D1). Idle, it accepts the next request and stands before its
first primitive. -/
def primitiveTurn (s : State) : Out :=
  match s.seq with
  | .busy pos => advance pos s
  | .idle => acceptNext s fun i s => acceptInstr i s begun

/-- The turn of the agent that moves next (43 R140: when XFER moves is free; after the last turn that the run fixes,
ENGINE alone moves, one primitive action a step: log 8, 00_scope R8). -/
def takeTurn (s : State) : Out :=
  match s.turns with
  | [] => primitiveTurn s
  | .engine :: ts => engineTurn { s with turns := ts }
  | .primitive :: ts => primitiveTurn { s with turns := ts }
  | .xfer :: ts => xferStep { s with turns := ts }
  | .hostWrite a b :: ts => hostWrite a b { s with turns := ts }

/-- HOST's next request is this descriptor, the engine is idle, and the next turn is ENGINE's (log 14). -/
def presentNext (d : Descriptor) (s : State) : State :=
  { s with seq := .idle, requests := d :: s.requests, turns := .engine :: s.turns }

end Sys2Proof.Machine
end

