-- ==== Sys2Proof/Machine/Step.lean ====
section
/-! DEFINITION. One step of the machine, and how the host places an instruction. -/

namespace Sys2Proof.Machine

/-- One step: the turn of the agent that moves next. -/
def step (s : State) : Host.Outcome State Fault Refusal := takeTurn s

/-- `s` with the descriptor of these bits presented as the very next request (log 14). -/
def State.withFetchWord (s : State) (nbits w : Nat) : State := presentNext (descriptorOfBits nbits w) s

end Sys2Proof.Machine
end

