-- ==== Sys2Proof/Safety.lean ====
section
/-! DEFINITION. The terms the claims use: launch premises (70 R221), the environment's premises (43 R138, R140, 41
R114), the end of a run (70 R234), the closed forms of the data formats, and the invariants. -/

namespace Sys2Proof.Machine

/-! ### Premises -/

/-- `EngineIdle` and `NoTransferInFlight` (70 R221). -/
abbrev Ready (s : State) : Prop := s.seq = .idle ∧ s.xfer = none ∧ s.done = true

/-- The staging buffer has `N` slots (10_state R26). -/
abbrev StagingSized (s : State) : Prop := s.stg.length = s.cfg.n

/-- Every one of the `N` staging slots is unwritten (10_state R26, R35). -/
abbrev StagingUnwritten (s : State) : Prop := StagingSized s ∧ ∀ sl ∈ s.stg, sl.written = false

/-- The whole of the launch premises of 70 R221 but for the value of `DC`, which is no premise. -/
abbrev Launch (s : State) : Prop :=
  Ready s ∧ s.syncTimeout = false ∧ StagingUnwritten s

/-- The premise `NoSyncTimeout` of 41 R114 for the next `k` synchronous transmits. -/
abbrev NoSyncTimeout (k : Nat) (s : State) : Prop := ∀ j < k, syncAnswer s (s.draws + j) = .ok

/-- What of these events reaches the wire when each byte is a synchronous transmit of its own, from the next draw on: all
that complete, and of a timed-out byte the prefix that was sent (41 R112 (v), R114). -/
def arrived (s : State) (es : List Event) : List Event :=
  es.zipIdx.flatMap fun e => tagged e.1.mode (sentPrefix (syncAnswer s (s.draws + e.2)) [e.1.byte])

/-- XFER has its next `k` turns (43 R140): what the premise `XferFair` gives a run, made finite. -/
abbrev XferTakes (k : Nat) (rest : List Turn) (s : State) : Prop :=
  s.turns = List.replicate k .xfer ++ rest

/-- HOST has placed the bytes `img` from address `p` on (20_memory R51). -/
abbrev Holds (m : List Host.Cell) (p : Nat) (img : List Byte) : Prop :=
  ∀ j (h : j < img.length), Memory.read m (p + j) = some img[j]

/-- The next turn, if the run gives one, is not XFER's: an operation that holds can go no further in this step. -/
abbrev XferWaits (s : State) : Prop := ∀ ts, s.turns ≠ .xfer :: ts

/-- Two mono bitmaps of this size agree in every bit that is a pixel (30_encoding R94); the padding bits may differ. -/
abbrev SamePixels (w h : Half) (img img' : List Byte) : Prop :=
  ∀ r q, r < h.toNat → q < w.toNat →
    (img.getD (r * rowStride w + q / 8) 0).getLsbD (7 - q % 8) =
    (img'.getD (r * rowStride w + q / 8) 0).getLsbD (7 - q % 8)

/-- The panel `q` is what an event outside the contract leaves of `p`: every register, the cursor, every pixel and the
receiver's index and latch hold free values drawn after all of `p`'s, and no frame is being received (20_memory R65, R66,
log 29). -/
abbrev LostTo (p q : Panel) : Prop :=
  q = { Panel.unspecified p.wasReset p.ready q.draw with cmd := q.cmd } ∧ p.draw < q.draw

/-- It is ENGINE's turn, up to its next hold or retirement. -/
abbrev EngineMoves (s : State) : Prop := ∃ ts, s.turns = .engine :: ts

/-- It is ENGINE's turn, of one primitive action. -/
abbrev PrimitiveMoves (s : State) : Prop := s.turns = [] ∨ ∃ ts, s.turns = .primitive :: ts

/-- It is ENGINE's turn, of one primitive action or of all up to its next hold or retirement. -/
abbrev EngineActs (s : State) : Prop := EngineMoves s ∨ PrimitiveMoves s

/-- ENGINE's turn accepts a request for `i`: the engine is idle and the next descriptor decodes to `i` (10_state R22). -/
abbrev Requests (s : State) (i : Instr) : Prop :=
  s.seq = .idle ∧ EngineActs s ∧ ∃ d ds, s.requests = d :: ds ∧ decode s.cfg.addrW d = .ok i

/-- The requests that need the bus free when they are accepted (41 R115, 44 R155 (iv), 46 R190, R191; logs 15, 32): all
but `awaitCompletion`, `beginAsyncTransfer`, an out-of-range `plotPixel`, and those that are refused before the bus is
looked at (log 16). -/
def UsesBus (cfg : Config) : Instr → Prop
  | .reset => cfg.resetSeq ≠ none
  | .init => cfg.initSeq ≠ none
  | .plotPixel x y _ => x.toNat < cfg.panelWidth ∧ y.toNat < cfg.panelHeight
  | .drawColourBitmap x y w h p => rectangleFits x y w h = true ∧ p.toNat + totalBytes w h ≤ 2 ^ cfg.addrW
  | .drawMonoBitmap x y w h p _ _ => rectangleFits x y w h = true ∧ p.toNat + monoBytes w h ≤ 2 ^ cfg.addrW
  | .fillRectangle x y w h _ => rectangleFits x y w h = true
  | .sendCommand _ => True
  | .sendDataByte _ => True
  | .setWindow _ _ _ _ => True
  | .beginAsyncTransfer _ _ => False
  | .awaitCompletion => False

/-- The run is over (70 R234): no request is left, the last operation has retired, no transfer is pending, and no
fault mark is set. -/
abbrev RunOver (s : State) : Prop :=
  s.requests = [] ∧ s.seq = .idle ∧ s.xfer = none ∧ s.syncTimeout = false

/-! ### Chunks (30_encoding R102, 44 R153) -/

/-- `ceil(total / nb)`, the number of chunks. -/
def chunkCount (nb total : Nat) : Nat := (total + nb - 1) / nb

/-- The length of chunk `j`. -/
def chunkLength (nb total j : Nat) : Nat := min nb (total - j * nb)

/-- The transfer events of a stream whose chunk `j` comes from `src j`: each begun, then completed (43 R132). -/
def chunkEvents (src : Nat → Source) (nb total : Nat) : List XferEvent :=
  (List.range (chunkCount nb total)).flatMap fun j => [.begun (src j) (chunkLength nb total j), .completed]

/-- XFER's steps for a whole stream: one for each byte and one for each completion. -/
def streamTurns (nb total : Nat) : Nat := total + chunkCount nb total

/-! ### Data formats -/

/-- The bits of a descriptor from `lo` on, `width` of them. -/
def bitsAt (lo width : Nat) : Descriptor := BitVec.ofNat 160 ((2 ^ width - 1) * 2 ^ lo)

/-- The bits of the descriptor that select an operation and hold the operands the opcode map lists for it
(30_encoding R82, R83); the others are ignored (R85). -/
def operandMask : Instr → Descriptor
  | .reset => bitsAt 0 8
  | .init => bitsAt 0 8
  | .plotPixel _ _ _ => bitsAt 0 8 ||| bitsAt 32 32 ||| bitsAt 128 16
  | .drawColourBitmap _ _ _ _ _ => bitsAt 0 8 ||| bitsAt 32 96
  | .drawMonoBitmap _ _ _ _ _ _ _ => bitsAt 0 8 ||| bitsAt 32 128
  | .fillRectangle _ _ _ _ _ => bitsAt 0 8 ||| bitsAt 32 64 ||| bitsAt 128 16
  | .sendCommand _ => bitsAt 0 16
  | .sendDataByte _ => bitsAt 0 16
  | .setWindow _ _ _ _ => bitsAt 0 8 ||| bitsAt 32 64
  | .beginAsyncTransfer _ _ => bitsAt 0 8 ||| bitsAt 96 64
  | .awaitCompletion => bitsAt 0 8

/-- The address offset of the source byte of pixel `k` of a mono bitmap (45 R173). -/
def monoOffset (w : Half) (k : Nat) : Nat := (k / w.toNat) * rowStride w + (k % w.toNat) / 8

/-- The cursor before pixel `k` of a bitmap that starts at `p` (45 R173). -/
def cursorAt (w : Half) (p k : Nat) : MonoCursor :=
  ⟨p + monoOffset w k, (0x80 : Byte) >>> ((k % w.toNat) % 8), k % w.toNat⟩

/-- The colour of pixel `k` of the mono bitmap `img` (45 R173). -/
def monoColour (w : Half) (fg bg : Half) (img : List Byte) (k : Nat) : Half :=
  pickColour fg bg ((img.getD (monoOffset w k) 0).getLsbD (7 - (k % w.toNat) % 8))

/-- The wire events of a sequence of Colours (30_encoding R90, R91). -/
def pixelEvents (cs : List Half) : List Event := cs.flatMap colourEvents

/-- The events of the table `INIT_SEQ`: one frame per entry (46 R191). -/
def tableEvents (t : List InitEntry) : List Event :=
  t.flatMap fun e => ⟨.command, e.command⟩ :: tagged .data e.data

/-- The mode of the last of some events, `m` if there is none. -/
def lastMode (m : Mode) (es : List Event) : Mode := es.foldl (fun _ e => e.mode) m

/-! ### Invariants -/

/-- 10_state R36 (i): `DONE = 0` exactly when a transfer is in flight. -/
abbrev FlagAgrees (s : State) : Prop := s.done = s.xfer.isNone

/-- 10_state R36 (iv) and R56: only a streaming operation that holds has a transfer from the staging buffer in
flight. -/
abbrev StagingOwned (s : State) : Prop :=
  ∀ f, s.xfer = some f → f.src = .staging →
    s.seq = .busy (.awaitChunk .fill) ∨ s.seq = .busy (.awaitChunk .mono)

/-- What the record of a transfer in flight meets (10_state R25, R26; 20_memory R53). -/
abbrev TransferSound (s : State) : Prop :=
  ∀ f, s.xfer = some f →
    f.sent ≤ f.len ∧ 1 ≤ f.len ∧
    (f.src = .staging → ∀ k < f.len, (stagingByte s.stg k).isSome = true) ∧
    (∀ a, f.src = .mem a → a + f.len ≤ 2 ^ s.cfg.addrW)

/-- Source memory is in its canonical form. -/
abbrev MemoryCanonical (s : State) : Prop := Memory.wf s.mem = true

/-- What a list of transfer events leaves open: `some true` if every `begun` met no open transfer and every
`completed` an open one and the last is completed or there is none, `some false` if the last is still open, `none`
if the discipline of 43 R132 is broken. -/
def transferLog : List XferEvent → Option Bool :=
  List.foldl (fun st e =>
    match st, e with
    | some true, .begun _ _ => some false
    | some false, .completed => some true
    | _, _ => none) (some true)

/-- The transfers of the run alternate begin, complete, begin, complete, ... (43 R132), and `DONE` says which comes
next. -/
abbrev Serial (s : State) : Prop := transferLog s.transfers = some s.done

/-- The counters fit the widths of 10_state R20. -/
abbrev CountersFit (s : State) : Prop :=
  s.rem < 2 ^ 34 ∧ s.off < 2 ^ 34 ∧ s.cnt < 2 ^ 16 ∧ s.cursor.p ≤ 2 ^ s.cfg.addrW ∧ s.cursor.col < 2 ^ 16

/-- While a fill is in progress every staging slot holds its colour (44 R152, 10_state R29). -/
abbrev StagingFilled (s : State) : Prop :=
  s.seq = .busy (.awaitChunk .fill) → s.stg = List.replicate s.cfg.n (slotOf s.ops.c0)

/-- The mono cursor of an operation in progress (10_state R30): one bit of `MASK` is set and `COL < W`. -/
abbrev CursorSound (s : State) : Prop :=
  s.seq = .busy (.awaitChunk .mono) → (∃ k < 8, s.cursor.mask = (0x80 : Byte) >>> k) ∧ s.cursor.col < s.ops.w.toNat

/-- A colour blit in progress has all it will still read inside the address space (44 R155 (iii)). -/
abbrev BlitInside (s : State) : Prop :=
  s.seq = .busy (.awaitChunk .colour) →
    s.ops.ptr.toNat + s.off + s.rem ≤ 2 ^ s.cfg.addrW ∧ s.off + s.rem < 2 ^ 34

/-! #### Between two primitives of an operation -/

/-- What the chunk loop of an operation needs of the buffer, the counters and the cursor: `StagingFilled`, `BlitInside`
and `CursorSound`, each for its operation. -/
def LoopSound (op : Stream) (s : State) : Prop :=
  match op with
  | .fill => s.stg = List.replicate s.cfg.n (slotOf s.ops.c0)
  | .colour => s.ops.ptr.toNat + s.off + s.rem ≤ 2 ^ s.cfg.addrW ∧ s.off + s.rem < 2 ^ 34
  | .mono => (∃ k < 8, s.cursor.mask = (0x80 : Byte) >>> k) ∧ s.cursor.col < s.ops.w.toNat

/-- What the operands of an accepted streaming operation meet (44 R155). -/
def OperandsSound (op : Stream) (s : State) : Prop :=
  match op with
  | .fill => True
  | .colour => s.ops.ptr.toNat + totalBytes s.ops.w s.ops.h ≤ 2 ^ s.cfg.addrW
  | .mono => s.ops.ptr.toNat + monoBytes s.ops.w s.ops.h ≤ 2 ^ s.cfg.addrW ∧ 1 ≤ s.ops.w.toNat

/-- The primitives a streaming operation performs before its chunk loop. -/
def opens (op : Stream) : Primitive → Bool
  | .drive _ => true
  | .transmit _ => true
  | .fillSlots => op == .fill
  | .setCounters o => o == op
  | _ => false

/-- The primitives of the operations without a chunk loop. -/
def plain : Primitive → Bool
  | .drive _ => true
  | .transmit _ => true
  | .resetPanel => true
  | .driveFree => true
  | .tableSent => true
  | .beginDirect => true
  | _ => false

/-- Before the chunk loop: what the primitives still to perform will set up, and what those performed have. -/
structure OpeningSound (op : Stream) (todo : List Primitive) (s : State) : Prop where
  opening  : ∀ p ∈ todo, opens op p = true
  operands : OperandsSound op s
  filled   : op = .fill → .fillSlots ∉ todo → LoopSound .fill s
  counters : op ≠ .fill → .setCounters op ∉ todo → LoopSound op s

/-- Inside a turn of the chunk loop, before the transfer is begun: in a mono blit slots `0 .. i-1` are written. -/
def ChunkSound (op : Stream) (todo : List Primitive) (s : State) : Prop :=
  LoopSound op s ∧ s.rem ≠ 0 ∧
  (todo = chunkLine op s ∨
    (op = .mono ∧ s.cnt = min s.rem s.cfg.n ∧ ∃ i ≤ s.cnt,
      todo = (List.range' i (s.cnt - i)).map .unpack ++ [.beginChunk .mono] ∧
      ∀ k < i, ∃ sl, s.stg[k]? = some sl ∧ sl.written = true))

/-- What a position before some primitives meets, by how its line ends. -/
def LineSound (todo : List Primitive) (e : Ending) (s : State) : Prop :=
  match e with
  | .retire => (todo ≠ [] → s.xfer = none) ∧ (∀ p ∈ todo, plain p = true) ∧
      (.beginDirect ∈ todo → todo = [.beginDirect] ∧
        1 ≤ s.ops.len.toNat ∧ s.ops.ptr.toNat + s.ops.len.toNat ≤ 2 ^ s.cfg.addrW)
  | .loop op => s.xfer = none ∧ OpeningSound op todo s
  | .awaitDirect => todo = []
  | .awaitChunk op => s.xfer = none ∧ ChunkSound op todo s

/-- An engine between two primitives is at a place of some operation's pseudocode (10_state R22). -/
abbrev PlaceSound (s : State) : Prop := ∀ todo e, s.seq = .busy (.line todo e) → LineSound todo e s

/-- The panel's written pixels are in canonical form. -/
abbrev PanelCanonical (s : State) : Prop := rising s.panel.gram = true

/-- The invariant of the machine: 10_state R36 with the shapes of its parts. -/
structure Inv (s : State) : Prop where
  config   : s.cfg.wf = true
  flag     : FlagAgrees s
  owned    : StagingOwned s
  transfer : TransferSound s
  sized    : StagingSized s
  memory   : MemoryCanonical s
  serial   : Serial s
  counters : CountersFit s
  filled   : StagingFilled s
  cursor   : CursorSound s
  inside   : BlitInside s
  panel    : PanelCanonical s
  place    : PlaceSound s

end Sys2Proof.Machine
end

