-- ==== Sys2Proof/Certificates/Slice0/Obligations.lean ====
section
/-! DEFINITION. The statements for the provers, from the numbered rules of spec/. Each docstring names the rules. The
parameters (00_scope R10) are data of the state, so every statement holds for all of them. -/

open Sys2Proof Sys2Proof.Machine

/-! ### Encoding and acceptance -/

/-- R82, R83, R97: decoding the encoder's descriptor gives the operation back, every operand at every value. -/
def Obligations.DecodeOfEncode : Prop :=
  ∀ (addrW : Nat) (i : Instr), i.wf addrW = true → decode addrW (encode i) = .ok i

/-- R83, R85: a legal descriptor that agrees with another in the bits of the operation code and of the operands the
opcode map lists decodes to the same operation, and the encoder writes zero in all other bits. The check of `PTR` on
every descriptor is the model's choice (log 13). -/
def Obligations.UnlistedFieldsAreIgnored : Prop :=
  (∀ (addrW : Nat) (d d' : Descriptor) (i : Instr), decode addrW d = .ok i →
    rsvField d' = 0 → (ptrField d').toNat < 2 ^ addrW →
    d' &&& operandMask i = d &&& operandMask i → decode addrW d' = .ok i) ∧
  (∀ i : Instr, encode i &&& ~~~ operandMask i = 0)

/-- R83: words of the spec's own vectors (95: V1.1, V1.4, V2.3, V3.1, V3.2, V4.1, V4.11, V5.2, V5.6, V6.1, V6.3),
laid out as R81 says, decode to the operations the spec gives beside them. `decodeTableWord` takes the default
`ADDR_W` (logs 2, 23). -/
def Obligations.SpecDescriptorsDecode : Prop :=
  decodeTableWord 160 0x00002C10 = some (.sendCommand 0x2C) ∧
  decodeTableWord 160 0x00001311 = some (.sendDataByte 0x13) ∧
  decodeTableWord 160 0x00000000_00000000_010001FF_00450123_00000012 = some (.setWindow 0x0123 0x0045 0x01FF 0x0100) ∧
  decodeTableWord 160 0x00000004_00003000_00000000_00000000_00000013 = some (.beginAsyncTransfer 0x3000 4) ∧
  decodeTableWord 160 0x00000014 = some .awaitCompletion ∧
  decodeTableWord 160 0x0000F800_00000000_00000000_00070005_00000002 = some (.plotPixel 5 7 0xF800) ∧
  decodeTableWord 160 0x000007E0_00000000_000D000A_00000000_00000005 = some (.fillRectangle 0 0 10 13 0x07E0) ∧
  decodeTableWord 160 0x00000000_00002000_00020003_00010001_00000003 = some (.drawColourBitmap 1 1 3 2 0x2000) ∧
  decodeTableWord 160 0x001FF800_00001000_0002000C_00000000_00000004 =
    some (.drawMonoBitmap 0 0 12 2 0x1000 0xF800 0x001F) ∧
  decodeTableWord 160 0x00000000 = some .reset ∧
  decodeTableWord 160 0x00000001 = some .init

/-- R84: a request whose code is unassigned, whose reserved field is not zero or whose pointer has bits above
`ADDR_W` is refused, whatever its other fields hold; any other request decodes. That a wide `PTR` is illegal also
where it is not used is the model's reading (log 13). -/
def Obligations.IllegalDescriptorsAreRefused : Prop :=
  (∀ (s : State) (d : Descriptor) (ds : List Descriptor), s.seq = .idle → EngineActs s → s.requests = d :: ds →
    ((0x06 ≤ (opcField d).toNat ∧ (opcField d).toNat ≤ 0x0F) ∨ 0x15 ≤ (opcField d).toNat ∨
      rsvField d ≠ 0 ∨ 2 ^ s.cfg.addrW ≤ (ptrField d).toNat) →
    step s = .refused .illegalDescriptor) ∧
  (∀ (addrW : Nat) (d : Descriptor),
    ((opcField d).toNat ≤ 0x05 ∨ (0x10 ≤ (opcField d).toNat ∧ (opcField d).toNat ≤ 0x14)) →
    rsvField d = 0 → (ptrField d).toNat < 2 ^ addrW → ∃ i, decode addrW d = .ok i)

/-- 10_state R22: on ENGINE's turn an idle engine whose next request decodes to `i` executes exactly `i`, on the
state with that request taken, the turn used and the descriptor's fields latched; on a turn of one primitive (R8) it
accepts `i` and stands before its first primitive. The list of requests and the turns are the model's own (logs 8, 9,
14). -/
def Obligations.StepExecutesTheDecodedRequest : Prop :=
  ∀ (s : State) (d : Descriptor) (ds : List Descriptor) (i : Instr),
    s.seq = .idle → s.requests = d :: ds → decode s.cfg.addrW d = .ok i →
    let t : State := { s with turns := s.turns.tail, requests := ds, ops := latchesOf d }
    (EngineMoves s → step s = exec i t) ∧ (PrimitiveMoves s → step s = acceptInstr i t begun)

/-- R86, R21: after the step that accepts a descriptor every operand latch holds its field of the descriptor, and no
step without an acceptance changes a latch. -/
def Obligations.AcceptanceLatchesOperands : Prop :=
  (∀ (s t : State) (d : Descriptor) (ds : List Descriptor),
    s.seq = .idle → EngineActs s → s.requests = d :: ds → step s = .next t →
    t.ops.x = d.extractLsb' 32 16 ∧ t.ops.y = d.extractLsb' 48 16 ∧ t.ops.w = d.extractLsb' 64 16 ∧
    t.ops.h = d.extractLsb' 80 16 ∧ t.ops.ptr = d.extractLsb' 96 32 ∧ t.ops.c0 = d.extractLsb' 128 16 ∧
    t.ops.c1 = d.extractLsb' 144 16 ∧ t.ops.arg = d.extractLsb' 8 8 ∧ t.ops.len = d.extractLsb' 128 32) ∧
  (∀ s t : State, step s = .next t → t.requests = s.requests → t.ops = s.ops)

/-! ### ByteProtocol and WindowAddressing -/

/-- R110: `DC` becomes `Command` and the byte goes out; nothing else of the engine changes but the operand latched
and the marks of the staging slots, unwritten from acceptance on (10_state R26), their bytes as before (log 31). -/
def Obligations.SendCommandResult : Prop :=
  ∀ (s : State) (code : Byte), s.seq = .idle → s.xfer = none → NoSyncTimeout 1 s →
    exec (.sendCommand code) s = .next { s with
      ops := { s.ops with arg := code }
      stg := s.stg.map Slot.unwritten
      dc := .command
      wire := s.wire ++ [⟨.command, code⟩]
      panel := s.panel.receive s.cfg ⟨.command, code⟩
      draws := s.draws + 1
      retired := s.retired + 1 }

/-- R111: `DC` becomes `Data` and the byte goes out. The staging slots are marked unwritten from acceptance on (10_state
R26), their bytes as before (log 31). -/
def Obligations.SendDataByteResult : Prop :=
  ∀ (s : State) (value : Byte), s.seq = .idle → s.xfer = none → NoSyncTimeout 1 s →
    exec (.sendDataByte value) s = .next { s with
      ops := { s.ops with arg := value }
      stg := s.stg.map Slot.unwritten
      dc := .data
      wire := s.wire ++ [⟨.data, value⟩]
      panel := s.panel.receive s.cfg ⟨.data, value⟩
      draws := s.draws + 1
      retired := s.retired + 1 }

/-- R120, R122: exactly the eleven events, for any coordinates, and `DC` ends at `Data`. R120 has the staging buffer
untouched, 10_state R26 has every slot become unwritten at acceptance: the bytes stay and the marks go (log 31). -/
def Obligations.SetWindowResult : Prop :=
  ∀ (s : State) (xs ys xe ye : Half), s.seq = .idle → s.xfer = none → NoSyncTimeout 11 s →
    let es : List Event :=
      [⟨.command, s.cfg.cmdCaset⟩, ⟨.data, hi8 xs⟩, ⟨.data, lo8 xs⟩, ⟨.data, hi8 xe⟩, ⟨.data, lo8 xe⟩,
       ⟨.command, s.cfg.cmdPaset⟩, ⟨.data, hi8 ys⟩, ⟨.data, lo8 ys⟩, ⟨.data, hi8 ye⟩, ⟨.data, lo8 ye⟩,
       ⟨.command, s.cfg.cmdRamwr⟩]
    exec (.setWindow xs ys xe ye) s = .next { s with
      ops := { s.ops with x := xs, y := ys, w := xe, h := ye }
      stg := s.stg.map Slot.unwritten
      dc := .data
      wire := s.wire ++ es
      panel := es.foldl (Panel.receive s.cfg) s.panel
      draws := s.draws + 11
      retired := s.retired + 1 }

/-- R114: after `TIMEOUT` a prefix of the transmit is on the wire, the mark `SyncTimeout` is set, `DC` holds what
the operation wrote, and the operation retires as it would have. The answer is the environment's draw (log 6). -/
def Obligations.TimedOutByteIsMarkedAndTheEngineContinues : Prop :=
  ∀ (s : State) (b : Byte) (k : Nat), s.seq = .idle → s.xfer = none → syncAnswer s s.draws = .timeout k →
    (∃ t, exec (.sendCommand b) s = .next t ∧ t.seq = .idle ∧ t.dc = .command ∧ t.syncTimeout = true ∧
      t.wire = s.wire ++ tagged .command ([b].take k) ∧ t.retired = s.retired + 1) ∧
    (∃ t, exec (.sendDataByte b) s = .next t ∧ t.seq = .idle ∧ t.dc = .data ∧ t.syncTimeout = true ∧
      t.wire = s.wire ++ tagged .data ([b].take k) ∧ t.retired = s.retired + 1)

/-- R112, R114, R202: whatever the bus answers, the operations that only transmit synchronously run to their end:
each retires with the mode its rule gives, as many draws as transmits, of each transmit what was sent on the wire, and the
mark set exactly if it was set or some transmit timed out. And a streaming operation goes on behind its window: where the
next turn is not XFER's it holds in its first `awaitCompletion`, its first chunk begun, `DC` at `Data`, after the eleven
transmits of the window, with the mark set in the same way. The draws are numbered by the model (log 6); whose turn it
is, is the model's list (log 8). -/
def Obligations.SynchronousOperationsCompleteWhateverTheBusAnswers : Prop :=
  ∀ s : State, s.seq = .idle → s.xfer = none →
    let timeouts (k : Nat) : Bool := (List.range k).any fun j => timedOut (syncAnswer s (s.draws + j))
    let ends (o : Host.Outcome State Fault Refusal) (m : Mode) (k : Nat) (es : List Event) : Prop :=
      ∃ t, o = .next t ∧ t.seq = .idle ∧ t.retired = s.retired + 1 ∧ t.dc = m ∧ t.draws = s.draws + k ∧
        t.wire = s.wire ++ es ∧ t.syncTimeout = (s.syncTimeout || timeouts k) ∧ t.done = s.done ∧ t.xfer = none
    (∀ code, ends (exec (.sendCommand code) s) .command 1 (arrived s [⟨.command, code⟩])) ∧
    (∀ value, ends (exec (.sendDataByte value) s) .data 1 (arrived s [⟨.data, value⟩])) ∧
    (∀ xs ys xe ye, ends (exec (.setWindow xs ys xe ye) s) .data 11 (arrived s (windowEvents s.cfg xs ys xe ye))) ∧
    (∀ x y c : Half, x.toNat < s.cfg.panelWidth → y.toNat < s.cfg.panelHeight →
      ends (exec (.plotPixel x y c) s) .data 12
        (arrived s (windowEvents s.cfg x y x y) ++
          tagged .data (sentPrefix (syncAnswer s (s.draws + 11)) [hi8 c, lo8 c]))) ∧
    (∀ table, s.cfg.initSeq = some table →
      ends (exec .init s) (lastMode s.dc (tableEvents table)) (tableEvents table).length
        (arrived s (tableEvents table))) ∧
    (∀ x y w h : Half, s.done = true → rectangleFits x y w h = true → XferWaits s →
      let holds (o : Host.Outcome State Fault Refusal) (op : Stream) (src : Source) (len : Nat) : Prop :=
        ∃ t, o = .next t ∧ t.seq = .busy (.awaitChunk op) ∧ t.done = false ∧ t.xfer = some ⟨src, len, 0⟩ ∧
          t.transfers = s.transfers ++ [.begun src len] ∧ t.dc = .data ∧ t.draws = s.draws + 11 ∧
          t.wire = s.wire ++ arrived s (windowEvents s.cfg x y (endCoord x w) (endCoord y h)) ∧
          t.syncTimeout = (s.syncTimeout || timeouts 11) ∧ t.retired = s.retired
      let n := min (totalBytes w h) s.cfg.nb
      (∀ c, holds (exec (.fillRectangle x y w h c) s) .fill .staging n) ∧
      (∀ p : Word, p.toNat + totalBytes w h ≤ 2 ^ s.cfg.addrW →
        holds (exec (.drawColourBitmap x y w h p) s) .colour (.mem p.toNat) n) ∧
      (∀ (p : Word) (fg bg : Half) (img : List Byte), img.length = monoBytes w h →
        p.toNat + img.length ≤ 2 ^ s.cfg.addrW → Holds s.mem p.toNat img →
        holds (exec (.drawMonoBitmap x y w h p fg bg) s) .mono .staging n))

/-- R115, R232: with a transfer in flight a synchronous transmit is the fault `BusConflict`. The conflict ends the
run (log 10). -/
def Obligations.SynchronousTransmitInFlightIsBusConflict : Prop :=
  ∀ (s : State) (f : InFlight), s.seq = .idle → s.xfer = some f →
    (∀ code, exec (.sendCommand code) s = .fault .busConflict) ∧
    (∀ value, exec (.sendDataByte value) s = .fault .busConflict) ∧
    (∀ xs ys xe ye, exec (.setWindow xs ys xe ye) s = .fault .busConflict) ∧
    (∀ x y c : Half, x.toNat < s.cfg.panelWidth → y.toNat < s.cfg.panelHeight →
      exec (.plotPixel x y c) s = .fault .busConflict)

/-- R155 (iv), R190, R191 and the model's choice of log 15: the operations that need a free bus before their first
action are the same fault. -/
def Obligations.DrawingAndPanelControlInFlightIsBusConflict : Prop :=
  ∀ (s : State) (f : InFlight), s.seq = .idle → s.xfer = some f →
    (∀ x y w h c, rectangleFits x y w h = true → exec (.fillRectangle x y w h c) s = .fault .busConflict) ∧
    (∀ x y w h p, rectangleFits x y w h = true → p.toNat + totalBytes w h ≤ 2 ^ s.cfg.addrW →
      exec (.drawColourBitmap x y w h p) s = .fault .busConflict) ∧
    (∀ x y w h p fg bg, rectangleFits x y w h = true → p.toNat + monoBytes w h ≤ 2 ^ s.cfg.addrW →
      exec (.drawMonoBitmap x y w h p fg bg) s = .fault .busConflict) ∧
    (s.cfg.resetSeq ≠ none → exec .reset s = .fault .busConflict) ∧
    (s.cfg.initSeq ≠ none → exec .init s = .fault .busConflict)

/-! ### plotPixel, panel control -/

/-- R150, R151, R201: in range, thirteen events and `DC` ends at `Data`; out of range nothing is done but retirement.
That this is so with a transfer in flight too is the model's choice of R150 and V4.6 over 10_state R36 (iv) (log 30). The
bytes of the staging buffer stay, as R150 says, and its slots are marked unwritten, as R26 says of every acceptance: log
31. -/
def Obligations.PlotPixelResult : Prop :=
  ∀ (s : State) (x y c : Half), s.seq = .idle →
    (x.toNat < s.cfg.panelWidth → y.toNat < s.cfg.panelHeight → s.xfer = none → NoSyncTimeout 12 s →
      let es : List Event := windowEvents s.cfg x y x y ++ [⟨.data, hi8 c⟩, ⟨.data, lo8 c⟩]
      exec (.plotPixel x y c) s = .next { s with
        ops := { s.ops with x := x, y := y, c0 := c }
        stg := s.stg.map Slot.unwritten
        dc := .data
        wire := s.wire ++ es
        panel := es.foldl (Panel.receive s.cfg) s.panel
        draws := s.draws + 12
        retired := s.retired + 1 }) ∧
    ((s.cfg.panelWidth ≤ x.toNat ∨ s.cfg.panelHeight ≤ y.toNat) →
      exec (.plotPixel x y c) s = .next { s with
        ops := { s.ops with x := x, y := y, c0 := c }
        stg := s.stg.map Slot.unwritten
        retired := s.retired + 1 })

/-- R190: `reset()` puts no byte on the wire, leaves `DC` at the free value and all panel state, the receiver's included,
at free values of a new draw, and touches nothing else of the engine: the bytes of the staging buffer stay, as R190 and
R246 say, and its slots are marked unwritten, as R26 says (log 31); without `RESET_SEQ` it is refused. `DC` is the free
value of log 7, where R24 and R190 differ, the panel that of log 29; that a transfer in flight is a conflict is log 15;
that no byte goes out is the spec's assumption (log 21). -/
def Obligations.PanelResetResult : Prop :=
  ∀ s : State, s.seq = .idle →
    (∀ q, s.cfg.resetSeq = some q → s.xfer = none →
      exec .reset s = .next { s with
        stg := s.stg.map Slot.unwritten
        dc := Config.freeMode s.draws
        panel := Panel.unspecified true false (s.panel.draw + 1)
        draws := s.draws + 1
        retired := s.retired + 1 }) ∧
    (s.cfg.resetSeq = none → exec .reset s = .refused .noResetSequence)

/-- R191, R192: `init()` sends the table, one frame per entry, and leaves `DC` at the mode of the last byte; the window
registers and frame memory of the panel are then free values of a new draw, its cursor and receiver what the bytes that
arrived left, and it is ready exactly if `reset()` came before and the mark `SyncTimeout` is not set: it runs to its end
with the mark set, before it or by it, too (R202). Without a table it is refused. How R191 and R192 go together, and what
a missing byte leaves of the panel, is log 19; the answers of the bus are log 6; the bus is free by log 15, nothing stands
between the entries by log 21, the staging slots are marked unwritten by log 31. -/
def Obligations.InitResult : Prop :=
  ∀ s : State, s.seq = .idle →
    (∀ table, s.cfg.initSeq = some table → s.xfer = none → s.syncTimeout = false →
      NoSyncTimeout (tableEvents table).length s →
      exec .init s = .next { s with
        stg := s.stg.map Slot.unwritten
        dc := lastMode s.dc (tableEvents table)
        wire := s.wire ++ tableEvents table
        panel :=
          let p := (tableEvents table).foldl (Panel.receive s.cfg) s.panel
          let k := p.draw + 1
          { p with
            ready := s.panel.wasReset
            xs := Config.freeRegister k .xs
            xe := Config.freeRegister k .xe
            ys := Config.freeRegister k .ys
            ye := Config.freeRegister k .ye
            gram := []
            draw := k }
        draws := s.draws + (tableEvents table).length
        retired := s.retired + 1 }) ∧
    (∀ table, s.cfg.initSeq = some table → s.xfer = none →
      ∃ t, exec .init s = .next t ∧ t.wire = s.wire ++ arrived s (tableEvents table) ∧
        t.syncTimeout = (s.syncTimeout || (List.range (tableEvents table).length).any fun j =>
          timedOut (syncAnswer s (s.draws + j))) ∧
        s.panel.draw < t.panel.draw ∧
        t.panel =
          let p := (arrived s (tableEvents table)).foldl (Panel.receive s.cfg) s.panel
          let k := p.draw + 1
          { p with
            ready := s.panel.wasReset && !t.syncTimeout
            xs := Config.freeRegister k .xs
            xe := Config.freeRegister k .xe
            ys := Config.freeRegister k .ys
            ye := Config.freeRegister k .ye
            gram := []
            draw := k }) ∧
    (s.cfg.initSeq = none → exec .init s = .refused .noInitTable)

/-! ### Transfer control -/

/-- R130: the flag goes to 0 and the record is created, nothing is on the wire yet, and the operation retires at once
with the transfer in flight. The staging slots are marked unwritten from acceptance on (10_state R26), their bytes as
before (log 31). -/
def Obligations.BeginAsyncTransferResult : Prop :=
  ∀ (s : State) (p len : Word), s.seq = .idle → s.done = true → len ≠ 0 →
    p.toNat + len.toNat ≤ 2 ^ s.cfg.addrW →
    exec (.beginAsyncTransfer p len) s = .next { s with
      ops := { s.ops with ptr := p, len := len }
      stg := s.stg.map Slot.unwritten
      done := false
      xfer := some ⟨.mem p.toNat, len.toNat, 0⟩
      transfers := s.transfers ++ [.begun (.mem p.toNat) len.toNat]
      retired := s.retired + 1 }

/-- R133: a transfer issued while `DONE = 0` is the fault `XferOverlap`. The mark ends the run (log 10). -/
def Obligations.BeginWhileFlagIsFalseIsXferOverlap : Prop :=
  ∀ (s : State) (p len : Word), s.seq = .idle → s.done = false → len ≠ 0 →
    p.toNat + len.toNat ≤ 2 ^ s.cfg.addrW →
    exec (.beginAsyncTransfer p len) s = .fault .xferOverlap

/-- R134: an empty transfer, and one whose range passes the top of the address space, are refused. That this is so with
`DONE = 0` too, where R133 gives a valid request the fault `XferOverlap`, is the model's order of the two tests (log 16). -/
def Obligations.EmptyAndWrappingTransfersAreRefused : Prop :=
  ∀ (s : State) (p len : Word), s.seq = .idle →
    (len = 0 → exec (.beginAsyncTransfer p len) s = .refused .emptyTransfer) ∧
    (len ≠ 0 → 2 ^ s.cfg.addrW ≤ p.toNat + len.toNat - 1 →
      exec (.beginAsyncTransfer p len) s = .refused .addressWrap)

/-- R131: with `DONE = 1` on entry `awaitCompletion` returns at once and writes nothing; with `DONE = 0` and no turn
for XFER the engine holds; while it holds an ENGINE turn does nothing; once `DONE = 1` it retires. Whose turn it is,
is the model's list (log 8); the staging slots are marked unwritten from acceptance on (10_state R26), their bytes as
before (log 31). -/
def Obligations.AwaitCompletionReturnsExactlyWhenDone : Prop :=
  (∀ s : State, s.seq = .idle → s.done = true →
    exec .awaitCompletion s = .next { s with
      stg := s.stg.map Slot.unwritten
      retired := s.retired + 1 }) ∧
  (∀ s : State, s.seq = .idle → s.done = false → XferWaits s →
    exec .awaitCompletion s = .next { s with
      stg := s.stg.map Slot.unwritten
      seq := .busy .awaitDirect }) ∧
  (∀ s : State, (s.seq = .busy .awaitDirect ∨ ∃ op, s.seq = .busy (.awaitChunk op)) → s.done = false → EngineActs s →
    step s = .next { s with turns := s.turns.tail }) ∧
  (∀ s : State, s.seq = .busy .awaitDirect → s.done = true → EngineActs s →
    step s = .next { s with turns := s.turns.tail, seq := .idle, retired := s.retired + 1 })

/-- R131, R136, R137, R135: a transfer in flight is carried to its end inside `awaitCompletion`: the bytes not yet
sent go out in order in the mode `DC` holds, then the record goes, the flag is 1 and the operation retires. XFER's
turns are merged into the step (log 9); one recorded read for each byte is log 17; the marks of the staging slots go, their
bytes stay (log 31). -/
def Obligations.AwaitCompletionCarriesTheTransferToItsEnd : Prop :=
  ∀ (s : State) (a : Nat) (sent : Nat) (img : List Byte) (rest : List Turn),
    s.seq = .idle → s.done = false → s.xfer = some ⟨.mem a, sent + img.length, sent⟩ →
    a + sent + img.length ≤ 2 ^ s.cfg.addrW → Holds s.mem (a + sent) img →
    XferTakes (img.length + 1) rest s →
    exec .awaitCompletion s = .next { s with
      stg := s.stg.map Slot.unwritten
      done := true
      xfer := none
      wire := s.wire ++ tagged s.dc img
      panel := (tagged s.dc img).foldl (Panel.receive s.cfg) s.panel
      transfers := s.transfers ++ [.completed]
      reads := s.reads ++ (List.range img.length).map (a + sent + ·)
      turns := rest
      retired := s.retired + 1 }

/-- R136: the emit step sends the next byte of the source in the mode `DC` holds and counts it, whether or not an
operation is in progress. A source byte HOST has not placed has no step (R53): the fault of log 5. The record of the
read is the model's (log 17). -/
def Obligations.XferEmitsOneByte : Prop :=
  ∀ (s : State) (ts : List Turn) (len sent : Nat), s.turns = .xfer :: ts → sent < len →
    (∀ b, s.xfer = some ⟨.staging, len, sent⟩ → stagingByte s.stg sent = some b →
      step s = .next { s with
        turns := ts
        xfer := some ⟨.staging, len, sent + 1⟩
        wire := s.wire ++ [⟨s.dc, b⟩]
        panel := s.panel.receive s.cfg ⟨s.dc, b⟩ }) ∧
    (∀ a b, s.xfer = some ⟨.mem a, len, sent⟩ → a + sent < 2 ^ s.cfg.addrW →
      Memory.read s.mem (a + sent) = some b →
      step s = .next { s with
        turns := ts
        xfer := some ⟨.mem a, len, sent + 1⟩
        wire := s.wire ++ [⟨s.dc, b⟩]
        panel := s.panel.receive s.cfg ⟨s.dc, b⟩
        reads := s.reads ++ [a + sent] }) ∧
    (∀ a, s.xfer = some ⟨.mem a, len, sent⟩ → a + sent < 2 ^ s.cfg.addrW → Memory.read s.mem (a + sent) = none →
      step s = .fault .unplacedSourceRead)

/-- R137, R138, R208: with all bytes sent the completion step removes the record and sets `DONE`, and writes nothing
else of the engine; with no transfer in flight XFER has no step. That the notification comes exactly once is the
assumption of log 18. -/
def Obligations.XferCompletesOnceAfterTheLastByte : Prop :=
  (∀ (s : State) (ts : List Turn) (src : Source) (len : Nat), s.turns = .xfer :: ts →
    s.xfer = some ⟨src, len, len⟩ →
    step s = .next { s with
      turns := ts
      xfer := none
      done := true
      transfers := s.transfers ++ [.completed] }) ∧
  (∀ (s : State) (ts : List Turn), s.turns = .xfer :: ts → s.xfer = none →
    step s = .next { s with turns := ts })

/-- R136 (the merging it allows), log 9: the turns XFER takes while an operation holds inside one step are as many
single steps of the machine, one turn each. -/
def Obligations.MergedXferTurnsAreSingleSteps : Prop :=
  ∀ s t : State, xferTurns s.turns s = .next t →
    ∃ k, s.turns = List.replicate k .xfer ++ t.turns ∧ Host.Core.run Sys2Proof.core k s = .next t ∧
      (t.done = true ∨ ∀ ts, t.turns ≠ .xfer :: ts)

/-! ### Streaming operations -/

/-- R155 (i) to (iii), R53: a rectangle without extent or past coordinate 65535 is refused, and so is a source range
that passes the top of the address space. That this is so with a transfer in flight too, where R155 (iv), R115 and R232 give
a valid request the fault `BusConflict`, is the model's order of the two tests (log 16). -/
def Obligations.DegenerateRectanglesAndRangesAreRefused : Prop :=
  ∀ (s : State) (x y w h : Half) (p : Word) (c fg bg : Half), s.seq = .idle →
    (w.toNat = 0 ∨ h.toNat = 0 ∨ 65535 < x.toNat + w.toNat - 1 ∨ 65535 < y.toNat + h.toNat - 1 →
      exec (.fillRectangle x y w h c) s = .refused .badRectangle ∧
      exec (.drawColourBitmap x y w h p) s = .refused .badRectangle ∧
      exec (.drawMonoBitmap x y w h p fg bg) s = .refused .badRectangle) ∧
    (1 ≤ w.toNat → 1 ≤ h.toNat → x.toNat + w.toNat - 1 ≤ 65535 → y.toNat + h.toNat - 1 ≤ 65535 →
      (2 ^ s.cfg.addrW ≤ p.toNat + w.toNat * h.toNat * 2 - 1 →
        exec (.drawColourBitmap x y w h p) s = .refused .addressWrap) ∧
      (2 ^ s.cfg.addrW ≤ p.toNat + h.toNat * ((w.toNat + 7) / 8) - 1 →
        exec (.drawMonoBitmap x y w h p fg bg) s = .refused .addressWrap))

/-- R152, R154: with XFER's turns the fill runs to its end: the window, then `w*h` times the colour, in chunks of
`NB` bytes from the buffer that was filled once; nothing is left in flight. XFER's turns are merged into the step
(log 9). -/
def Obligations.FillRectangleResult : Prop :=
  ∀ (s : State) (x y w h c : Half) (rest : List Turn), s.cfg.wf = true → Ready s →
    rectangleFits x y w h = true → NoSyncTimeout 11 s →
    XferTakes (streamTurns s.cfg.nb (totalBytes w h)) rest s →
    let es := windowEvents s.cfg x y (endCoord x w) (endCoord y h) ++
      pixelEvents (List.replicate (totalPixels w h) c)
    exec (.fillRectangle x y w h c) s = .next { s with
      ops := { s.ops with x := x, y := y, w := w, h := h, c0 := c }
      stg := List.replicate s.cfg.n (slotOf c)
      rem := 0
      dc := .data
      wire := s.wire ++ es
      panel := es.foldl (Panel.receive s.cfg) s.panel
      transfers := s.transfers ++ chunkEvents (fun _ => .staging) s.cfg.nb (totalBytes w h)
      turns := rest
      draws := s.draws + 11
      retired := s.retired + 1 }

/-- R165, R166: the colour blit sends the image's bytes in ascending order, unchanged, in chunks of `NB` bytes taken
from the image itself; the staging buffer is not written: its bytes stay, and its slots are marked unwritten from
acceptance on (10_state R26; log 31). XFER's turns are merged into the step (log 9); one read for each byte (log 17). -/
def Obligations.DrawColourBitmapResult : Prop :=
  ∀ (s : State) (x y w h : Half) (p : Word) (img : List Byte) (rest : List Turn), s.cfg.wf = true → Ready s →
    rectangleFits x y w h = true → img.length = totalBytes w h → p.toNat + img.length ≤ 2 ^ s.cfg.addrW →
    Holds s.mem p.toNat img → NoSyncTimeout 11 s → XferTakes (streamTurns s.cfg.nb img.length) rest s →
    let es := windowEvents s.cfg x y (endCoord x w) (endCoord y h) ++ tagged .data img
    exec (.drawColourBitmap x y w h p) s = .next { s with
      ops := { s.ops with x := x, y := y, w := w, h := h, ptr := p }
      stg := s.stg.map Slot.unwritten
      rem := 0
      off := img.length
      dc := .data
      wire := s.wire ++ es
      panel := es.foldl (Panel.receive s.cfg) s.panel
      transfers := s.transfers ++ chunkEvents (fun j => .mem (p.toNat + j * s.cfg.nb)) s.cfg.nb img.length
      reads := s.reads ++ (List.range img.length).map (p.toNat + ·)
      turns := rest
      draws := s.draws + 11
      retired := s.retired + 1 }

/-- R167, R168, R170, R171, R173: the mono blit sends the colours of the closed form, whatever the buffer's
capacity, from a buffer of `N` slots; it reads the bytes of the bitmap, each at least once and no other address (one read a pixel: log 17), and
the cursor ends one past them. What the staging buffer and `CNT` hold at the end is dead (10_state R26, R31). XFER's
turns are merged into the step (log 9). -/
def Obligations.DrawMonoBitmapResult : Prop :=
  ∀ (s : State) (x y w h : Half) (p : Word) (fg bg : Half) (img : List Byte) (rest : List Turn),
    s.cfg.wf = true → Ready s → StagingSized s → rectangleFits x y w h = true → img.length = monoBytes w h →
    p.toNat + img.length ≤ 2 ^ s.cfg.addrW → Holds s.mem p.toNat img → NoSyncTimeout 11 s →
    XferTakes (streamTurns s.cfg.nb (totalBytes w h)) rest s →
    let es := windowEvents s.cfg x y (endCoord x w) (endCoord y h) ++
      pixelEvents ((List.range (totalPixels w h)).map (monoColour w fg bg img))
    ∃ stg cnt, exec (.drawMonoBitmap x y w h p fg bg) s = .next { s with
      ops := { s.ops with x := x, y := y, w := w, h := h, ptr := p, c0 := fg, c1 := bg }
      stg := stg
      cnt := cnt
      cursor := ⟨p.toNat + img.length, 0x80, 0⟩
      rem := 0
      dc := .data
      wire := s.wire ++ es
      panel := es.foldl (Panel.receive s.cfg) s.panel
      transfers := s.transfers ++ chunkEvents (fun _ => .staging) s.cfg.nb (totalBytes w h)
      reads := s.reads ++ (List.range (totalPixels w h)).map (fun k => p.toNat + monoOffset w k)
      turns := rest
      draws := s.draws + 11
      retired := s.retired + 1 }

/-- R171: the addresses of the closed form are exactly those of the bitmap's `H*ceil(W/8)` bytes. -/
def Obligations.ClosedFormAddressesAreTheBitmapsBytes : Prop :=
  ∀ (w h : Half), 1 ≤ w.toNat → ∀ j : Nat,
    (∃ k < totalPixels w h, monoOffset w k = j) ↔ j < monoBytes w h

/-- R168, R169: one pixel. With exactly one bit of the mask set, the byte pointer moves on exactly when the mask was
at bit 0 or the row ends, never twice, and the colour is `bgColour` for a 1 bit. The record of the read is the
model's (log 17). -/
def Obligations.UnpackOneAdvancesTheCursor : Prop :=
  ∀ (s : State) (i : Nat) (b : Byte) (k : Nat), k < 8 → s.cursor.mask = (0x80 : Byte) >>> k →
    s.cursor.p < 2 ^ s.cfg.addrW → Memory.read s.mem s.cursor.p = some b →
    let rowEnd : Bool := s.cursor.col + 1 = s.ops.w.toNat
    let next : Bool := k = 7 || rowEnd
    unpackOne i s = .next { s with
      stg := s.stg.set i (slotOf (if b.getLsbD (7 - k) then s.ops.c1 else s.ops.c0))
      cursor := ⟨if next then s.cursor.p + 1 else s.cursor.p,
                 if next then 0x80 else (0x80 : Byte) >>> (k + 1),
                 if rowEnd then 0 else s.cursor.col + 1⟩
      reads := s.reads ++ [s.cursor.p] }

/-- R173: the cursor after `k` pixels, in closed form. -/
def Obligations.CursorClosedForm : Prop :=
  ∀ (w : Half) (p k : Nat), 1 ≤ w.toNat →
    (advanceCursor w)^[k] ⟨p, 0x80, 0⟩ =
      ⟨p + monoOffset w k, (0x80 : Byte) >>> ((k % w.toNat) % 8), k % w.toNat⟩

/-- R94: the padding bits of a mono bitmap are never seen: two memories that hold bitmaps equal in every bit that is a
pixel give the same wire, and the same panel. XFER's turns are merged into the step (log 9). -/
def Obligations.PaddingBitsAreNeverSeen : Prop :=
  ∀ (s : State) (m' : List Host.Cell) (x y w h : Half) (p : Word) (fg bg : Half) (img img' : List Byte)
    (rest : List Turn),
    s.cfg.wf = true → Ready s → StagingSized s → rectangleFits x y w h = true →
    img.length = monoBytes w h → img'.length = monoBytes w h →
    p.toNat + img.length ≤ 2 ^ s.cfg.addrW → Holds s.mem p.toNat img → Holds m' p.toNat img' → SamePixels w h img img' →
    NoSyncTimeout 11 s → XferTakes (streamTurns s.cfg.nb (totalBytes w h)) rest s →
    ∃ t t', exec (.drawMonoBitmap x y w h p fg bg) s = .next t ∧
      exec (.drawMonoBitmap x y w h p fg bg) { s with mem := m' } = .next t' ∧ t'.wire = t.wire ∧ t'.panel = t.panel

/-- R131, R140, R203: where the next turn is not XFER's, a streaming operation holds in its first `awaitCompletion`: its
window is on the wire, its first chunk is in flight, and no byte of that chunk is on the wire: the hang is not excluded.
`fillRectangle` has filled every slot, `drawColourBitmap` read nothing, `drawMonoBitmap` unpacked the chunk's pixels and
left the cursor behind them. Whose turn it is, is the model's list (log 8); the record of the reads is log 17; a slot that
was not written since acceptance is marked so and has its bytes (log 31). -/
def Obligations.StreamingOperationsHoldWithoutXfer : Prop :=
  ∀ (s : State) (x y w h : Half), s.cfg.wf = true → Ready s → rectangleFits x y w h = true →
    NoSyncTimeout 11 s → XferWaits s →
    let es := windowEvents s.cfg x y (endCoord x w) (endCoord y h)
    let n := min (totalBytes w h) s.cfg.nb
    (∀ c, exec (.fillRectangle x y w h c) s = .next { s with
      ops := { s.ops with x := x, y := y, w := w, h := h, c0 := c }
      stg := List.replicate s.cfg.n (slotOf c)
      rem := totalBytes w h
      dc := .data
      wire := s.wire ++ es
      panel := es.foldl (Panel.receive s.cfg) s.panel
      transfers := s.transfers ++ [.begun .staging n]
      done := false
      xfer := some ⟨.staging, n, 0⟩
      seq := .busy (.awaitChunk .fill)
      draws := s.draws + 11 }) ∧
    (∀ p : Word, p.toNat + totalBytes w h ≤ 2 ^ s.cfg.addrW →
      exec (.drawColourBitmap x y w h p) s = .next { s with
        ops := { s.ops with x := x, y := y, w := w, h := h, ptr := p }
        stg := s.stg.map Slot.unwritten
        rem := totalBytes w h
        off := 0
        dc := .data
        wire := s.wire ++ es
        panel := es.foldl (Panel.receive s.cfg) s.panel
        transfers := s.transfers ++ [.begun (.mem p.toNat) n]
        done := false
        xfer := some ⟨.mem p.toNat, n, 0⟩
        seq := .busy (.awaitChunk .colour)
        draws := s.draws + 11 }) ∧
    (∀ (p : Word) (fg bg : Half) (img : List Byte), img.length = monoBytes w h →
      p.toNat + img.length ≤ 2 ^ s.cfg.addrW → Holds s.mem p.toNat img →
      let cnt := min (totalPixels w h) s.cfg.n
      exec (.drawMonoBitmap x y w h p fg bg) s = .next { s with
        ops := { s.ops with x := x, y := y, w := w, h := h, ptr := p, c0 := fg, c1 := bg }
        stg := s.stg.mapIdx fun j sl => if j < cnt then slotOf (monoColour w fg bg img j) else sl.unwritten
        cnt := cnt
        cursor := cursorAt w p.toNat cnt
        rem := totalPixels w h
        dc := .data
        wire := s.wire ++ es
        panel := es.foldl (Panel.receive s.cfg) s.panel
        transfers := s.transfers ++ [.begun .staging (2 * cnt)]
        reads := s.reads ++ (List.range cnt).map (fun k => p.toNat + monoOffset w k)
        done := false
        xfer := some ⟨.staging, 2 * cnt, 0⟩
        seq := .busy (.awaitChunk .mono)
        draws := s.draws + 11 })

/-- R131, R22, R152, R165, R167, R170: a streaming operation that held goes on where it held once its chunk has
completed: on ENGINE's turn it takes the chunk off `REM` and, with XFER's turns, sends what is left and retires; the
window, the pre-fill and what was sent are not repeated. `drawColourBitmap` goes on behind the chunk it awaited, at
`PTR + OFF`; `drawMonoBitmap` carries its cursor over the hold. Turns: logs 8, 9; reads: log 17. -/
def Obligations.HeldStreamsGoOnWhereTheyHeld : Prop :=
  (∀ (s : State) (px : Nat) (rest : List Turn), s.cfg.wf = true → s.seq = .busy (.awaitChunk .fill) →
    s.done = true → s.xfer = none → s.dc = .data → s.stg = List.replicate s.cfg.n (slotOf s.ops.c0) →
    s.rem - min s.rem s.cfg.nb = 2 * px →
    s.turns = .engine :: (List.replicate (streamTurns s.cfg.nb (2 * px)) .xfer ++ rest) →
    let es := pixelEvents (List.replicate px s.ops.c0)
    step s = .next { s with
      seq := .idle
      rem := 0
      wire := s.wire ++ es
      panel := es.foldl (Panel.receive s.cfg) s.panel
      transfers := s.transfers ++ chunkEvents (fun _ => .staging) s.cfg.nb (2 * px)
      turns := rest
      retired := s.retired + 1 }) ∧
  (∀ (s : State) (img : List Byte) (rest : List Turn), s.cfg.wf = true → s.seq = .busy (.awaitChunk .colour) →
    s.done = true → s.xfer = none → s.dc = .data →
    let off := s.off + min s.rem s.cfg.nb
    img.length = s.rem - min s.rem s.cfg.nb → s.ops.ptr.toNat + off + img.length ≤ 2 ^ s.cfg.addrW →
    Holds s.mem (s.ops.ptr.toNat + off) img →
    s.turns = .engine :: (List.replicate (streamTurns s.cfg.nb img.length) .xfer ++ rest) →
    let es := tagged .data img
    step s = .next { s with
      seq := .idle
      rem := 0
      off := off + img.length
      wire := s.wire ++ es
      panel := es.foldl (Panel.receive s.cfg) s.panel
      transfers := s.transfers ++
        chunkEvents (fun j => .mem (s.ops.ptr.toNat + off + j * s.cfg.nb)) s.cfg.nb img.length
      reads := s.reads ++ (List.range img.length).map (s.ops.ptr.toNat + off + ·)
      turns := rest
      retired := s.retired + 1 }) ∧
  (∀ (s : State) (k px : Nat) (img : List Byte) (rest : List Turn), s.cfg.wf = true →
    s.seq = .busy (.awaitChunk .mono) → s.done = true → s.xfer = none → s.dc = .data → s.stg.length = s.cfg.n →
    1 ≤ s.ops.w.toNat → s.rem - s.cnt = px → k + px = totalPixels s.ops.w s.ops.h →
    s.cursor = cursorAt s.ops.w s.ops.ptr.toNat k → img.length = monoBytes s.ops.w s.ops.h →
    s.ops.ptr.toNat + img.length ≤ 2 ^ s.cfg.addrW → Holds s.mem s.ops.ptr.toNat img →
    s.turns = .engine :: (List.replicate (streamTurns s.cfg.nb (2 * px)) .xfer ++ rest) →
    let es := pixelEvents ((List.range px).map fun j => monoColour s.ops.w s.ops.c0 s.ops.c1 img (k + j))
    ∃ stg cnt, step s = .next { s with
      seq := .idle
      stg := stg
      cnt := cnt
      cursor := ⟨s.ops.ptr.toNat + img.length, 0x80, 0⟩
      rem := 0
      wire := s.wire ++ es
      panel := es.foldl (Panel.receive s.cfg) s.panel
      transfers := s.transfers ++ chunkEvents (fun _ => .staging) s.cfg.nb (2 * px)
      reads := s.reads ++ (List.range px).map (fun j => s.ops.ptr.toNat + monoOffset s.ops.w (k + j))
      turns := rest
      retired := s.retired + 1 })

/-- R102, R153: the chunks of a stream: their number is the least that holds the total, each but the last is full, the
last holds the remainder, between 2 bytes and `NB`, and their lengths add up to the total. -/
def Obligations.ChunksCoverTheTotal : Prop :=
  ∀ (n pixels : Nat), 1 ≤ n → 1 ≤ pixels →
    let nb := 2 * n
    let total := 2 * pixels
    total ≤ chunkCount nb total * nb ∧ (chunkCount nb total - 1) * nb < total ∧
    (∀ j < chunkCount nb total - 1, chunkLength nb total j = nb) ∧
    (∀ j < chunkCount nb total,
      2 ≤ chunkLength nb total j ∧ chunkLength nb total j ≤ nb ∧ chunkLength nb total j % 2 = 0) ∧
    ((List.range (chunkCount nb total)).map (chunkLength nb total)).sum = total

/-! ### Formats -/

/-- R91: a Colour goes out as its high byte and then its low byte, both as data; a receiver that joins them recovers
it; swapping twice is the identity. -/
def Obligations.ColourRoundTrip : Prop :=
  ∀ c : Half, colourEvents c = [⟨.data, c.extractLsb' 8 8⟩, ⟨.data, c.extractLsb' 0 8⟩] ∧
    joinBytes (c.extractLsb' 8 8) (c.extractLsb' 0 8) = c ∧ bswap16 (bswap16 c) = c

/-- R27, R28: a slot holds its Colour in wire order, and writing one slot leaves every other byte alone. -/
def Obligations.SlotsHoldWireOrder : Prop :=
  ∀ (s : State) (i : Nat) (c : Half), i < s.stg.length →
    stagingByte (writeSlot i c s).stg (2 * i) = some (c.extractLsb' 8 8) ∧
    stagingByte (writeSlot i c s).stg (2 * i + 1) = some (c.extractLsb' 0 8) ∧
    (∀ k, k / 2 ≠ i → stagingByte (writeSlot i c s).stg k = stagingByte s.stg k)

/-! ### Reset and invariants -/

/-- R35, R220, R221: the state after reset, for any parameters and any value of `DC`; the model's reset state is one
of these. The default parameters are log 2, the value of `DC` log 3; what the elements R35 calls unwritten hold (log
4) is not stated here, that the staging slots are marked unwritten is. -/
def Obligations.ResetState : Prop :=
  (∀ (cfg : Config) (m : Mode),
    let s := State.resetWith cfg m
    s.seq = .idle ∧ s.done = true ∧ s.xfer = none ∧ StagingUnwritten s ∧ s.syncTimeout = false ∧
    s.dc = m ∧ s.cfg = cfg ∧ s.wire = [] ∧ s.transfers = [] ∧ Launch s) ∧
  (∃ m, Sys2Proof.core.reset = State.resetWith Config.default m)

/-- R36: the invariant holds after reset, for any parameters that meet R10. `Inv` has more clauses than R36: the
shapes of the state's parts (Safety.lean). -/
def Obligations.ResetMeetsTheInvariant : Prop :=
  ∀ (cfg : Config) (m : Mode), cfg.wf = true → Inv (State.resetWith cfg m)

/-- R36: every step keeps the invariant. `Inv` has more clauses than R36: the shapes of the state's parts
(Safety.lean). -/
def Obligations.StepKeepsTheInvariant : Prop :=
  ∀ s t : State, Inv s → step s = .next t → Inv t

/-- R26: under the invariant no step reads an unwritten staging slot. -/
def Obligations.NoStepReadsAnUnwrittenSlot : Prop :=
  ∀ s : State, Inv s → step s ≠ .fault .unwrittenStagingRead

/-- R132, R133, R224, R115, R155 (iv), R232, R190, R191: under the invariant the fault `XferOverlap` arises only in a step of
ENGINE that accepts, with `DONE = 0`, a `beginAsyncTransfer` whose length and range R134 allows, and `BusConflict` only in
one that accepts, with a transfer in flight, a request that uses the bus: no operation runs into either after its
acceptance. And in every state such a step, on either turn of ENGINE, is that fault. What uses the bus is `UsesBus`: every
operation but `awaitCompletion`, `beginAsyncTransfer` and an out-of-range `plotPixel`, with operands that are not refused,
the refusal being tested first (log 16). That `reset()` and `init()` need the free bus is log 15; that the flag and the bus
are tested where a request is accepted is logs 32 and 33. -/
def Obligations.MisuseOfTheBusFaultsAtTheRequest : Prop :=
  let overlaps (s : State) : Prop := s.done = false ∧ ∃ p len, Requests s (.beginAsyncTransfer p len) ∧
    len ≠ 0 ∧ p.toNat + len.toNat ≤ 2 ^ s.cfg.addrW
  let conflicts (s : State) : Prop := s.xfer ≠ none ∧ ∃ i, Requests s i ∧ UsesBus s.cfg i
  (∀ s : State, Inv s → step s = .fault .xferOverlap → overlaps s) ∧
  (∀ s : State, Inv s → step s = .fault .busConflict → conflicts s) ∧
  (∀ s : State, overlaps s → step s = .fault .xferOverlap) ∧
  (∀ s : State, conflicts s → step s = .fault .busConflict)

/-- R210: re-entry cannot be expressed: no step is the fault `Reentry`. An operation executed while another is in
progress would be. The fault is log 26. -/
def Obligations.ReentryCannotBeExpressed : Prop :=
  (∀ s : State, step s ≠ .fault .reentry) ∧
  (∀ (s : State) (pos : Position) (i : Instr), s.seq = .busy pos → exec i s = .fault .reentry)

/-- R29, R36 (iii): while a transfer from the staging buffer is in flight no step writes the buffer. -/
def Obligations.StagingIsStableWhileDraining : Prop :=
  ∀ (s t : State) (f : InFlight), Inv s → s.xfer = some f → f.src = .staging → step s = .next t → t.stg = s.stg

/-- R52: only HOST's own turn changes source memory: no operation and no other step does, and every byte reads as
before. -/
def Obligations.OnlyHostWritesSourceMemory : Prop :=
  (∀ (i : Instr) (s t : State), exec i s = .next t → t.mem = s.mem ∧ ∀ a, Memory.read t.mem a = Memory.read s.mem a) ∧
  (∀ s t : State, (∀ a b ts, s.turns ≠ .hostWrite a b :: ts) → step s = .next t → t.mem = s.mem)

/-- R72, R139, R228: a HOST write to a byte that the operation in progress reads, from its acceptance on, or the transfer
in flight reads, is the fault `InFlightMutation`; any other changes that byte alone. The fault ends the run (log 10); an address at or above
`2^ADDR_W` is another fault (log 25). -/
def Obligations.HostWritesAreKeptOutOfTheRangeInUse : Prop :=
  ∀ (s : State) (a : Word) (b : Byte) (ts : List Turn), s.turns = .hostWrite a b :: ts →
    a.toNat < 2 ^ s.cfg.addrW →
    let used : Prop :=
      (∃ pos, s.seq = .busy pos ∧ s.ops.ptr.toNat ≤ a.toNat ∧
        ((pos.stream = some .colour ∧ a.toNat < s.ops.ptr.toNat + totalBytes s.ops.w s.ops.h) ∨
         (pos.stream = some .mono ∧ a.toNat < s.ops.ptr.toNat + monoBytes s.ops.w s.ops.h) ∨
         (pos.stream = none ∧ pos.beginsDirect = true ∧ a.toNat < s.ops.ptr.toNat + s.ops.len.toNat))) ∨
      (∃ p len sent, s.xfer = some ⟨.mem p, len, sent⟩ ∧ p ≤ a.toNat ∧ a.toNat < p + len)
    (used → step s = .fault .inFlightMutation) ∧
    (¬ used → step s = .next { s with turns := ts, mem := Memory.write s.mem a.toNat b } ∧
      (MemoryCanonical s → Memory.read (Memory.write s.mem a.toNat b) a.toNat = some b ∧
        ∀ a', a' ≠ a.toNat → Memory.read (Memory.write s.mem a.toNat b) a' = Memory.read s.mem a'))

/-- R58, R32, R10: in every step the wire trace only grows at its end, the mark `SyncTimeout` once set stays set, and
the parameters do not change. R8, 92 D1: a primitive turn of ENGINE is one action: it writes `DC`, or puts the bytes of
one synchronous transmit on the wire in the mode `DC` held, or writes the flag, and it retires at most one operation. The
draws are numbered by the model (log 6). -/
def Obligations.StepsGrowTheTraceAndPrimitivesAreSingleActions : Prop :=
  (∀ s t : State, step s = .next t →
    s.wire <+: t.wire ∧ (s.syncTimeout = true → t.syncTimeout = true) ∧ t.cfg = s.cfg) ∧
  (∀ s t : State, PrimitiveMoves s → step s = .next t →
    (t.dc ≠ s.dc → t.wire = s.wire ∧ t.done = s.done) ∧
    (t.done ≠ s.done → t.wire = s.wire ∧ t.dc = s.dc) ∧
    (t.wire ≠ s.wire → t.draws = s.draws + 1 ∧ ∃ bs, t.wire = s.wire ++ tagged s.dc bs) ∧
    t.draws ≤ s.draws + 1 ∧ t.retired ≤ s.retired + 1)

/-- R23: the flag goes from false to true only in a step in which a transfer completes, and from true to false only in
one in which a transfer begins; the transfer events only grow. -/
def Obligations.FlagFollowsTheTransferEvents : Prop :=
  ∀ s t : State, step s = .next t →
    ∃ es, t.transfers = s.transfers ++ es ∧
      (s.done = false → t.done = true → XferEvent.completed ∈ es) ∧
      (s.done = true → t.done = false → ∃ src len, XferEvent.begun src len ∈ es)

/-! ### Frames: what an operation leaves unchanged whenever it answers a next state -/

/-- R110, R111, R120, R150, R190, R191: the operations without a transfer change only their own latches, the marks of the
staging slots (unwritten from acceptance on; the bytes stay), `DC`, the wire, the panel, the mark, the draws and the count
of retirements. The panel is the sink of the wire (log 11). That the marks go and the bytes stay is log 31. -/
def Obligations.FrameOfOperationsWithoutTransfer : Prop :=
  ∀ (i : Instr) (s t : State), exec i s = .next t →
    (∀ (load : Latches → Latches),
      ((∃ b, i = .sendCommand b ∧ load = fun o => { o with arg := b }) ∨
       (∃ b, i = .sendDataByte b ∧ load = fun o => { o with arg := b }) ∨
       (∃ a b c d, i = .setWindow a b c d ∧ load = fun o => { o with x := a, y := b, w := c, h := d }) ∨
       (∃ x y c, i = .plotPixel x y c ∧ load = fun o => { o with x := x, y := y, c0 := c }) ∨
       (i = .reset ∧ load = id) ∨ (i = .init ∧ load = id)) →
      t = { s with
        ops := load s.ops
        stg := s.stg.map Slot.unwritten
        dc := t.dc
        wire := t.wire
        panel := t.panel
        syncTimeout := t.syncTimeout
        draws := t.draws
        retired := s.retired + 1 })

/-- R130, R131: the transfer control operations change their own latches, the staging slots' marks (unwritten), the flag,
the record, the transfer events and the phase; `awaitCompletion` in addition what XFER's turns change: the wire, the
panel, the reads and the turns. Neither writes `DC` or the mark. XFER's turns are merged (log 9); that the slots' marks go and the bytes stay is log 31. -/
def Obligations.FrameOfTransferControl : Prop :=
  (∀ (p len : Word) (s t : State), exec (.beginAsyncTransfer p len) s = .next t →
    t = { s with
      ops := { s.ops with ptr := p, len := len }
      stg := s.stg.map Slot.unwritten
      done := false
      xfer := some ⟨.mem p.toNat, len.toNat, 0⟩
      transfers := s.transfers ++ [.begun (.mem p.toNat) len.toNat]
      retired := s.retired + 1 }) ∧
  (∀ s t : State, exec .awaitCompletion s = .next t →
    t = { s with
      stg := s.stg.map Slot.unwritten
      seq := t.seq
      done := t.done
      xfer := t.xfer
      wire := t.wire
      panel := t.panel
      transfers := t.transfers
      reads := t.reads
      turns := t.turns
      retired := t.retired })

/-- R152, R165, R167: what the streaming operations leave unchanged, whether they retire or hold, and whatever the
bus answers: each other's counters, the mono cursor but for `drawMonoBitmap`, source memory, the requests, the
parameters; `drawColourBitmap` leaves every staging slot unwritten, its bytes as before (log 31). `DC` ends at `Data`. XFER's turns are merged
(log 9). -/
def Obligations.FrameOfStreamingOperations : Prop :=
  (∀ (x y w h c : Half) (s t : State), exec (.fillRectangle x y w h c) s = .next t →
    t = { s with
      ops := { s.ops with x := x, y := y, w := w, h := h, c0 := c }
      stg := List.replicate s.cfg.n (slotOf c)
      dc := .data
      rem := t.rem, seq := t.seq, done := t.done, xfer := t.xfer, wire := t.wire, panel := t.panel
      transfers := t.transfers, turns := t.turns, syncTimeout := t.syncTimeout
      draws := s.draws + 11
      retired := t.retired }) ∧
  (∀ (x y w h : Half) (p : Word) (s t : State), exec (.drawColourBitmap x y w h p) s = .next t →
    t = { s with
      ops := { s.ops with x := x, y := y, w := w, h := h, ptr := p }
      stg := s.stg.map Slot.unwritten
      dc := .data
      rem := t.rem, off := t.off, seq := t.seq, done := t.done, xfer := t.xfer, wire := t.wire, panel := t.panel
      transfers := t.transfers, reads := t.reads, turns := t.turns, syncTimeout := t.syncTimeout
      draws := s.draws + 11
      retired := t.retired }) ∧
  (∀ (x y w h : Half) (p : Word) (fg bg : Half) (s t : State), exec (.drawMonoBitmap x y w h p fg bg) s = .next t →
    t = { s with
      ops := { s.ops with x := x, y := y, w := w, h := h, ptr := p, c0 := fg, c1 := bg }
      stg := t.stg
      dc := .data
      rem := t.rem, cnt := t.cnt, cursor := t.cursor, seq := t.seq, done := t.done, xfer := t.xfer, wire := t.wire
      panel := t.panel, transfers := t.transfers, reads := t.reads, turns := t.turns, syncTimeout := t.syncTimeout
      draws := s.draws + 11
      retired := t.retired })

/-! ### The panel -/

/-- R61, R62, R63: the events of `setWindow` with a window on the panel set the four window registers of a ready panel,
put the cursor on the first pixel and open the pixel stream, whatever frame came before. Where that frame was finished
frame memory is as before; an unfinished one leaves its pixels open. The panel is an external contract, modelled as
logs 11 and 29 say. -/
def Obligations.PanelTakesTheWindow : Prop :=
  ∀ (cfg : Config) (p : Panel) (xs ys xe ye : Half), cfg.codesDistinct = true → p.ready = true →
    xs.toNat ≤ xe.toNat → xe.toNat < cfg.panelWidth → ys.toNat ≤ ye.toNat → ye.toNat < cfg.panelHeight →
    (windowEvents cfg xs ys xe ye).foldl (Panel.receive cfg) p =
      { (if p.midFrame cfg then p.lose else p) with
        xs := xs, xe := xe, ys := ys, ye := ye
        cursor := (xs.toNat, ys.toNat)
        cmd := cfg.cmdRamwr
        inFrame := true
        params := []
        latch := none }

/-- R64, R123: after `setWindow` pixel `k` of a stream lands at column `xs + k mod width`, row `ys + k div width`, for
as many pixels as the window holds, whatever frame came before it; where that frame was finished every other pixel is
as before. The panel is an external contract, modelled as logs 11 and 29 say. -/
def Obligations.PanelPlacesTheStreamInRowMajorOrder : Prop :=
  ∀ (cfg : Config) (p : Panel) (xs ys xe ye : Half) (cs : List Half), cfg.codesDistinct = true →
    p.ready = true → rising p.gram = true →
    xs.toNat ≤ xe.toNat → xe.toNat < cfg.panelWidth → ys.toNat ≤ ye.toNat → ye.toNat < cfg.panelHeight →
    let width := xe.toNat - xs.toNat + 1
    let height := ye.toNat - ys.toNat + 1
    cs.length ≤ width * height →
    let q := (windowEvents cfg xs ys xe ye ++ pixelEvents cs).foldl (Panel.receive cfg) p
    q.ready = true ∧ q.midFrame cfg = false ∧
    (∀ k (hk : k < cs.length), q.pixel (xs.toNat + k % width) (ys.toNat + k / width) = cs[k]) ∧
    (p.midFrame cfg = false → ∀ col row, col < 65536 →
      (∀ k < cs.length, ¬ (col = xs.toNat + k % width ∧ row = ys.toNat + k / width)) →
      q.pixel col row = p.pixel col row)

/-- R65, R66, 93 U8, U9, U21: the events outside the contract. On a ready panel these leave every register, the cursor,
every pixel and the receiver's index and latch at free values: a command the contract does not know; a data byte outside a frame; the fourth address
byte that completes an inverted window or one off the panel, of columns and of rows; a fifth address byte (log 11); a
pixel byte past the window, the first of its pair or the second; a pixel byte where the registers hold no window on the
panel. A command in the middle of a frame is
received as by a panel that has lost its values (log 11). Before `reset()` and then
`init()` every event leaves free values (logs 19, 29). -/
def Obligations.PanelIsUnspecifiedOutsideTheContract : Prop :=
  ∀ (cfg : Config) (p : Panel) (b : Byte),
    (p.ready = true → b ≠ cfg.cmdCaset → b ≠ cfg.cmdPaset → b ≠ cfg.cmdRamwr →
      LostTo p (p.receive cfg ⟨.command, b⟩)) ∧
    (p.ready = true → p.midFrame cfg = true → p.receive cfg ⟨.command, b⟩ = p.lose.receive cfg ⟨.command, b⟩) ∧
    (p.ready = true → p.inFrame = false → LostTo p (p.receive cfg ⟨.data, b⟩)) ∧
    (p.ready = true → cfg.codesDistinct = true → p.inFrame = true →
      (∀ b0 b1 b2, p.params = [b0, b1, b2] →
        (p.cmd = cfg.cmdCaset →
          (joinBytes b2 b).toNat < (joinBytes b0 b1).toNat ∨ cfg.panelWidth ≤ (joinBytes b2 b).toNat →
          LostTo p (p.receive cfg ⟨.data, b⟩)) ∧
        (p.cmd = cfg.cmdPaset →
          (joinBytes b2 b).toNat < (joinBytes b0 b1).toNat ∨ cfg.panelHeight ≤ (joinBytes b2 b).toNat →
          LostTo p (p.receive cfg ⟨.data, b⟩))) ∧
      ((p.cmd = cfg.cmdCaset ∨ p.cmd = cfg.cmdPaset) → p.params.length = 4 →
        LostTo p (p.receive cfg ⟨.data, b⟩)) ∧
      (p.cmd = cfg.cmdRamwr → (p.ye.toNat < p.cursor.2 ∨ p.windowValid cfg = false) →
        LostTo p (p.receive cfg ⟨.data, b⟩))) ∧
    (p.ready = false → ∀ m, LostTo p (p.receive cfg ⟨m, b⟩))

/-- R150, R64, V4.1: a plot in range on a ready panel draws its pixel, and no other where the frame before it was
finished. The panel is an external contract, modelled as logs 11 and 29 say. -/
def Obligations.PlotPixelDrawsItsPixel : Prop :=
  ∀ (s : State) (x y c : Half), s.cfg.wf = true → s.seq = .idle → s.xfer = none → NoSyncTimeout 12 s →
    s.cfg.codesDistinct = true → s.panel.ready = true → rising s.panel.gram = true →
    x.toNat < s.cfg.panelWidth → y.toNat < s.cfg.panelHeight →
    ∃ t, exec (.plotPixel x y c) s = .next t ∧ t.panel.pixel x.toNat y.toNat = c ∧
      (s.panel.midFrame s.cfg = false → ∀ col row, col < 65536 → ¬ (col = x.toNat ∧ row = y.toNat) →
        t.panel.pixel col row = s.panel.pixel col row)

/-- R152, R64: a fill of a rectangle on a ready panel, with XFER's turns, fills the rectangle, and changes no other
pixel where the frame before it was finished. The panel is an external contract, modelled as logs 11 and 29 say. -/
def Obligations.FillRectangleFillsItsRectangle : Prop :=
  ∀ (s : State) (x y w h c : Half) (rest : List Turn), s.cfg.wf = true → Ready s →
    rectangleFits x y w h = true → NoSyncTimeout 11 s →
    XferTakes (streamTurns s.cfg.nb (totalBytes w h)) rest s →
    s.cfg.codesDistinct = true → s.panel.ready = true → rising s.panel.gram = true →
    x.toNat + w.toNat ≤ s.cfg.panelWidth → y.toNat + h.toNat ≤ s.cfg.panelHeight →
    ∃ t, exec (.fillRectangle x y w h c) s = .next t ∧
      ∀ col row, col < 65536 →
        (x.toNat ≤ col ∧ col < x.toNat + w.toNat ∧ y.toNat ≤ row ∧ row < y.toNat + h.toNat →
          t.panel.pixel col row = c) ∧
        (¬ (x.toNat ≤ col ∧ col < x.toNat + w.toNat ∧ y.toNat ≤ row ∧ row < y.toNat + h.toNat) →
          s.panel.midFrame s.cfg = false → t.panel.pixel col row = s.panel.pixel col row)

/-- R170, 92 D9: what a mono blit puts on the wire does not depend on the capacity of the staging buffer. XFER's
turns are given to both runs (log 9). -/
def Obligations.MonoWireIsIndependentOfCapacity : Prop :=
  ∀ (s : State) (x y w h : Half) (p : Word) (fg bg : Half) (img : List Byte) (n' : Nat) (stg' : List Slot)
    (rest rest' : List Turn), s.cfg.wf = true → { s.cfg with n := n' }.wf = true → Ready s → StagingSized s →
    stg'.length = n' → rectangleFits x y w h = true →
    img.length = monoBytes w h → p.toNat + img.length ≤ 2 ^ s.cfg.addrW → Holds s.mem p.toNat img →
    NoSyncTimeout 11 s → XferTakes (streamTurns s.cfg.nb (totalBytes w h)) rest s →
    let s' := { s with
      cfg := { s.cfg with n := n' }
      stg := stg'
      turns := List.replicate (streamTurns (2 * n') (totalBytes w h)) .xfer ++ rest' }
    ∃ t t', exec (.drawMonoBitmap x y w h p fg bg) s = .next t ∧
      exec (.drawMonoBitmap x y w h p fg bg) s' = .next t' ∧ t'.wire = t.wire

/-! ### After a stream, and the frames of the panel one by one -/

/-- R154, R36 (iv): whenever a streaming operation ends with the engine idle, whatever turns it had, `DONE = 1` and
`XFER = None`: in the step that accepts it, and under the invariant in any step from a position inside it. -/
def Obligations.StreamingOperationsRetireWithNothingInFlight : Prop :=
  (∀ (i : Instr) (s t : State),
    ((∃ x y w h c, i = .fillRectangle x y w h c) ∨ (∃ x y w h p, i = .drawColourBitmap x y w h p) ∨
      (∃ x y w h p fg bg, i = .drawMonoBitmap x y w h p fg bg)) →
    exec i s = .next t → t.seq = .idle → t.done = true ∧ t.xfer = none) ∧
  (∀ (s t : State) (pos : Position) (op : Stream), Inv s → s.seq = .busy pos → pos.stream = some op →
    step s = .next t → t.seq = .idle → t.done = true ∧ t.xfer = none)

/-- R60, R61, R62, R63: a ready panel takes each frame whatever it received before: four bytes after the
column-address-set command set `XS` and `XE`, four after the row-address-set command `YS` and `YE`, and the memory-write
command puts the cursor on the window's first pixel, whatever the registers hold, and clears the latch. A panel ready or
not holds the last command byte it received. That an address frame has its
effect where its window is on the panel, and that an unfinished frame leaves the other values open, is log 11. -/
def Obligations.PanelTakesEachFrame : Prop :=
  (∀ (cfg : Config) (p : Panel) (b : Byte),
    (p.receive cfg ⟨.command, b⟩).cmd = b ∧ (p.receive cfg ⟨.data, b⟩).cmd = p.cmd) ∧
  ∀ (cfg : Config) (p : Panel) (b0 b1 b2 b3 : Byte), cfg.codesDistinct = true → p.ready = true →
    let start := joinBytes b0 b1
    let stop := joinBytes b2 b3
    let q : Panel := if p.midFrame cfg then p.lose else p
    (start.toNat ≤ stop.toNat → stop.toNat < cfg.panelWidth →
      (⟨.command, cfg.cmdCaset⟩ :: tagged .data [b0, b1, b2, b3]).foldl (Panel.receive cfg) p =
        { q with
          xs := start, xe := stop, cmd := cfg.cmdCaset, inFrame := true
          params := [b0, b1, b2, b3] }) ∧
    (start.toNat ≤ stop.toNat → stop.toNat < cfg.panelHeight →
      (⟨.command, cfg.cmdPaset⟩ :: tagged .data [b0, b1, b2, b3]).foldl (Panel.receive cfg) p =
        { q with
          ys := start, ye := stop, cmd := cfg.cmdPaset, inFrame := true
          params := [b0, b1, b2, b3] }) ∧
    p.receive cfg ⟨.command, cfg.cmdRamwr⟩ =
      { q with
        cursor := (q.xs.toNat, q.ys.toNat), cmd := cfg.cmdRamwr, inFrame := true, params := [], latch := none }

/-! ### The step of one primitive -/

/-- R8, R14, R22, R136, 92 D1: a turn in which ENGINE goes to its next hold or retirement is a run of single steps, each
one primitive action of ENGINE or one step of XFER, that ends in the same state, XFER's steps being those of the turns
used. How the steps are merged is log 9. -/
def Obligations.EngineTurnsAreRunsOfPrimitives : Prop :=
  ∀ s t : State, s.cfg.wf = true → EngineMoves s → step s = .next t →
    ∃ us : List Turn, (∀ u ∈ us, u = .primitive ∨ u = .xfer) ∧
      s.turns.tail = List.replicate (us.count .xfer) .xfer ++ t.turns ∧
      Host.Core.run Sys2Proof.core us.length { s with turns := us ++ t.turns } = .next t
end

