-- ==== Sys2Proof/Laws/Chunks.lean ====
section
/-! SUPPORT. Chunks: the recursions of their count and events, the bytes of a list of Colours, and staging slots. -/

namespace Sys2Proof.Machine

theorem sub_min_eq (nb total : Nat) : total - min nb total = total - nb := by omega

@[simp] theorem chunkCount_zero {nb : Nat} (h : 1 ≤ nb) : chunkCount nb 0 = 0 := by
  unfold chunkCount; exact Nat.div_eq_of_lt (by omega)

theorem chunkCount_step {nb total : Nat} (h : 1 ≤ nb) (ht : 1 ≤ total) :
    chunkCount nb total = chunkCount nb (total - nb) + 1 := by
  unfold chunkCount
  rcases Nat.lt_or_ge total nb with hl | hg
  · have e : total - nb = 0 := by omega
    rw [e, Nat.div_eq_of_lt (by omega : 0 + nb - 1 < nb)]
    exact Nat.div_eq_of_lt_le (by omega) (by omega)
  · have : total + nb - 1 = (total - nb + nb - 1) + nb := by omega
    rw [this, Nat.add_div_right _ (by omega)]

theorem chunkLength_succ (nb total j : Nat) : chunkLength nb total (j + 1) = chunkLength nb (total - nb) j := by
  unfold chunkLength; rw [Nat.succ_mul]; congr 1; omega

@[simp] theorem chunkEvents_zero {nb : Nat} (src : Nat → Source) (h : 1 ≤ nb) : chunkEvents src nb 0 = [] := by
  simp [chunkEvents, h]

theorem chunkEvents_step {nb total : Nat} (src : Nat → Source) (h : 1 ≤ nb) (ht : 1 ≤ total) :
    chunkEvents src nb total =
      .begun (src 0) (min nb total) :: .completed :: chunkEvents (fun j => src (j + 1)) nb (total - nb) := by
  simp only [chunkEvents, chunkCount_step h ht, List.range_succ_eq_map, List.flatMap_cons, List.flatMap_map,
    Nat.succ_eq_add_one, chunkLength_succ]
  simp [chunkLength]

theorem streamTurns_step {nb total : Nat} (h : 1 ≤ nb) (ht : 1 ≤ total) :
    streamTurns nb total = (min nb total + 1) + streamTurns nb (total - nb) := by
  unfold streamTurns; rw [chunkCount_step h ht]; omega

@[simp] theorem streamTurns_zero {nb : Nat} (h : 1 ≤ nb) : streamTurns nb 0 = 0 := by simp [streamTurns, h]

/-- The bytes of a list of Colours in wire order. -/
def colourBytes (cs : List Half) : List Byte := cs.flatMap fun c => [hi8 c, lo8 c]

@[simp] theorem colourBytes_nil : colourBytes [] = [] := rfl
@[simp] theorem colourBytes_cons (c : Half) (cs : List Half) :
    colourBytes (c :: cs) = hi8 c :: lo8 c :: colourBytes cs := rfl

@[simp] theorem length_colourBytes (cs : List Half) : (colourBytes cs).length = 2 * cs.length := by
  induction cs with
  | nil => rfl
  | cons c cs ih => simp [ih]; omega

theorem colourBytes_append (cs ds : List Half) : colourBytes (cs ++ ds) = colourBytes cs ++ colourBytes ds := by
  simp [colourBytes]

theorem pixelEvents_eq_tagged (cs : List Half) : pixelEvents cs = tagged .data (colourBytes cs) := by
  induction cs with
  | nil => rfl
  | cons c cs ih =>
    have : pixelEvents (c :: cs) = ⟨.data, hi8 c⟩ :: ⟨.data, lo8 c⟩ :: pixelEvents cs := rfl
    rw [this, ih]; rfl

theorem pixelEvents_append (cs ds : List Half) : pixelEvents (cs ++ ds) = pixelEvents cs ++ pixelEvents ds := by
  simp [pixelEvents]

theorem getElem_colourBytes (cs : List Half) (j : Nat) (h : j < (colourBytes cs).length) :
    (colourBytes cs)[j] =
      if j % 2 = 0 then hi8 (cs[j / 2]'(by simp at h; omega)) else lo8 (cs[j / 2]'(by simp at h; omega)) := by
  induction cs generalizing j with
  | nil => simp at h
  | cons c cs ih =>
    match j with
    | 0 => simp
    | 1 => simp
    | j + 2 =>
      have hh : j < (colourBytes cs).length := by simp at h ⊢; omega
      have := ih j hh
      simp only [colourBytes_cons, List.getElem_cons_succ]
      rw [this]
      have h1 : (j + 2) % 2 = j % 2 := by omega
      have h2 : (j + 2) / 2 = j / 2 + 1 := by omega
      simp only [h1, h2, List.getElem_cons_succ]

/-- A written slot's bytes. -/
theorem stagingByte_of_slot {stg : List Slot} {k : Nat} {c : Half} (h : stg[k / 2]? = some (slotOf c)) :
    stagingByte stg k = some (if k % 2 = 0 then hi8 c else lo8 c) := by
  unfold stagingByte; rw [h]; rfl

/-- No byte of a buffer whose slots are all unwritten can be read (10_state R26). -/
theorem stagingByte_unwritten (stg : List Slot) (k : Nat) : stagingByte (stg.map Slot.unwritten) k = none := by
  unfold stagingByte
  rw [List.getElem?_map]
  cases stg[k / 2]? <;> rfl

/-- Colours written to consecutive slots from slot `i` on. -/
def setSlots : List Half → Nat → List Slot → List Slot
  | [], _, stg => stg
  | c :: cs, i, stg => setSlots cs (i + 1) (stg.set i (slotOf c))

@[simp] theorem length_setSlots (cs : List Half) (i : Nat) (stg : List Slot) :
    (setSlots cs i stg).length = stg.length := by
  induction cs generalizing i stg with
  | nil => rfl
  | cons c cs ih => simp [setSlots, ih]

theorem getElem?_setSlots_below (cs : List Half) (i k : Nat) (stg : List Slot) (hk : k < i) :
    (setSlots cs i stg)[k]? = stg[k]? := by
  induction cs generalizing i stg with
  | nil => rfl
  | cons c cs ih =>
    rw [setSlots, ih _ _ (by omega), List.getElem?_set_ne (by omega)]

theorem getElem?_setSlots (cs : List Half) (i k : Nat) (stg : List Slot) (hk : k < cs.length)
    (hb : i + cs.length ≤ stg.length) : (setSlots cs i stg)[i + k]? = some (slotOf cs[k]) := by
  induction cs generalizing i k stg with
  | nil => simp at hk
  | cons c cs ih =>
    simp only [List.length_cons] at hk hb
    rw [setSlots]
    match k with
    | 0 =>
      rw [getElem?_setSlots_below _ _ _ _ (by omega), Nat.add_zero, List.getElem?_set_self (by omega)]
      rfl
    | k + 1 =>
      have := ih (i + 1) k (stg.set i (slotOf c)) (by omega) (by simp; omega)
      rw [show i + (k + 1) = i + 1 + k by omega, this]
      rfl

/-- Slot by slot: those from slot 0 on hold the colours, every other is as before. -/
theorem setSlots_eq_mapIdx (cs : List Half) (stg : List Slot) :
    setSlots cs 0 stg = stg.mapIdx fun j sl => (cs[j]?.map slotOf).getD sl := by
  have key : ∀ (cs : List Half) (i : Nat) (stg : List Slot),
      setSlots cs i stg = stg.mapIdx fun j sl => if i ≤ j then (cs[j - i]?.map slotOf).getD sl else sl := by
    intro cs
    induction cs with
    | nil => intro i stg; exact List.ext_getElem (by simp [setSlots]) fun j _ _ => (by simp [setSlots])
    | cons c cs ih =>
      intro i stg
      rw [setSlots, ih]
      refine List.ext_getElem (by simp) fun j h1 h2 => ?_
      simp only [List.getElem_mapIdx, List.getElem_set]
      rcases Nat.lt_trichotomy i j with hj | rfl | hj
      · simp [show ¬ i = j by omega, hj, Nat.le_of_lt hj, show j - i = (j - (i + 1)) + 1 by omega]
      · simp
      · simp [show ¬ i = j by omega, show ¬ i < j by omega, show ¬ i ≤ j by omega]
  simpa using key cs 0 stg

end Sys2Proof.Machine
end

