-- ==== Sys2Proof/Laws/Decode.lean ====
section
/-! SUPPORT. The fields of a descriptor that `pack` lays out (30_encoding R82). -/

namespace Sys2Proof

section
variable (opc arg : Byte) (x y w h : Half) (ptr top : Word)

/-- Bit `i` of a packed descriptor, field by field. -/
theorem getLsbD_pack (i : Nat) : (pack opc arg x y w h ptr top).getLsbD i =
    if i < 8 then opc.getLsbD i
    else if i < 16 then arg.getLsbD (i - 8)
    else if i < 32 then false
    else if i < 48 then x.getLsbD (i - 32)
    else if i < 64 then y.getLsbD (i - 48)
    else if i < 80 then w.getLsbD (i - 64)
    else if i < 96 then h.getLsbD (i - 80)
    else if i < 128 then ptr.getLsbD (i - 96)
    else top.getLsbD (i - 128) := by
  refine (BitVec.getLsbD_append (x := top ++ ptr ++ h ++ w ++ y ++ x ++ (0 : Half) ++ arg) (y := opc) (i := i)).trans ?_
  simp only [BitVec.getLsbD_append, Nat.sub_sub]
  rcases Nat.lt_or_ge i 64 with hi | hi
  · rcases Nat.lt_or_ge i 32 with hj | hj
    · rcases Nat.lt_or_ge i 8 with hk | hk <;> rcases Nat.lt_or_ge i 16 with hl | hl <;>
        simp (disch := omega) [if_pos, if_neg]
    · rcases Nat.lt_or_ge i 48 with hk | hk <;> simp (disch := omega) [if_pos, if_neg]
  · rcases Nat.lt_or_ge i 96 with hj | hj
    · rcases Nat.lt_or_ge i 80 with hk | hk <;> simp (disch := omega) [if_pos, if_neg]
    · rcases Nat.lt_or_ge i 128 with hk | hk <;> simp (disch := omega) [if_pos, if_neg]

/-- A field of a packed descriptor: its bits are those the layout puts there. -/
theorem extract_pack (lo n : Nat) (v : BitVec n)
    (hv : ∀ i < n, (pack opc arg x y w h ptr top).getLsbD (lo + i) = v.getLsbD i) :
    (pack opc arg x y w h ptr top).extractLsb' lo n = v := by
  apply BitVec.eq_of_getLsbD_eq
  intro i hi
  rw [BitVec.getLsbD_extractLsb', hv i hi]; simp [hi]

@[simp] theorem opcField_pack : opcField (pack opc arg x y w h ptr top) = opc :=
  extract_pack opc arg x y w h ptr top _ _ _ fun i hi => by
    rw [getLsbD_pack]; simp (disch := omega) only [if_pos, Nat.zero_add]

@[simp] theorem argField_pack : argField (pack opc arg x y w h ptr top) = arg :=
  extract_pack opc arg x y w h ptr top _ _ _ fun i hi => by
    rw [getLsbD_pack]; simp (disch := omega) only [if_pos, if_neg, Nat.add_sub_cancel_left]

@[simp] theorem rsvField_pack : rsvField (pack opc arg x y w h ptr top) = 0 :=
  extract_pack opc arg x y w h ptr top _ _ _ fun i hi => by
    rw [getLsbD_pack]; simp (disch := omega) only [if_pos, if_neg]; simp

@[simp] theorem xField_pack : xField (pack opc arg x y w h ptr top) = x :=
  extract_pack opc arg x y w h ptr top _ _ _ fun i hi => by
    rw [getLsbD_pack]; simp (disch := omega) only [if_pos, if_neg, Nat.add_sub_cancel_left]

@[simp] theorem yField_pack : yField (pack opc arg x y w h ptr top) = y :=
  extract_pack opc arg x y w h ptr top _ _ _ fun i hi => by
    rw [getLsbD_pack]; simp (disch := omega) only [if_pos, if_neg, Nat.add_sub_cancel_left]

@[simp] theorem wField_pack : wField (pack opc arg x y w h ptr top) = w :=
  extract_pack opc arg x y w h ptr top _ _ _ fun i hi => by
    rw [getLsbD_pack]; simp (disch := omega) only [if_pos, if_neg, Nat.add_sub_cancel_left]

@[simp] theorem hField_pack : hField (pack opc arg x y w h ptr top) = h :=
  extract_pack opc arg x y w h ptr top _ _ _ fun i hi => by
    rw [getLsbD_pack]; simp (disch := omega) only [if_pos, if_neg, Nat.add_sub_cancel_left]

@[simp] theorem ptrField_pack : ptrField (pack opc arg x y w h ptr top) = ptr :=
  extract_pack opc arg x y w h ptr top _ _ _ fun i hi => by
    rw [getLsbD_pack]; simp (disch := omega) only [if_pos, if_neg, Nat.add_sub_cancel_left]

@[simp] theorem c0Field_pack : c0Field (pack opc arg x y w h ptr top) = top.extractLsb' 0 16 :=
  extract_pack opc arg x y w h ptr top _ _ _ fun i hi => by
    rw [getLsbD_pack]; simp (disch := omega) only [if_neg, Nat.add_sub_cancel_left]; simp [hi]

@[simp] theorem c1Field_pack : c1Field (pack opc arg x y w h ptr top) = top.extractLsb' 16 16 :=
  extract_pack opc arg x y w h ptr top _ _ _ fun i hi => by
    rw [getLsbD_pack]; simp (disch := omega) only [if_neg]
    rw [show 144 + i - 128 = 16 + i by omega]; simp [hi]

@[simp] theorem lenField_pack : lenField (pack opc arg x y w h ptr top) = top :=
  extract_pack opc arg x y w h ptr top _ _ _ fun i hi => by
    rw [getLsbD_pack]; simp (disch := omega) only [if_neg, Nat.add_sub_cancel_left]

end

/-- The two colours packed into `W4` (30_encoding R81, R82). -/
@[simp] theorem low_half (a b : Half) : ((a ++ b : Word)).extractLsb' 0 16 = b := by
  apply BitVec.eq_of_getLsbD_eq
  intro i hi
  simp only [BitVec.getLsbD_extractLsb', hi, decide_true, Bool.true_and, Nat.zero_add]
  refine (BitVec.getLsbD_append (x := a) (y := b) (i := i)).trans ?_
  rw [if_pos hi]

@[simp] theorem high_half (a b : Half) : ((a ++ b : Word)).extractLsb' 16 16 = a := by
  apply BitVec.eq_of_getLsbD_eq
  intro i hi
  simp only [BitVec.getLsbD_extractLsb', hi, decide_true, Bool.true_and]
  refine (BitVec.getLsbD_append (x := a) (y := b) (i := 16 + i)).trans ?_
  rw [if_neg (by omega), Nat.add_sub_cancel_left]

end Sys2Proof
end

