-- ==== Sys2Proof/Laws/Lines.lean ====
section
/-! SUPPORT. The lines of primitives in closed form, as functions of the state for a free bus: the framed bytes, the
window, the table, and what a chunk prepares. Laws/Operations.lean says that the lines perform them. -/

namespace Sys2Proof.Machine

/-- The line of `sendCommand` on a free bus. -/
def sendCommand (b : Byte) (s : State) : State := syncTx [b] (writeDC .command s)

/-- The line of `sendDataByte` on a free bus. -/
def sendDataByte (b : Byte) (s : State) : State := syncTx [b] (writeDC .data s)

/-- The bytes of some events, each sent by a transmit of its own in its own mode. -/
def sendEvents (es : List Event) (s : State) : State :=
  es.foldl (fun s e => syncTx [e.byte] (writeDC e.mode s)) s

/-- The line of `setWindow` on a free bus. -/
def setWindow (xStart yStart xEnd yEnd : Half) (s : State) : State :=
  writeDC .data (sendEvents (windowEvents s.cfg xStart yStart xEnd yEnd) s)

/-- The window of a rectangle that fits (30_encoding R100), opened by `setWindow`. -/
def openWindow (x y w h : Half) (s : State) : State := setWindow x y (endCoord x w) (endCoord y h) s

/-- `UnpackOne` for `k` slots from slot `i` on (45 R167). -/
def unpackFrom : Nat → Nat → State → Out
  | 0, _, s => .next s
  | k + 1, i, s => andThen (unpackOne i s) (unpackFrom k (i + 1))

/-- The first part of a turn of the chunk loop: `drawMonoBitmap` unpacks `CNT` pixels (45 R167), the others have
nothing to prepare. -/
def prepareChunk (op : Stream) (s : State) : Out :=
  match op with
  | .fill => .next s
  | .colour => .next s
  | .mono => unpackFrom (min s.rem s.cfg.n) 0 { s with cnt := min s.rem s.cfg.n }

end Sys2Proof.Machine
end

