-- ==== Sys2Proof/Laws/Memory.lean ====
section
/-! SUPPORT. Lists of keys and values in canonical form, and source memory: read after write, frame, canonical form. -/

namespace Sys2Proof.Machine

theorem lookupAt_insertAt {α : Type} (k j : Nat) (v : α) (l : List (Nat × α)) (h : rising l = true) :
    lookupAt j (insertAt k v l) = if j = k then some v else lookupAt j l := by
  induction l with
  | nil => simp [insertAt, lookupAt]
  | cons c t ih =>
    obtain ⟨i, u⟩ := c
    have ht : rising t = true := by
      cases t with
      | nil => rfl
      | cons d t' => simp only [rising, Bool.and_eq_true] at h; exact h.2
    simp only [insertAt]
    split
    · simp [lookupAt]
    · split
      · rename_i h2; subst h2
        simp only [lookupAt]; split <;> simp_all
      · simp only [lookupAt, ih ht]
        split <;> split <;> simp_all

theorem insertAt_head {α : Type} (k : Nat) (v : α) (l : List (Nat × α)) :
    ∃ j w t, insertAt k v l = (j, w) :: t ∧ (j = k ∨ ∃ u t', l = (j, u) :: t') := by
  cases l with
  | nil => exact ⟨k, v, [], rfl, .inl rfl⟩
  | cons c t =>
    obtain ⟨i, u⟩ := c
    simp only [insertAt]
    split
    · exact ⟨k, v, _, rfl, .inl rfl⟩
    · split
      · exact ⟨k, v, _, rfl, .inl rfl⟩
      · exact ⟨i, u, _, rfl, .inr ⟨u, t, rfl⟩⟩

theorem rising_insertAt {α : Type} (k : Nat) (v : α) (l : List (Nat × α)) (h : rising l = true) :
    rising (insertAt k v l) = true := by
  induction l with
  | nil => rfl
  | cons c t ih =>
    obtain ⟨i, u⟩ := c
    have ht : rising t = true := by
      cases t with
      | nil => rfl
      | cons d t' => simp only [rising, Bool.and_eq_true] at h; exact h.2
    simp only [insertAt]
    split
    · simp_all [rising]
    · split
      · rename_i h2; subst h2
        cases t with
        | nil => rfl
        | cons d t' => simpa [rising] using h
      · obtain ⟨j, w, t', e, hj⟩ := insertAt_head k v t
        have hr := ih ht
        rw [e] at hr ⊢
        simp only [rising, Bool.and_eq_true, decide_eq_true_eq]
        refine ⟨?_, hr⟩
        rcases hj with rfl | ⟨u', t'', rfl⟩
        · omega
        · simp only [rising, Bool.and_eq_true, decide_eq_true_eq] at h; exact h.1

/-- Reading the byte just written. -/
theorem Memory.read_write_same (m : List Host.Cell) (a : Nat) (b : Byte) (h : Memory.wf m = true) :
    Memory.read (Memory.write m a b) a = some b := by
  simp [Memory.read, Memory.write, lookupAt_insertAt a a b m h]

/-- A write leaves every other address alone. -/
theorem Memory.read_write_other (m : List Host.Cell) (a a' : Nat) (b : Byte) (h : Memory.wf m = true) (ne : a' ≠ a) :
    Memory.read (Memory.write m a b) a' = Memory.read m a' := by
  simp [Memory.read, Memory.write, lookupAt_insertAt a a' b m h, ne]

/-- A write keeps the canonical form. -/
theorem Memory.wf_write (m : List Host.Cell) (a : Nat) (b : Byte) (h : Memory.wf m = true) :
    Memory.wf (Memory.write m a b) = true := rising_insertAt a b m h

end Sys2Proof.Machine
end

