-- ==== Sys2Proof/Laws/Outcome.lean ====
section
/-! SUPPORT. Outcomes: what a sequence of two parts answers, and a rule of consequence to reason about an operation
part by part. -/

namespace Sys2Proof.Machine

@[simp] theorem andThen_next (s : State) (f : State → Out) : andThen (.next s) f = f s := rfl
@[simp] theorem andThen_fault (r : Fault) (f : State → Out) : andThen (.fault r) f = .fault r := rfl
@[simp] theorem andThen_refused (r : Refusal) (f : State → Out) : andThen (.refused r) f = .refused r := rfl

theorem andThen_eq_next {o : Out} {f : State → Out} {t : State} :
    andThen o f = .next t ↔ ∃ m, o = .next m ∧ f m = .next t := by
  cases o <;> simp

theorem andThen_assoc (o : Out) (f g : State → Out) :
    andThen (andThen o f) g = andThen o fun s => andThen (f s) g := by
  cases o <;> rfl

/-- The answer is a next state with `P`, a fault with `F` or a refusal with `R`. -/
def Meets (P : State → Prop) (F : Fault → Prop) (R : Refusal → Prop) : Out → Prop
  | .next s => P s
  | .fault r => F r
  | .refused r => R r

variable {P Q : State → Prop} {F : Fault → Prop} {R : Refusal → Prop}

@[simp] theorem meets_next (s : State) : Meets P F R (.next s) ↔ P s := Iff.rfl
@[simp] theorem meets_fault (r : Fault) : Meets P F R (.fault r) ↔ F r := Iff.rfl
@[simp] theorem meets_refused (r : Refusal) : Meets P F R (.refused r) ↔ R r := Iff.rfl

theorem Meets.andThen {o : Out} {f : State → Out} (h : Meets (fun s => Meets Q F R (f s)) F R o) :
    Meets Q F R (Machine.andThen o f) := by
  cases o <;> exact h

theorem Meets.mono {o : Out} {F' : Fault → Prop} {R' : Refusal → Prop} (h : Meets P F R o)
    (hP : ∀ s, P s → Q s) (hF : ∀ r, F r → F' r) (hR : ∀ r, R r → R' r) : Meets Q F' R' o := by
  cases o with
  | next s => exact hP s h
  | fault r => exact hF r h
  | refused r => exact hR r h

theorem Meets.weaken {o : Out} (h : Meets P F R o) (hP : ∀ s, P s → Q s) : Meets Q F R o :=
  h.mono hP (fun _ => id) (fun _ => id)

theorem Meets.of_next {o : Out} {t : State} (h : Meets P F R o) (e : o = .next t) : P t := by
  subst e; exact h

theorem Meets.of_fault {o : Out} {r : Fault} (h : Meets P F R o) (e : o = .fault r) : F r := by
  subst e; exact h

theorem Meets.of_refused {o : Out} {r : Refusal} (h : Meets P F R o) (e : o = .refused r) : R r := by
  subst e; exact h

theorem meets_of_forall {o : Out} (hP : ∀ t, o = .next t → P t) (hF : ∀ r, o = .fault r → F r)
    (hR : ∀ r, o = .refused r → R r) : Meets P F R o := by
  cases o with
  | next s => exact hP s rfl
  | fault r => exact hF r rfl
  | refused r => exact hR r rfl

end Sys2Proof.Machine
end

