-- ==== Sys2Proof/Laws/State.lean ====
section
/-! SUPPORT. What each named update does to each field of the state, one lemma per field, so that no proof unfolds a
record update. -/

namespace Sys2Proof.Machine

@[simp] theorem Slot.unwritten_hi (sl : Slot) : sl.unwritten.hi = sl.hi := rfl
@[simp] theorem Slot.unwritten_lo (sl : Slot) : sl.unwritten.lo = sl.lo := rfl
@[simp] theorem Slot.unwritten_written (sl : Slot) : sl.unwritten.written = false := rfl
@[simp] theorem slotOf_hi (c : Half) : (slotOf c).hi = hi8 c := rfl
@[simp] theorem slotOf_lo (c : Half) : (slotOf c).lo = lo8 c := rfl
@[simp] theorem slotOf_written (c : Half) : (slotOf c).written = true := rfl

@[simp] theorem writeDC_seq (m : Mode) (s : State) : (writeDC m s).seq = s.seq := rfl
@[simp] theorem writeDC_ops (m : Mode) (s : State) : (writeDC m s).ops = s.ops := rfl
@[simp] theorem writeDC_done (m : Mode) (s : State) : (writeDC m s).done = s.done := rfl
@[simp] theorem writeDC_dc (m : Mode) (s : State) : (writeDC m s).dc = m := rfl
@[simp] theorem writeDC_xfer (m : Mode) (s : State) : (writeDC m s).xfer = s.xfer := rfl
@[simp] theorem writeDC_stg (m : Mode) (s : State) : (writeDC m s).stg = s.stg := rfl
@[simp] theorem writeDC_cursor (m : Mode) (s : State) : (writeDC m s).cursor = s.cursor := rfl
@[simp] theorem writeDC_rem (m : Mode) (s : State) : (writeDC m s).rem = s.rem := rfl
@[simp] theorem writeDC_off (m : Mode) (s : State) : (writeDC m s).off = s.off := rfl
@[simp] theorem writeDC_cnt (m : Mode) (s : State) : (writeDC m s).cnt = s.cnt := rfl
@[simp] theorem writeDC_syncTimeout (m : Mode) (s : State) : (writeDC m s).syncTimeout = s.syncTimeout := rfl
@[simp] theorem writeDC_mem (m : Mode) (s : State) : (writeDC m s).mem = s.mem := rfl
@[simp] theorem writeDC_wire (m : Mode) (s : State) : (writeDC m s).wire = s.wire := rfl
@[simp] theorem writeDC_transfers (m : Mode) (s : State) : (writeDC m s).transfers = s.transfers := rfl
@[simp] theorem writeDC_reads (m : Mode) (s : State) : (writeDC m s).reads = s.reads := rfl
@[simp] theorem writeDC_retired (m : Mode) (s : State) : (writeDC m s).retired = s.retired := rfl
@[simp] theorem writeDC_panel (m : Mode) (s : State) : (writeDC m s).panel = s.panel := rfl
@[simp] theorem writeDC_cfg (m : Mode) (s : State) : (writeDC m s).cfg = s.cfg := rfl
@[simp] theorem writeDC_requests (m : Mode) (s : State) : (writeDC m s).requests = s.requests := rfl
@[simp] theorem writeDC_turns (m : Mode) (s : State) : (writeDC m s).turns = s.turns := rfl
@[simp] theorem writeDC_sync (m : Mode) (s : State) : (writeDC m s).sync = s.sync := rfl
@[simp] theorem writeDC_draws (m : Mode) (s : State) : (writeDC m s).draws = s.draws := rfl

@[simp] theorem clearDone_seq (s : State) : (clearDone s).seq = s.seq := rfl
@[simp] theorem clearDone_ops (s : State) : (clearDone s).ops = s.ops := rfl
@[simp] theorem clearDone_done (s : State) : (clearDone s).done = false := rfl
@[simp] theorem clearDone_dc (s : State) : (clearDone s).dc = s.dc := rfl
@[simp] theorem clearDone_xfer (s : State) : (clearDone s).xfer = s.xfer := rfl
@[simp] theorem clearDone_stg (s : State) : (clearDone s).stg = s.stg := rfl
@[simp] theorem clearDone_cursor (s : State) : (clearDone s).cursor = s.cursor := rfl
@[simp] theorem clearDone_rem (s : State) : (clearDone s).rem = s.rem := rfl
@[simp] theorem clearDone_off (s : State) : (clearDone s).off = s.off := rfl
@[simp] theorem clearDone_cnt (s : State) : (clearDone s).cnt = s.cnt := rfl
@[simp] theorem clearDone_syncTimeout (s : State) : (clearDone s).syncTimeout = s.syncTimeout := rfl
@[simp] theorem clearDone_mem (s : State) : (clearDone s).mem = s.mem := rfl
@[simp] theorem clearDone_wire (s : State) : (clearDone s).wire = s.wire := rfl
@[simp] theorem clearDone_transfers (s : State) : (clearDone s).transfers = s.transfers := rfl
@[simp] theorem clearDone_reads (s : State) : (clearDone s).reads = s.reads := rfl
@[simp] theorem clearDone_retired (s : State) : (clearDone s).retired = s.retired := rfl
@[simp] theorem clearDone_panel (s : State) : (clearDone s).panel = s.panel := rfl
@[simp] theorem clearDone_cfg (s : State) : (clearDone s).cfg = s.cfg := rfl
@[simp] theorem clearDone_requests (s : State) : (clearDone s).requests = s.requests := rfl
@[simp] theorem clearDone_turns (s : State) : (clearDone s).turns = s.turns := rfl
@[simp] theorem clearDone_sync (s : State) : (clearDone s).sync = s.sync := rfl
@[simp] theorem clearDone_draws (s : State) : (clearDone s).draws = s.draws := rfl

@[simp] theorem setDone_seq (s : State) : (setDone s).seq = s.seq := rfl
@[simp] theorem setDone_ops (s : State) : (setDone s).ops = s.ops := rfl
@[simp] theorem setDone_done (s : State) : (setDone s).done = true := rfl
@[simp] theorem setDone_dc (s : State) : (setDone s).dc = s.dc := rfl
@[simp] theorem setDone_xfer (s : State) : (setDone s).xfer = s.xfer := rfl
@[simp] theorem setDone_stg (s : State) : (setDone s).stg = s.stg := rfl
@[simp] theorem setDone_cursor (s : State) : (setDone s).cursor = s.cursor := rfl
@[simp] theorem setDone_rem (s : State) : (setDone s).rem = s.rem := rfl
@[simp] theorem setDone_off (s : State) : (setDone s).off = s.off := rfl
@[simp] theorem setDone_cnt (s : State) : (setDone s).cnt = s.cnt := rfl
@[simp] theorem setDone_syncTimeout (s : State) : (setDone s).syncTimeout = s.syncTimeout := rfl
@[simp] theorem setDone_mem (s : State) : (setDone s).mem = s.mem := rfl
@[simp] theorem setDone_wire (s : State) : (setDone s).wire = s.wire := rfl
@[simp] theorem setDone_transfers (s : State) : (setDone s).transfers = s.transfers := rfl
@[simp] theorem setDone_reads (s : State) : (setDone s).reads = s.reads := rfl
@[simp] theorem setDone_retired (s : State) : (setDone s).retired = s.retired := rfl
@[simp] theorem setDone_panel (s : State) : (setDone s).panel = s.panel := rfl
@[simp] theorem setDone_cfg (s : State) : (setDone s).cfg = s.cfg := rfl
@[simp] theorem setDone_requests (s : State) : (setDone s).requests = s.requests := rfl
@[simp] theorem setDone_turns (s : State) : (setDone s).turns = s.turns := rfl
@[simp] theorem setDone_sync (s : State) : (setDone s).sync = s.sync := rfl
@[simp] theorem setDone_draws (s : State) : (setDone s).draws = s.draws := rfl

@[simp] theorem put_seq (es : List Event) (s : State) : (put es s).seq = s.seq := rfl
@[simp] theorem put_ops (es : List Event) (s : State) : (put es s).ops = s.ops := rfl
@[simp] theorem put_done (es : List Event) (s : State) : (put es s).done = s.done := rfl
@[simp] theorem put_dc (es : List Event) (s : State) : (put es s).dc = s.dc := rfl
@[simp] theorem put_xfer (es : List Event) (s : State) : (put es s).xfer = s.xfer := rfl
@[simp] theorem put_stg (es : List Event) (s : State) : (put es s).stg = s.stg := rfl
@[simp] theorem put_cursor (es : List Event) (s : State) : (put es s).cursor = s.cursor := rfl
@[simp] theorem put_rem (es : List Event) (s : State) : (put es s).rem = s.rem := rfl
@[simp] theorem put_off (es : List Event) (s : State) : (put es s).off = s.off := rfl
@[simp] theorem put_cnt (es : List Event) (s : State) : (put es s).cnt = s.cnt := rfl
@[simp] theorem put_syncTimeout (es : List Event) (s : State) : (put es s).syncTimeout = s.syncTimeout := rfl
@[simp] theorem put_mem (es : List Event) (s : State) : (put es s).mem = s.mem := rfl
@[simp] theorem put_wire (es : List Event) (s : State) : (put es s).wire = s.wire ++ es := rfl
@[simp] theorem put_transfers (es : List Event) (s : State) : (put es s).transfers = s.transfers := rfl
@[simp] theorem put_reads (es : List Event) (s : State) : (put es s).reads = s.reads := rfl
@[simp] theorem put_retired (es : List Event) (s : State) : (put es s).retired = s.retired := rfl
@[simp] theorem put_panel (es : List Event) (s : State) : (put es s).panel = es.foldl (Panel.receive s.cfg) s.panel := rfl
@[simp] theorem put_cfg (es : List Event) (s : State) : (put es s).cfg = s.cfg := rfl
@[simp] theorem put_requests (es : List Event) (s : State) : (put es s).requests = s.requests := rfl
@[simp] theorem put_turns (es : List Event) (s : State) : (put es s).turns = s.turns := rfl
@[simp] theorem put_sync (es : List Event) (s : State) : (put es s).sync = s.sync := rfl
@[simp] theorem put_draws (es : List Event) (s : State) : (put es s).draws = s.draws := rfl

@[simp] theorem syncTx_seq (bs : List Byte) (s : State) : (syncTx bs s).seq = s.seq := rfl
@[simp] theorem syncTx_ops (bs : List Byte) (s : State) : (syncTx bs s).ops = s.ops := rfl
@[simp] theorem syncTx_done (bs : List Byte) (s : State) : (syncTx bs s).done = s.done := rfl
@[simp] theorem syncTx_dc (bs : List Byte) (s : State) : (syncTx bs s).dc = s.dc := rfl
@[simp] theorem syncTx_xfer (bs : List Byte) (s : State) : (syncTx bs s).xfer = s.xfer := rfl
@[simp] theorem syncTx_stg (bs : List Byte) (s : State) : (syncTx bs s).stg = s.stg := rfl
@[simp] theorem syncTx_cursor (bs : List Byte) (s : State) : (syncTx bs s).cursor = s.cursor := rfl
@[simp] theorem syncTx_rem (bs : List Byte) (s : State) : (syncTx bs s).rem = s.rem := rfl
@[simp] theorem syncTx_off (bs : List Byte) (s : State) : (syncTx bs s).off = s.off := rfl
@[simp] theorem syncTx_cnt (bs : List Byte) (s : State) : (syncTx bs s).cnt = s.cnt := rfl
@[simp] theorem syncTx_syncTimeout (bs : List Byte) (s : State) : (syncTx bs s).syncTimeout = (s.syncTimeout || timedOut (syncAnswer s s.draws)) := rfl
@[simp] theorem syncTx_mem (bs : List Byte) (s : State) : (syncTx bs s).mem = s.mem := rfl
@[simp] theorem syncTx_wire (bs : List Byte) (s : State) : (syncTx bs s).wire = s.wire ++ tagged s.dc (sentPrefix (syncAnswer s s.draws) bs) := rfl
@[simp] theorem syncTx_transfers (bs : List Byte) (s : State) : (syncTx bs s).transfers = s.transfers := rfl
@[simp] theorem syncTx_reads (bs : List Byte) (s : State) : (syncTx bs s).reads = s.reads := rfl
@[simp] theorem syncTx_retired (bs : List Byte) (s : State) : (syncTx bs s).retired = s.retired := rfl
@[simp] theorem syncTx_cfg (bs : List Byte) (s : State) : (syncTx bs s).cfg = s.cfg := rfl
@[simp] theorem syncTx_requests (bs : List Byte) (s : State) : (syncTx bs s).requests = s.requests := rfl
@[simp] theorem syncTx_turns (bs : List Byte) (s : State) : (syncTx bs s).turns = s.turns := rfl
@[simp] theorem syncTx_sync (bs : List Byte) (s : State) : (syncTx bs s).sync = s.sync := rfl
@[simp] theorem syncTx_draws (bs : List Byte) (s : State) : (syncTx bs s).draws = s.draws + 1 := rfl

@[simp] theorem sendCommand_seq (b : Byte) (s : State) : (sendCommand b s).seq = s.seq := rfl
@[simp] theorem sendCommand_ops (b : Byte) (s : State) : (sendCommand b s).ops = s.ops := rfl
@[simp] theorem sendCommand_done (b : Byte) (s : State) : (sendCommand b s).done = s.done := rfl
@[simp] theorem sendCommand_dc (b : Byte) (s : State) : (sendCommand b s).dc = .command := rfl
@[simp] theorem sendCommand_xfer (b : Byte) (s : State) : (sendCommand b s).xfer = s.xfer := rfl
@[simp] theorem sendCommand_stg (b : Byte) (s : State) : (sendCommand b s).stg = s.stg := rfl
@[simp] theorem sendCommand_cursor (b : Byte) (s : State) : (sendCommand b s).cursor = s.cursor := rfl
@[simp] theorem sendCommand_rem (b : Byte) (s : State) : (sendCommand b s).rem = s.rem := rfl
@[simp] theorem sendCommand_off (b : Byte) (s : State) : (sendCommand b s).off = s.off := rfl
@[simp] theorem sendCommand_cnt (b : Byte) (s : State) : (sendCommand b s).cnt = s.cnt := rfl
@[simp] theorem sendCommand_mem (b : Byte) (s : State) : (sendCommand b s).mem = s.mem := rfl
@[simp] theorem sendCommand_transfers (b : Byte) (s : State) : (sendCommand b s).transfers = s.transfers := rfl
@[simp] theorem sendCommand_reads (b : Byte) (s : State) : (sendCommand b s).reads = s.reads := rfl
@[simp] theorem sendCommand_retired (b : Byte) (s : State) : (sendCommand b s).retired = s.retired := rfl
@[simp] theorem sendCommand_cfg (b : Byte) (s : State) : (sendCommand b s).cfg = s.cfg := rfl
@[simp] theorem sendCommand_requests (b : Byte) (s : State) : (sendCommand b s).requests = s.requests := rfl
@[simp] theorem sendCommand_turns (b : Byte) (s : State) : (sendCommand b s).turns = s.turns := rfl
@[simp] theorem sendCommand_sync (b : Byte) (s : State) : (sendCommand b s).sync = s.sync := rfl
@[simp] theorem sendCommand_draws (b : Byte) (s : State) : (sendCommand b s).draws = s.draws + 1 := rfl

@[simp] theorem sendDataByte_seq (b : Byte) (s : State) : (sendDataByte b s).seq = s.seq := rfl
@[simp] theorem sendDataByte_ops (b : Byte) (s : State) : (sendDataByte b s).ops = s.ops := rfl
@[simp] theorem sendDataByte_done (b : Byte) (s : State) : (sendDataByte b s).done = s.done := rfl
@[simp] theorem sendDataByte_dc (b : Byte) (s : State) : (sendDataByte b s).dc = .data := rfl
@[simp] theorem sendDataByte_xfer (b : Byte) (s : State) : (sendDataByte b s).xfer = s.xfer := rfl
@[simp] theorem sendDataByte_stg (b : Byte) (s : State) : (sendDataByte b s).stg = s.stg := rfl
@[simp] theorem sendDataByte_cursor (b : Byte) (s : State) : (sendDataByte b s).cursor = s.cursor := rfl
@[simp] theorem sendDataByte_rem (b : Byte) (s : State) : (sendDataByte b s).rem = s.rem := rfl
@[simp] theorem sendDataByte_off (b : Byte) (s : State) : (sendDataByte b s).off = s.off := rfl
@[simp] theorem sendDataByte_cnt (b : Byte) (s : State) : (sendDataByte b s).cnt = s.cnt := rfl
@[simp] theorem sendDataByte_mem (b : Byte) (s : State) : (sendDataByte b s).mem = s.mem := rfl
@[simp] theorem sendDataByte_transfers (b : Byte) (s : State) : (sendDataByte b s).transfers = s.transfers := rfl
@[simp] theorem sendDataByte_reads (b : Byte) (s : State) : (sendDataByte b s).reads = s.reads := rfl
@[simp] theorem sendDataByte_retired (b : Byte) (s : State) : (sendDataByte b s).retired = s.retired := rfl
@[simp] theorem sendDataByte_cfg (b : Byte) (s : State) : (sendDataByte b s).cfg = s.cfg := rfl
@[simp] theorem sendDataByte_requests (b : Byte) (s : State) : (sendDataByte b s).requests = s.requests := rfl
@[simp] theorem sendDataByte_turns (b : Byte) (s : State) : (sendDataByte b s).turns = s.turns := rfl
@[simp] theorem sendDataByte_sync (b : Byte) (s : State) : (sendDataByte b s).sync = s.sync := rfl
@[simp] theorem sendDataByte_draws (b : Byte) (s : State) : (sendDataByte b s).draws = s.draws + 1 := rfl

/-- What no single byte sent changes, no list of them changes. -/
theorem sendEvents_keeps {γ : Type} (f : State → γ) (h : ∀ (e : Event) (s : State), f (syncTx [e.byte] (writeDC e.mode s)) = f s)
    (es : List Event) (s : State) : f (sendEvents es s) = f s := by
  induction es generalizing s with
  | nil => rfl
  | cons e es ih => exact (ih _).trans (h e s)

@[simp] theorem sendEvents_seq (es : List Event) (s : State) : (sendEvents es s).seq = s.seq :=
  sendEvents_keeps State.seq (fun _ _ => rfl) es s
@[simp] theorem sendEvents_ops (es : List Event) (s : State) : (sendEvents es s).ops = s.ops :=
  sendEvents_keeps State.ops (fun _ _ => rfl) es s
@[simp] theorem sendEvents_done (es : List Event) (s : State) : (sendEvents es s).done = s.done :=
  sendEvents_keeps State.done (fun _ _ => rfl) es s
@[simp] theorem sendEvents_xfer (es : List Event) (s : State) : (sendEvents es s).xfer = s.xfer :=
  sendEvents_keeps State.xfer (fun _ _ => rfl) es s
@[simp] theorem sendEvents_stg (es : List Event) (s : State) : (sendEvents es s).stg = s.stg :=
  sendEvents_keeps State.stg (fun _ _ => rfl) es s
@[simp] theorem sendEvents_cursor (es : List Event) (s : State) : (sendEvents es s).cursor = s.cursor :=
  sendEvents_keeps State.cursor (fun _ _ => rfl) es s
@[simp] theorem sendEvents_rem (es : List Event) (s : State) : (sendEvents es s).rem = s.rem :=
  sendEvents_keeps State.rem (fun _ _ => rfl) es s
@[simp] theorem sendEvents_off (es : List Event) (s : State) : (sendEvents es s).off = s.off :=
  sendEvents_keeps State.off (fun _ _ => rfl) es s
@[simp] theorem sendEvents_cnt (es : List Event) (s : State) : (sendEvents es s).cnt = s.cnt :=
  sendEvents_keeps State.cnt (fun _ _ => rfl) es s
@[simp] theorem sendEvents_mem (es : List Event) (s : State) : (sendEvents es s).mem = s.mem :=
  sendEvents_keeps State.mem (fun _ _ => rfl) es s
@[simp] theorem sendEvents_transfers (es : List Event) (s : State) : (sendEvents es s).transfers = s.transfers :=
  sendEvents_keeps State.transfers (fun _ _ => rfl) es s
@[simp] theorem sendEvents_reads (es : List Event) (s : State) : (sendEvents es s).reads = s.reads :=
  sendEvents_keeps State.reads (fun _ _ => rfl) es s
@[simp] theorem sendEvents_retired (es : List Event) (s : State) : (sendEvents es s).retired = s.retired :=
  sendEvents_keeps State.retired (fun _ _ => rfl) es s
@[simp] theorem sendEvents_cfg (es : List Event) (s : State) : (sendEvents es s).cfg = s.cfg :=
  sendEvents_keeps State.cfg (fun _ _ => rfl) es s
@[simp] theorem sendEvents_requests (es : List Event) (s : State) : (sendEvents es s).requests = s.requests :=
  sendEvents_keeps State.requests (fun _ _ => rfl) es s
@[simp] theorem sendEvents_turns (es : List Event) (s : State) : (sendEvents es s).turns = s.turns :=
  sendEvents_keeps State.turns (fun _ _ => rfl) es s
@[simp] theorem sendEvents_sync (es : List Event) (s : State) : (sendEvents es s).sync = s.sync :=
  sendEvents_keeps State.sync (fun _ _ => rfl) es s
@[simp] theorem sendEvents_draws (es : List Event) (s : State) : (sendEvents es s).draws = s.draws + es.length := by
  induction es generalizing s with
  | nil => rfl
  | cons e es ih => exact (ih _).trans (by simp; omega)

@[simp] theorem setWindow_seq (a b c d : Half) (s : State) : (setWindow a b c d s).seq = s.seq := sendEvents_seq _ s
@[simp] theorem setWindow_ops (a b c d : Half) (s : State) : (setWindow a b c d s).ops = s.ops := sendEvents_ops _ s
@[simp] theorem setWindow_done (a b c d : Half) (s : State) : (setWindow a b c d s).done = s.done := sendEvents_done _ s
@[simp] theorem setWindow_xfer (a b c d : Half) (s : State) : (setWindow a b c d s).xfer = s.xfer := sendEvents_xfer _ s
@[simp] theorem setWindow_stg (a b c d : Half) (s : State) : (setWindow a b c d s).stg = s.stg := sendEvents_stg _ s
@[simp] theorem setWindow_cursor (a b c d : Half) (s : State) : (setWindow a b c d s).cursor = s.cursor := sendEvents_cursor _ s
@[simp] theorem setWindow_rem (a b c d : Half) (s : State) : (setWindow a b c d s).rem = s.rem := sendEvents_rem _ s
@[simp] theorem setWindow_off (a b c d : Half) (s : State) : (setWindow a b c d s).off = s.off := sendEvents_off _ s
@[simp] theorem setWindow_cnt (a b c d : Half) (s : State) : (setWindow a b c d s).cnt = s.cnt := sendEvents_cnt _ s
@[simp] theorem setWindow_mem (a b c d : Half) (s : State) : (setWindow a b c d s).mem = s.mem := sendEvents_mem _ s
@[simp] theorem setWindow_transfers (a b c d : Half) (s : State) : (setWindow a b c d s).transfers = s.transfers := sendEvents_transfers _ s
@[simp] theorem setWindow_reads (a b c d : Half) (s : State) : (setWindow a b c d s).reads = s.reads := sendEvents_reads _ s
@[simp] theorem setWindow_retired (a b c d : Half) (s : State) : (setWindow a b c d s).retired = s.retired := sendEvents_retired _ s
@[simp] theorem setWindow_cfg (a b c d : Half) (s : State) : (setWindow a b c d s).cfg = s.cfg := sendEvents_cfg _ s
@[simp] theorem setWindow_requests (a b c d : Half) (s : State) : (setWindow a b c d s).requests = s.requests := sendEvents_requests _ s
@[simp] theorem setWindow_turns (a b c d : Half) (s : State) : (setWindow a b c d s).turns = s.turns := sendEvents_turns _ s
@[simp] theorem setWindow_sync (a b c d : Half) (s : State) : (setWindow a b c d s).sync = s.sync := sendEvents_sync _ s
@[simp] theorem setWindow_dc (a b c d : Half) (s : State) : (setWindow a b c d s).dc = .data := rfl
@[simp] theorem setWindow_draws (a b c d : Half) (s : State) : (setWindow a b c d s).draws = s.draws + 11 :=
  sendEvents_draws _ s

@[simp] theorem openWindow_seq (x y w h : Half) (s : State) : (openWindow x y w h s).seq = s.seq := setWindow_seq _ _ _ _ s
@[simp] theorem openWindow_ops (x y w h : Half) (s : State) : (openWindow x y w h s).ops = s.ops := setWindow_ops _ _ _ _ s
@[simp] theorem openWindow_done (x y w h : Half) (s : State) : (openWindow x y w h s).done = s.done := setWindow_done _ _ _ _ s
@[simp] theorem openWindow_dc (x y w h : Half) (s : State) : (openWindow x y w h s).dc = .data := setWindow_dc _ _ _ _ s
@[simp] theorem openWindow_xfer (x y w h : Half) (s : State) : (openWindow x y w h s).xfer = s.xfer := setWindow_xfer _ _ _ _ s
@[simp] theorem openWindow_stg (x y w h : Half) (s : State) : (openWindow x y w h s).stg = s.stg := setWindow_stg _ _ _ _ s
@[simp] theorem openWindow_cursor (x y w h : Half) (s : State) : (openWindow x y w h s).cursor = s.cursor := setWindow_cursor _ _ _ _ s
@[simp] theorem openWindow_rem (x y w h : Half) (s : State) : (openWindow x y w h s).rem = s.rem := setWindow_rem _ _ _ _ s
@[simp] theorem openWindow_off (x y w h : Half) (s : State) : (openWindow x y w h s).off = s.off := setWindow_off _ _ _ _ s
@[simp] theorem openWindow_cnt (x y w h : Half) (s : State) : (openWindow x y w h s).cnt = s.cnt := setWindow_cnt _ _ _ _ s
@[simp] theorem openWindow_mem (x y w h : Half) (s : State) : (openWindow x y w h s).mem = s.mem := setWindow_mem _ _ _ _ s
@[simp] theorem openWindow_transfers (x y w h : Half) (s : State) : (openWindow x y w h s).transfers = s.transfers := setWindow_transfers _ _ _ _ s
@[simp] theorem openWindow_reads (x y w h : Half) (s : State) : (openWindow x y w h s).reads = s.reads := setWindow_reads _ _ _ _ s
@[simp] theorem openWindow_retired (x y w h : Half) (s : State) : (openWindow x y w h s).retired = s.retired := setWindow_retired _ _ _ _ s
@[simp] theorem openWindow_cfg (x y w h : Half) (s : State) : (openWindow x y w h s).cfg = s.cfg := setWindow_cfg _ _ _ _ s
@[simp] theorem openWindow_requests (x y w h : Half) (s : State) : (openWindow x y w h s).requests = s.requests := setWindow_requests _ _ _ _ s
@[simp] theorem openWindow_turns (x y w h : Half) (s : State) : (openWindow x y w h s).turns = s.turns := setWindow_turns _ _ _ _ s
@[simp] theorem openWindow_sync (x y w h : Half) (s : State) : (openWindow x y w h s).sync = s.sync := setWindow_sync _ _ _ _ s
@[simp] theorem openWindow_draws (x y w h : Half) (s : State) : (openWindow x y w h s).draws = s.draws + 11 := setWindow_draws _ _ _ _ s

@[simp] theorem writeSlot_seq (i : Nat) (c : Half) (s : State) : (writeSlot i c s).seq = s.seq := rfl
@[simp] theorem writeSlot_ops (i : Nat) (c : Half) (s : State) : (writeSlot i c s).ops = s.ops := rfl
@[simp] theorem writeSlot_done (i : Nat) (c : Half) (s : State) : (writeSlot i c s).done = s.done := rfl
@[simp] theorem writeSlot_dc (i : Nat) (c : Half) (s : State) : (writeSlot i c s).dc = s.dc := rfl
@[simp] theorem writeSlot_xfer (i : Nat) (c : Half) (s : State) : (writeSlot i c s).xfer = s.xfer := rfl
@[simp] theorem writeSlot_stg (i : Nat) (c : Half) (s : State) : (writeSlot i c s).stg = s.stg.set i (slotOf c) := rfl
@[simp] theorem writeSlot_cursor (i : Nat) (c : Half) (s : State) : (writeSlot i c s).cursor = s.cursor := rfl
@[simp] theorem writeSlot_rem (i : Nat) (c : Half) (s : State) : (writeSlot i c s).rem = s.rem := rfl
@[simp] theorem writeSlot_off (i : Nat) (c : Half) (s : State) : (writeSlot i c s).off = s.off := rfl
@[simp] theorem writeSlot_cnt (i : Nat) (c : Half) (s : State) : (writeSlot i c s).cnt = s.cnt := rfl
@[simp] theorem writeSlot_syncTimeout (i : Nat) (c : Half) (s : State) : (writeSlot i c s).syncTimeout = s.syncTimeout := rfl
@[simp] theorem writeSlot_mem (i : Nat) (c : Half) (s : State) : (writeSlot i c s).mem = s.mem := rfl
@[simp] theorem writeSlot_wire (i : Nat) (c : Half) (s : State) : (writeSlot i c s).wire = s.wire := rfl
@[simp] theorem writeSlot_transfers (i : Nat) (c : Half) (s : State) : (writeSlot i c s).transfers = s.transfers := rfl
@[simp] theorem writeSlot_reads (i : Nat) (c : Half) (s : State) : (writeSlot i c s).reads = s.reads := rfl
@[simp] theorem writeSlot_retired (i : Nat) (c : Half) (s : State) : (writeSlot i c s).retired = s.retired := rfl
@[simp] theorem writeSlot_panel (i : Nat) (c : Half) (s : State) : (writeSlot i c s).panel = s.panel := rfl
@[simp] theorem writeSlot_cfg (i : Nat) (c : Half) (s : State) : (writeSlot i c s).cfg = s.cfg := rfl
@[simp] theorem writeSlot_requests (i : Nat) (c : Half) (s : State) : (writeSlot i c s).requests = s.requests := rfl
@[simp] theorem writeSlot_turns (i : Nat) (c : Half) (s : State) : (writeSlot i c s).turns = s.turns := rfl
@[simp] theorem writeSlot_sync (i : Nat) (c : Half) (s : State) : (writeSlot i c s).sync = s.sync := rfl
@[simp] theorem writeSlot_draws (i : Nat) (c : Half) (s : State) : (writeSlot i c s).draws = s.draws := rfl

@[simp] theorem prefill_seq (c : Half) (s : State) : (prefill c s).seq = s.seq := rfl
@[simp] theorem prefill_ops (c : Half) (s : State) : (prefill c s).ops = s.ops := rfl
@[simp] theorem prefill_done (c : Half) (s : State) : (prefill c s).done = s.done := rfl
@[simp] theorem prefill_dc (c : Half) (s : State) : (prefill c s).dc = s.dc := rfl
@[simp] theorem prefill_xfer (c : Half) (s : State) : (prefill c s).xfer = s.xfer := rfl
@[simp] theorem prefill_stg (c : Half) (s : State) : (prefill c s).stg = List.replicate s.cfg.n (slotOf c) := rfl
@[simp] theorem prefill_cursor (c : Half) (s : State) : (prefill c s).cursor = s.cursor := rfl
@[simp] theorem prefill_rem (c : Half) (s : State) : (prefill c s).rem = s.rem := rfl
@[simp] theorem prefill_off (c : Half) (s : State) : (prefill c s).off = s.off := rfl
@[simp] theorem prefill_cnt (c : Half) (s : State) : (prefill c s).cnt = s.cnt := rfl
@[simp] theorem prefill_syncTimeout (c : Half) (s : State) : (prefill c s).syncTimeout = s.syncTimeout := rfl
@[simp] theorem prefill_mem (c : Half) (s : State) : (prefill c s).mem = s.mem := rfl
@[simp] theorem prefill_wire (c : Half) (s : State) : (prefill c s).wire = s.wire := rfl
@[simp] theorem prefill_transfers (c : Half) (s : State) : (prefill c s).transfers = s.transfers := rfl
@[simp] theorem prefill_reads (c : Half) (s : State) : (prefill c s).reads = s.reads := rfl
@[simp] theorem prefill_retired (c : Half) (s : State) : (prefill c s).retired = s.retired := rfl
@[simp] theorem prefill_panel (c : Half) (s : State) : (prefill c s).panel = s.panel := rfl
@[simp] theorem prefill_cfg (c : Half) (s : State) : (prefill c s).cfg = s.cfg := rfl
@[simp] theorem prefill_requests (c : Half) (s : State) : (prefill c s).requests = s.requests := rfl
@[simp] theorem prefill_turns (c : Half) (s : State) : (prefill c s).turns = s.turns := rfl
@[simp] theorem prefill_sync (c : Half) (s : State) : (prefill c s).sync = s.sync := rfl
@[simp] theorem prefill_draws (c : Half) (s : State) : (prefill c s).draws = s.draws := rfl

@[simp] theorem xferEmit_seq (f : InFlight) (b : Byte) (s : State) : (xferEmit f b s).seq = s.seq := rfl
@[simp] theorem xferEmit_ops (f : InFlight) (b : Byte) (s : State) : (xferEmit f b s).ops = s.ops := rfl
@[simp] theorem xferEmit_done (f : InFlight) (b : Byte) (s : State) : (xferEmit f b s).done = s.done := rfl
@[simp] theorem xferEmit_dc (f : InFlight) (b : Byte) (s : State) : (xferEmit f b s).dc = s.dc := rfl
@[simp] theorem xferEmit_xfer (f : InFlight) (b : Byte) (s : State) : (xferEmit f b s).xfer = some { f with sent := f.sent + 1 } := rfl
@[simp] theorem xferEmit_stg (f : InFlight) (b : Byte) (s : State) : (xferEmit f b s).stg = s.stg := rfl
@[simp] theorem xferEmit_cursor (f : InFlight) (b : Byte) (s : State) : (xferEmit f b s).cursor = s.cursor := rfl
@[simp] theorem xferEmit_rem (f : InFlight) (b : Byte) (s : State) : (xferEmit f b s).rem = s.rem := rfl
@[simp] theorem xferEmit_off (f : InFlight) (b : Byte) (s : State) : (xferEmit f b s).off = s.off := rfl
@[simp] theorem xferEmit_cnt (f : InFlight) (b : Byte) (s : State) : (xferEmit f b s).cnt = s.cnt := rfl
@[simp] theorem xferEmit_syncTimeout (f : InFlight) (b : Byte) (s : State) : (xferEmit f b s).syncTimeout = s.syncTimeout := rfl
@[simp] theorem xferEmit_mem (f : InFlight) (b : Byte) (s : State) : (xferEmit f b s).mem = s.mem := rfl
@[simp] theorem xferEmit_wire (f : InFlight) (b : Byte) (s : State) : (xferEmit f b s).wire = s.wire ++ [⟨s.dc, b⟩] := rfl
@[simp] theorem xferEmit_transfers (f : InFlight) (b : Byte) (s : State) : (xferEmit f b s).transfers = s.transfers := rfl
@[simp] theorem xferEmit_reads (f : InFlight) (b : Byte) (s : State) : (xferEmit f b s).reads = s.reads := rfl
@[simp] theorem xferEmit_retired (f : InFlight) (b : Byte) (s : State) : (xferEmit f b s).retired = s.retired := rfl
@[simp] theorem xferEmit_panel (f : InFlight) (b : Byte) (s : State) : (xferEmit f b s).panel = Panel.receive s.cfg s.panel ⟨s.dc, b⟩ := rfl
@[simp] theorem xferEmit_cfg (f : InFlight) (b : Byte) (s : State) : (xferEmit f b s).cfg = s.cfg := rfl
@[simp] theorem xferEmit_requests (f : InFlight) (b : Byte) (s : State) : (xferEmit f b s).requests = s.requests := rfl
@[simp] theorem xferEmit_turns (f : InFlight) (b : Byte) (s : State) : (xferEmit f b s).turns = s.turns := rfl
@[simp] theorem xferEmit_sync (f : InFlight) (b : Byte) (s : State) : (xferEmit f b s).sync = s.sync := rfl
@[simp] theorem xferEmit_draws (f : InFlight) (b : Byte) (s : State) : (xferEmit f b s).draws = s.draws := rfl

@[simp] theorem xferComplete_seq (s : State) : (xferComplete s).seq = s.seq := rfl
@[simp] theorem xferComplete_ops (s : State) : (xferComplete s).ops = s.ops := rfl
@[simp] theorem xferComplete_done (s : State) : (xferComplete s).done = true := rfl
@[simp] theorem xferComplete_dc (s : State) : (xferComplete s).dc = s.dc := rfl
@[simp] theorem xferComplete_xfer (s : State) : (xferComplete s).xfer = none := rfl
@[simp] theorem xferComplete_stg (s : State) : (xferComplete s).stg = s.stg := rfl
@[simp] theorem xferComplete_cursor (s : State) : (xferComplete s).cursor = s.cursor := rfl
@[simp] theorem xferComplete_rem (s : State) : (xferComplete s).rem = s.rem := rfl
@[simp] theorem xferComplete_off (s : State) : (xferComplete s).off = s.off := rfl
@[simp] theorem xferComplete_cnt (s : State) : (xferComplete s).cnt = s.cnt := rfl
@[simp] theorem xferComplete_syncTimeout (s : State) : (xferComplete s).syncTimeout = s.syncTimeout := rfl
@[simp] theorem xferComplete_mem (s : State) : (xferComplete s).mem = s.mem := rfl
@[simp] theorem xferComplete_wire (s : State) : (xferComplete s).wire = s.wire := rfl
@[simp] theorem xferComplete_transfers (s : State) : (xferComplete s).transfers = s.transfers ++ [.completed] := rfl
@[simp] theorem xferComplete_reads (s : State) : (xferComplete s).reads = s.reads := rfl
@[simp] theorem xferComplete_retired (s : State) : (xferComplete s).retired = s.retired := rfl
@[simp] theorem xferComplete_panel (s : State) : (xferComplete s).panel = s.panel := rfl
@[simp] theorem xferComplete_cfg (s : State) : (xferComplete s).cfg = s.cfg := rfl
@[simp] theorem xferComplete_requests (s : State) : (xferComplete s).requests = s.requests := rfl
@[simp] theorem xferComplete_turns (s : State) : (xferComplete s).turns = s.turns := rfl
@[simp] theorem xferComplete_sync (s : State) : (xferComplete s).sync = s.sync := rfl
@[simp] theorem xferComplete_draws (s : State) : (xferComplete s).draws = s.draws := rfl

@[simp] theorem accept_seq (load : Latches → Latches) (s : State) : (accept load s).seq = s.seq := rfl
@[simp] theorem accept_ops (load : Latches → Latches) (s : State) : (accept load s).ops = load s.ops := rfl
@[simp] theorem accept_done (load : Latches → Latches) (s : State) : (accept load s).done = s.done := rfl
@[simp] theorem accept_dc (load : Latches → Latches) (s : State) : (accept load s).dc = s.dc := rfl
@[simp] theorem accept_xfer (load : Latches → Latches) (s : State) : (accept load s).xfer = s.xfer := rfl
@[simp] theorem accept_stg (load : Latches → Latches) (s : State) : (accept load s).stg = s.stg.map Slot.unwritten := rfl
@[simp] theorem accept_cursor (load : Latches → Latches) (s : State) : (accept load s).cursor = s.cursor := rfl
@[simp] theorem accept_rem (load : Latches → Latches) (s : State) : (accept load s).rem = s.rem := rfl
@[simp] theorem accept_off (load : Latches → Latches) (s : State) : (accept load s).off = s.off := rfl
@[simp] theorem accept_cnt (load : Latches → Latches) (s : State) : (accept load s).cnt = s.cnt := rfl
@[simp] theorem accept_syncTimeout (load : Latches → Latches) (s : State) : (accept load s).syncTimeout = s.syncTimeout := rfl
@[simp] theorem accept_mem (load : Latches → Latches) (s : State) : (accept load s).mem = s.mem := rfl
@[simp] theorem accept_wire (load : Latches → Latches) (s : State) : (accept load s).wire = s.wire := rfl
@[simp] theorem accept_transfers (load : Latches → Latches) (s : State) : (accept load s).transfers = s.transfers := rfl
@[simp] theorem accept_reads (load : Latches → Latches) (s : State) : (accept load s).reads = s.reads := rfl
@[simp] theorem accept_retired (load : Latches → Latches) (s : State) : (accept load s).retired = s.retired := rfl
@[simp] theorem accept_panel (load : Latches → Latches) (s : State) : (accept load s).panel = s.panel := rfl
@[simp] theorem accept_cfg (load : Latches → Latches) (s : State) : (accept load s).cfg = s.cfg := rfl
@[simp] theorem accept_requests (load : Latches → Latches) (s : State) : (accept load s).requests = s.requests := rfl
@[simp] theorem accept_turns (load : Latches → Latches) (s : State) : (accept load s).turns = s.turns := rfl
@[simp] theorem accept_sync (load : Latches → Latches) (s : State) : (accept load s).sync = s.sync := rfl
@[simp] theorem accept_draws (load : Latches → Latches) (s : State) : (accept load s).draws = s.draws := rfl

@[simp] theorem hold_seq (pos : Position) (s : State) : (hold pos s).seq = .busy pos := rfl
@[simp] theorem hold_ops (pos : Position) (s : State) : (hold pos s).ops = s.ops := rfl
@[simp] theorem hold_done (pos : Position) (s : State) : (hold pos s).done = s.done := rfl
@[simp] theorem hold_dc (pos : Position) (s : State) : (hold pos s).dc = s.dc := rfl
@[simp] theorem hold_xfer (pos : Position) (s : State) : (hold pos s).xfer = s.xfer := rfl
@[simp] theorem hold_stg (pos : Position) (s : State) : (hold pos s).stg = s.stg := rfl
@[simp] theorem hold_cursor (pos : Position) (s : State) : (hold pos s).cursor = s.cursor := rfl
@[simp] theorem hold_rem (pos : Position) (s : State) : (hold pos s).rem = s.rem := rfl
@[simp] theorem hold_off (pos : Position) (s : State) : (hold pos s).off = s.off := rfl
@[simp] theorem hold_cnt (pos : Position) (s : State) : (hold pos s).cnt = s.cnt := rfl
@[simp] theorem hold_syncTimeout (pos : Position) (s : State) : (hold pos s).syncTimeout = s.syncTimeout := rfl
@[simp] theorem hold_mem (pos : Position) (s : State) : (hold pos s).mem = s.mem := rfl
@[simp] theorem hold_wire (pos : Position) (s : State) : (hold pos s).wire = s.wire := rfl
@[simp] theorem hold_transfers (pos : Position) (s : State) : (hold pos s).transfers = s.transfers := rfl
@[simp] theorem hold_reads (pos : Position) (s : State) : (hold pos s).reads = s.reads := rfl
@[simp] theorem hold_retired (pos : Position) (s : State) : (hold pos s).retired = s.retired := rfl
@[simp] theorem hold_panel (pos : Position) (s : State) : (hold pos s).panel = s.panel := rfl
@[simp] theorem hold_cfg (pos : Position) (s : State) : (hold pos s).cfg = s.cfg := rfl
@[simp] theorem hold_requests (pos : Position) (s : State) : (hold pos s).requests = s.requests := rfl
@[simp] theorem hold_turns (pos : Position) (s : State) : (hold pos s).turns = s.turns := rfl
@[simp] theorem hold_sync (pos : Position) (s : State) : (hold pos s).sync = s.sync := rfl
@[simp] theorem hold_draws (pos : Position) (s : State) : (hold pos s).draws = s.draws := rfl

@[simp] theorem retire_seq (s : State) : (retire s).seq = .idle := rfl
@[simp] theorem retire_ops (s : State) : (retire s).ops = s.ops := rfl
@[simp] theorem retire_done (s : State) : (retire s).done = s.done := rfl
@[simp] theorem retire_dc (s : State) : (retire s).dc = s.dc := rfl
@[simp] theorem retire_xfer (s : State) : (retire s).xfer = s.xfer := rfl
@[simp] theorem retire_stg (s : State) : (retire s).stg = s.stg := rfl
@[simp] theorem retire_cursor (s : State) : (retire s).cursor = s.cursor := rfl
@[simp] theorem retire_rem (s : State) : (retire s).rem = s.rem := rfl
@[simp] theorem retire_off (s : State) : (retire s).off = s.off := rfl
@[simp] theorem retire_cnt (s : State) : (retire s).cnt = s.cnt := rfl
@[simp] theorem retire_syncTimeout (s : State) : (retire s).syncTimeout = s.syncTimeout := rfl
@[simp] theorem retire_mem (s : State) : (retire s).mem = s.mem := rfl
@[simp] theorem retire_wire (s : State) : (retire s).wire = s.wire := rfl
@[simp] theorem retire_transfers (s : State) : (retire s).transfers = s.transfers := rfl
@[simp] theorem retire_reads (s : State) : (retire s).reads = s.reads := rfl
@[simp] theorem retire_retired (s : State) : (retire s).retired = s.retired + 1 := rfl
@[simp] theorem retire_panel (s : State) : (retire s).panel = s.panel := rfl
@[simp] theorem retire_cfg (s : State) : (retire s).cfg = s.cfg := rfl
@[simp] theorem retire_requests (s : State) : (retire s).requests = s.requests := rfl
@[simp] theorem retire_turns (s : State) : (retire s).turns = s.turns := rfl
@[simp] theorem retire_sync (s : State) : (retire s).sync = s.sync := rfl
@[simp] theorem retire_draws (s : State) : (retire s).draws = s.draws := rfl

@[simp] theorem advanceChunk_seq (op : Stream) (s : State) : (advanceChunk op s).seq = s.seq := by cases op <;> rfl
@[simp] theorem advanceChunk_ops (op : Stream) (s : State) : (advanceChunk op s).ops = s.ops := by cases op <;> rfl
@[simp] theorem advanceChunk_done (op : Stream) (s : State) : (advanceChunk op s).done = s.done := by cases op <;> rfl
@[simp] theorem advanceChunk_dc (op : Stream) (s : State) : (advanceChunk op s).dc = s.dc := by cases op <;> rfl
@[simp] theorem advanceChunk_xfer (op : Stream) (s : State) : (advanceChunk op s).xfer = s.xfer := by cases op <;> rfl
@[simp] theorem advanceChunk_stg (op : Stream) (s : State) : (advanceChunk op s).stg = s.stg := by cases op <;> rfl
@[simp] theorem advanceChunk_cursor (op : Stream) (s : State) : (advanceChunk op s).cursor = s.cursor := by cases op <;> rfl
@[simp] theorem advanceChunk_cnt (op : Stream) (s : State) : (advanceChunk op s).cnt = s.cnt := by cases op <;> rfl
@[simp] theorem advanceChunk_syncTimeout (op : Stream) (s : State) : (advanceChunk op s).syncTimeout = s.syncTimeout := by cases op <;> rfl
@[simp] theorem advanceChunk_mem (op : Stream) (s : State) : (advanceChunk op s).mem = s.mem := by cases op <;> rfl
@[simp] theorem advanceChunk_wire (op : Stream) (s : State) : (advanceChunk op s).wire = s.wire := by cases op <;> rfl
@[simp] theorem advanceChunk_transfers (op : Stream) (s : State) : (advanceChunk op s).transfers = s.transfers := by cases op <;> rfl
@[simp] theorem advanceChunk_reads (op : Stream) (s : State) : (advanceChunk op s).reads = s.reads := by cases op <;> rfl
@[simp] theorem advanceChunk_retired (op : Stream) (s : State) : (advanceChunk op s).retired = s.retired := by cases op <;> rfl
@[simp] theorem advanceChunk_panel (op : Stream) (s : State) : (advanceChunk op s).panel = s.panel := by cases op <;> rfl
@[simp] theorem advanceChunk_cfg (op : Stream) (s : State) : (advanceChunk op s).cfg = s.cfg := by cases op <;> rfl
@[simp] theorem advanceChunk_requests (op : Stream) (s : State) : (advanceChunk op s).requests = s.requests := by cases op <;> rfl
@[simp] theorem advanceChunk_turns (op : Stream) (s : State) : (advanceChunk op s).turns = s.turns := by cases op <;> rfl
@[simp] theorem advanceChunk_sync (op : Stream) (s : State) : (advanceChunk op s).sync = s.sync := by cases op <;> rfl
@[simp] theorem advanceChunk_draws (op : Stream) (s : State) : (advanceChunk op s).draws = s.draws := by cases op <;> rfl

end Sys2Proof.Machine
end

