-- ==== Sys2Proof/Laws/Wire.lean ====
section
/-! SUPPORT. The wire and the synchronous transmit: events put in parts, a transmit that completes, the eleven bytes
of `setWindow`. -/

namespace Sys2Proof.Machine

@[simp] theorem put_nil (s : State) : put [] s = s := by simp [put]

theorem put_put (es es' : List Event) (s : State) : put es' (put es s) = put (es ++ es') s := by
  simp [put, List.append_assoc, List.foldl_append]

@[simp] theorem tagged_nil (m : Mode) : tagged m [] = [] := rfl
@[simp] theorem tagged_cons (m : Mode) (b : Byte) (bs : List Byte) : tagged m (b :: bs) = ⟨m, b⟩ :: tagged m bs := rfl
theorem tagged_append (m : Mode) (bs bs' : List Byte) : tagged m (bs ++ bs') = tagged m bs ++ tagged m bs' := by
  simp [tagged]

/-- Answers are found by draw number alone. -/
theorem syncAnswer_congr {s t : State} (h : t.sync = s.sync) (k : Nat) : syncAnswer t k = syncAnswer s k := by
  simp [syncAnswer, h]

@[simp] theorem sendEvents_nil (s : State) : sendEvents [] s = s := rfl
@[simp] theorem sendEvents_cons (e : Event) (es : List Event) (s : State) :
    sendEvents (e :: es) s = sendEvents es (syncTx [e.byte] (writeDC e.mode s)) := rfl
theorem sendEvents_append (es es' : List Event) (s : State) :
    sendEvents (es ++ es') s = sendEvents es' (sendEvents es s) := by
  simp [sendEvents, List.foldl_append]

/-- A transmit the bus completes puts all its bytes on the wire (41 R112). -/
theorem syncTx_ok (bs : List Byte) (s : State) (h : syncAnswer s s.draws = .ok) :
    syncTx bs s = { put (tagged s.dc bs) s with draws := s.draws + 1 } := by
  simp [syncTx, h, sentPrefix, timedOut]

/-- Where every answer is `OK`, the events reach the wire as they are, and `DC` keeps the last mode. -/
theorem sendEvents_ok (es : List Event) (s : State) (h : NoSyncTimeout es.length s) :
    sendEvents es s = { put es s with dc := lastMode s.dc es, draws := s.draws + es.length } := by
  induction es generalizing s with
  | nil => simp [lastMode]
  | cons e es ih =>
    have h0 : syncAnswer (writeDC e.mode s) (writeDC e.mode s).draws = .ok := by
      simpa [syncAnswer] using h 0 (by simp)
    rw [sendEvents_cons, syncTx_ok _ _ h0, ih]
    · simp [put, writeDC, lastMode, Nat.add_assoc, Nat.add_comm 1]
    · intro j hj
      have := h (j + 1) (by simpa using hj)
      simpa [syncAnswer, put, writeDC, Nat.add_assoc, Nat.add_comm 1] using this

/-- What arrives depends on the answers and on the number of the next draw alone. -/
theorem arrived_congr {s t : State} (h : t.sync = s.sync) (hd : t.draws = s.draws) (es : List Event) :
    arrived t es = arrived s es := by
  simp only [arrived, hd, syncAnswer_congr h]

@[simp] theorem arrived_nil (s : State) : arrived s [] = [] := rfl

theorem arrived_cons (e : Event) (es : List Event) (s : State) :
    arrived s (e :: es) =
      tagged e.mode (sentPrefix (syncAnswer s s.draws) [e.byte]) ++ arrived { s with draws := s.draws + 1 } es := by
  simp only [arrived, List.zipIdx_cons, List.flatMap_cons, Nat.add_zero, Nat.zero_add]
  congr 1
  rw [List.zipIdx_succ, List.flatMap_map]
  simp only [Nat.add_assoc, Nat.add_comm 1]
  rfl

/-- Whatever the bus answers: what arrived of the events is on the wire, `DC` keeps the last mode, and the mark is set
exactly if it was set or a byte timed out (41 R112, R114). -/
theorem sendEvents_eq (es : List Event) (s : State) :
    sendEvents es s = { put (arrived s es) s with
      dc := lastMode s.dc es
      syncTimeout := s.syncTimeout || (List.range es.length).any fun j => timedOut (syncAnswer s (s.draws + j))
      draws := s.draws + es.length } := by
  induction es generalizing s with
  | nil => simp [lastMode]
  | cons e es ih =>
    rw [sendEvents_cons, ih, arrived_cons, ← put_put,
      arrived_congr (s := { s with draws := s.draws + 1 }) (t := syncTx [e.byte] (writeDC e.mode s)) rfl rfl]
    simp only [List.length_cons, List.range_succ_eq_map, List.any_cons, List.any_map, Nat.add_zero, ← Bool.or_assoc]
    simp only [syncTx, writeDC, put, lastMode, List.foldl_cons, syncAnswer, Function.comp_def, Nat.add_assoc,
      Nat.add_comm 1, Nat.succ_eq_add_one]

/-- `setWindow` whatever the bus answers. -/
theorem setWindow_eq (xs ys xe ye : Half) (s : State) :
    setWindow xs ys xe ye s = { put (arrived s (windowEvents s.cfg xs ys xe ye)) s with
      dc := .data
      syncTimeout := s.syncTimeout || (List.range 11).any fun j => timedOut (syncAnswer s (s.draws + j))
      draws := s.draws + 11 } := by
  rw [setWindow, sendEvents_eq]
  rfl

/-- `setWindow` under `NoSyncTimeout`. -/
theorem setWindow_ok (xs ys xe ye : Half) (s : State) (h : NoSyncTimeout 11 s) :
    setWindow xs ys xe ye s =
      { put (windowEvents s.cfg xs ys xe ye) s with dc := .data, draws := s.draws + 11 } := by
  rw [setWindow, sendEvents_ok _ _ (by simpa [windowEvents] using h)]
  rfl

/-- What sending bytes can change: `DC`, the wire, the panel, the mark `SyncTimeout` and the draws. -/
theorem sendEvents_frame (es : List Event) (s : State) :
    sendEvents es s =
      { s with
        dc := (sendEvents es s).dc
        wire := (sendEvents es s).wire
        panel := (sendEvents es s).panel
        syncTimeout := (sendEvents es s).syncTimeout
        draws := (sendEvents es s).draws } := by
  induction es generalizing s with
  | nil => rfl
  | cons e es ih => rw [sendEvents_cons, ih]; rfl

/-- Sending bytes only adds to the wire. -/
theorem sendEvents_wire (es : List Event) (s : State) : s.wire <+: (sendEvents es s).wire := by
  induction es generalizing s with
  | nil => exact List.prefix_rfl
  | cons e es ih =>
    rw [sendEvents_cons]
    refine List.IsPrefix.trans ?_ (ih (syncTx [e.byte] (writeDC e.mode s)))
    simp

/-- `DC` after sending bytes is the mode of the last, whatever the bus answers (41 R114). -/
theorem sendEvents_dc (es : List Event) (s : State) : (sendEvents es s).dc = lastMode s.dc es := by
  induction es generalizing s with
  | nil => rfl
  | cons e es ih => rw [sendEvents_cons, ih]; rfl

end Sys2Proof.Machine
end

