-- ==== Sys2Proof/Laws/Operations.lean ====
section
/-! SUPPORT. What the lines of primitives do, and each meaning in closed form: framed bytes on a free bus are
`sendEvents`, one turn of the chunk loop prepares, begins and lets XFER move. -/

namespace Sys2Proof.Machine

@[simp] theorem performAll_nil (s : State) : performAll [] s = .next s := rfl
@[simp] theorem performAll_cons (p : Primitive) (ps : List Primitive) (s : State) :
    performAll (p :: ps) s = andThen (perform p s) (performAll ps) := rfl

theorem performAll_append (ps qs : List Primitive) (s : State) :
    performAll (ps ++ qs) s = andThen (performAll ps s) (performAll qs) := by
  induction ps generalizing s with
  | nil => rfl
  | cons p ps ih =>
    rw [List.cons_append, performAll_cons, performAll_cons, andThen_assoc]
    exact congrArg (andThen (perform p s)) (funext ih)

theorem onFreeBus_free {s : State} (hx : s.xfer = none) (k : State → Out) : onFreeBus s k = k s := by
  unfold onFreeBus; rw [hx]

theorem onFreeBus_busy {s : State} {f : InFlight} (hx : s.xfer = some f) (k : State → Out) :
    onFreeBus s k = .fault .busConflict := by
  unfold onFreeBus; rw [hx]

theorem whenDone_true {s : State} (hd : s.done = true) (k : State → Out) : whenDone s k = k s := if_pos hd

theorem whenDone_false {s : State} (hd : s.done = false) (k : State → Out) : whenDone s k = .fault .xferOverlap :=
  if_neg (by rw [hd]; simp)

/-- The line that sends one event. -/
def eventLine (e : Event) : List Primitive := [.drive e.mode, .transmit [e.byte]]

/-- Framed bytes on a free bus. -/
theorem performAll_events (es : List Event) (s : State) (hx : s.xfer = none) :
    performAll (es.flatMap eventLine) s = .next (sendEvents es s) := by
  induction es generalizing s with
  | nil => rfl
  | cons e es ih =>
    have : (e :: es).flatMap eventLine = .drive e.mode :: .transmit [e.byte] :: es.flatMap eventLine := rfl
    rw [this, performAll_cons, perform, onFreeBus_free hx, andThen_next, performAll_cons, perform,
      onFreeBus_free (by simpa using hx), andThen_next, ih _ (by simpa using hx)]
    rfl

theorem commandLine_eq (b : Byte) : commandLine b = [⟨.command, b⟩].flatMap eventLine := rfl
theorem dataLine_eq (b : Byte) : dataLine b = [⟨.data, b⟩].flatMap eventLine := rfl

theorem windowLine_eq (cfg : Config) (xs ys xe ye : Half) :
    windowLine cfg xs ys xe ye = (windowEvents cfg xs ys xe ye).flatMap eventLine ++ [.drive .data] := rfl

theorem tableLine_eq (t : List InitEntry) : tableLine t = (tableEvents t).flatMap eventLine := by
  have key : ∀ ds : List Byte, ds.flatMap dataLine = (tagged .data ds).flatMap eventLine := by
    intro ds
    induction ds with
    | nil => rfl
    | cons d ds ih => rw [List.flatMap_cons, tagged_cons, List.flatMap_cons, ih]; rfl
  induction t with
  | nil => rfl
  | cons e t ih =>
    have h : tableEvents (e :: t) = (⟨.command, e.command⟩ :: tagged .data e.data) ++ tableEvents t := rfl
    rw [h, List.flatMap_append, ← ih, List.flatMap_cons, ← key]
    rfl

/-- The window on a free bus. -/
theorem performAll_window (xs ys xe ye : Half) (s : State) (hx : s.xfer = none) :
    performAll (windowLine s.cfg xs ys xe ye) s = .next (setWindow xs ys xe ye s) := by
  rw [windowLine_eq, performAll_append, performAll_events _ _ hx, andThen_next, performAll_cons, perform,
    onFreeBus_free (by simpa using hx)]
  rfl

/-- A line of unpacking is `unpackFrom`. -/
theorem performAll_unpack (n i : Nat) (s : State) :
    performAll ((List.range' i n).map .unpack) s = unpackFrom n i s := by
  induction n generalizing i s with
  | zero => rfl
  | succ n ih =>
    rw [List.range'_succ, List.map_cons, performAll_cons, perform, unpackFrom]
    exact congrArg (andThen (unpackOne i s)) (funext (ih (i + 1)))

/-- One turn of the chunk loop: prepare, begin, and XFER's turns while ENGINE holds (43 R132). -/
theorem chunkTurn_eq (op : Stream) (s : State) :
    chunkTurn op s = andThen (prepareChunk op s) fun s =>
      andThen (beginTransfer (chunkSource op s) (chunkBytes op s) s) fun s => xferTurns s.turns s := by
  have last (op : Stream) (s : State) :
      performAll [.beginChunk op] s = beginTransfer (chunkSource op s) (chunkBytes op s) s := by
    rw [performAll_cons, perform]
    cases beginTransfer (chunkSource op s) (chunkBytes op s) s <;> rfl
  unfold chunkTurn
  cases op with
  | fill => rw [chunkLine, last]; rfl
  | colour => rw [chunkLine, last]; rfl
  | mono =>
    rw [chunkLine, performAll_cons, perform, andThen_next, performAll_append, List.range_eq_range', performAll_unpack,
      andThen_assoc]
    simp only [last]
    rfl

theorem streamLoop_finish (op : Stream) (fuel : Nat) (s : State) (h : s.rem = 0) :
    streamLoop op fuel s = .next (retire s) := by
  cases fuel <;> simp [streamLoop, h]

/-! ### The meanings in closed form -/

theorem run_retire (todo : List Primitive) (s : State) :
    run todo .retire s = andThen (performAll todo s) fun s => .next (retire s) := rfl

/-- On a free bus `f` and `g` agree; on a busy one neither is run. -/
theorem onFreeBus_congr {s : State} {f g : State → Out} (h : s.xfer = none → f s = g s) : onFreeBus s f = onFreeBus s g := by
  rcases hx : s.xfer with _ | x
  · rw [onFreeBus_free hx, onFreeBus_free hx, h hx]
  · rw [onFreeBus_busy hx, onFreeBus_busy hx]

theorem execSendCommand_eq (code : Byte) (s : State) :
    execSendCommand code s = whenIdle s fun s =>
      onFreeBus (accept (fun o => { o with arg := code }) s) fun s => .next (retire (sendCommand code s)) := by
  unfold execSendCommand acceptSendCommand
  congr 1; funext s
  exact onFreeBus_congr fun hx => by rw [run, commandLine_eq, performAll_events _ _ hx]; rfl

theorem execSendDataByte_eq (value : Byte) (s : State) :
    execSendDataByte value s = whenIdle s fun s =>
      onFreeBus (accept (fun o => { o with arg := value }) s) fun s => .next (retire (sendDataByte value s)) := by
  unfold execSendDataByte acceptSendDataByte
  congr 1; funext s
  exact onFreeBus_congr fun hx => by rw [run, dataLine_eq, performAll_events _ _ hx]; rfl

/-- A line that starts with a window, on a free bus. -/
theorem run_window (xs ys xe ye : Half) (ps : List Primitive) (e : Ending) (s : State) (hx : s.xfer = none) :
    run (windowLine s.cfg xs ys xe ye ++ ps) e s = run ps e (setWindow xs ys xe ye s) := by
  rw [run, performAll_append, performAll_window _ _ _ _ _ hx]; rfl

theorem execSetWindow_eq (xs ys xe ye : Half) (s : State) :
    execSetWindow xs ys xe ye s = whenIdle s fun s =>
      onFreeBus (accept (fun o => { o with x := xs, y := ys, w := xe, h := ye }) s) fun s =>
      .next (retire (setWindow xs ys xe ye s)) := by
  unfold execSetWindow acceptSetWindow
  congr 1; funext s
  exact onFreeBus_congr fun hx => by
    rw [run]
    exact congrArg (andThen · (finish .retire)) (performAll_window xs ys xe ye _ hx)

theorem execPlotPixel_eq (x y colour : Half) (s : State) :
    execPlotPixel x y colour s = whenIdle s fun s =>
      let s := accept (fun o => { o with x := x, y := y, c0 := colour }) s
      if x.toNat < s.cfg.panelWidth ∧ y.toNat < s.cfg.panelHeight then
        onFreeBus s fun s => .next (retire (syncTx [hi8 colour, lo8 colour] (setWindow x y x y s)))
      else .next (retire s) := by
  unfold execPlotPixel acceptPlotPixel
  congr 1; funext s
  dsimp only
  split
  · exact onFreeBus_congr fun hx => by
      rw [run_window _ _ _ _ _ _ _ hx, run, performAll_cons, perform, onFreeBus_free (by simpa using hx)]; rfl
  · rfl

theorem execBeginAsyncTransfer_eq (p len : Word) (s : State) :
    execBeginAsyncTransfer p len s = whenIdle s fun s =>
      if len = 0 then .refused .emptyTransfer
      else
        requireRange s.cfg p len.toNat <|
        andThen (beginTransfer (.mem p.toNat) len.toNat (accept (fun o => { o with ptr := p, len := len }) s)) fun s =>
        .next (retire s) := by
  unfold execBeginAsyncTransfer acceptBeginAsyncTransfer
  congr 1; funext s
  split
  · rfl
  · congr 1
    unfold beginTransfer
    rcases hd : (accept (fun o => { o with ptr := p, len := len }) s).done with _ | _
    · rw [whenDone_false hd, whenDone_false hd]; rfl
    · rw [whenDone_true hd, whenDone_true hd, run, performAll_cons, perform, beginTransfer, whenDone_true hd]; rfl

theorem execAwaitCompletion_eq (s : State) :
    execAwaitCompletion s = whenIdle s fun s => awaitDirect (accept id s) := rfl

/-- The opening of a streaming operation on a free bus. -/
theorem run_stream (op : Stream) (x y w h : Half) (s : State) (hx : s.xfer = none) :
    run (streamLine op s.cfg x y w h) (.loop op) s =
      stream op (startCounters op
        (match op with
        | .fill => prefill s.ops.c0 (openWindow x y w h s)
        | .colour => openWindow x y w h s
        | .mono => openWindow x y w h s)) := by
  unfold streamLine
  rw [run_window _ _ _ _ _ _ _ hx]
  cases op
  · rw [run, performAll_cons, perform, andThen_next, performAll_cons, perform, andThen_next, performAll_nil, andThen_next]
    simp only [openWindow, setWindow_ops, finish]
  · rfl
  · rfl

theorem execFillRectangle_eq (x y w h c : Half) (s : State) :
    execFillRectangle x y w h c s = whenIdle s fun s =>
      requireRectangle x y w h <|
      onFreeBus (accept (fun o => { o with x := x, y := y, w := w, h := h, c0 := c }) s) fun s =>
      stream .fill { prefill c (openWindow x y w h s) with rem := totalBytes w h } := by
  unfold execFillRectangle acceptFillRectangle
  congr 1; funext s
  congr 1
  exact onFreeBus_congr fun hx => by rw [run_stream _ _ _ _ _ _ hx]; simp [startCounters]

theorem execDrawColourBitmap_eq (x y w h : Half) (p : Word) (s : State) :
    execDrawColourBitmap x y w h p s = whenIdle s fun s =>
      requireRectangle x y w h <|
      requireRange s.cfg p (totalBytes w h) <|
      onFreeBus (accept (fun o => { o with x := x, y := y, w := w, h := h, ptr := p }) s) fun s =>
      stream .colour { openWindow x y w h s with off := 0, rem := totalBytes w h } := by
  unfold execDrawColourBitmap acceptDrawColourBitmap
  congr 1; funext s
  congr 2
  exact onFreeBus_congr fun hx => by rw [run_stream _ _ _ _ _ _ hx]; simp [startCounters]

theorem execDrawMonoBitmap_eq (x y w h : Half) (p : Word) (fg bg : Half) (s : State) :
    execDrawMonoBitmap x y w h p fg bg s = whenIdle s fun s =>
      requireRectangle x y w h <|
      requireRange s.cfg p (monoBytes w h) <|
      onFreeBus (accept (fun o => { o with x := x, y := y, w := w, h := h, ptr := p, c0 := fg, c1 := bg }) s) fun s =>
      stream .mono { openWindow x y w h s with cursor := ⟨p.toNat, 0x80, 0⟩, rem := totalPixels w h } := by
  unfold execDrawMonoBitmap acceptDrawMonoBitmap
  congr 1; funext s
  congr 2
  exact onFreeBus_congr fun hx => by rw [run_stream _ _ _ _ _ _ hx]; simp [startCounters]

theorem execReset_eq (s : State) :
    execReset s = whenIdle s fun s =>
      match s.cfg.resetSeq with
      | none => .refused .noResetSequence
      | some _ =>
        onFreeBus (accept id s) fun s =>
        .next (retire { writeDC (Config.freeMode s.draws) s with
          draws := s.draws + 1
          panel := Panel.unspecified true false (s.panel.draw + 1) }) := by
  unfold execReset acceptReset
  congr 1; funext s
  rcases hq : s.cfg.resetSeq with _ | q
  · rfl
  · exact onFreeBus_congr fun hx => by
      rw [run, performAll_cons, perform, onFreeBus_free hx, andThen_next,
        performAll_cons, perform, onFreeBus_free (by simpa using hx)]
      rfl

theorem execInit_eq (s : State) :
    execInit s = whenIdle s fun s =>
      match s.cfg.initSeq with
      | none => .refused .noInitTable
      | some table =>
        onFreeBus (accept id s) fun s =>
        let s := sendEvents (tableEvents table) s
        .next (retire { s with panel := s.panel.afterInit (!s.syncTimeout) }) := by
  unfold execInit acceptInit
  congr 1; funext s
  rcases hq : s.cfg.initSeq with _ | q
  · rfl
  · exact onFreeBus_congr fun hx => by
      rw [run, performAll_append, tableLine_eq, performAll_events _ _ hx]
      rfl

end Sys2Proof.Machine
end

