-- ==== Sys2Proof/Laws/Transfer.lean ====
section
/-! SUPPORT. The XFER agent: what each of its steps answers, all that a step can do, and a whole transfer carried to its
end. -/

namespace Sys2Proof.Machine

/-- What a read of source memory answers when the byte is there (20_memory R53). -/
theorem readSource_of_some {a : Nat} {s : State} {b : Byte} (k : Byte → State → Out) (ha : a < 2 ^ s.cfg.addrW)
    (hb : Memory.read s.mem a = some b) : readSource a s k = k b { s with reads := s.reads ++ [a] } := by
  simp [readSource, ha, hb]

/-- All that a read of source memory can do. -/
theorem readSource_meets {P : State → Prop} {F : Fault → Prop} {R : Refusal → Prop} {a : Nat} {s : State}
    {k : Byte → State → Out}
    (hk : ∀ b, a < 2 ^ s.cfg.addrW → Memory.read s.mem a = some b → Meets P F R (k b { s with reads := s.reads ++ [a] }))
    (hF : F .unplacedSourceRead) (hR : R .addressWrap) : Meets P F R (readSource a s k) := by
  unfold readSource
  split
  · split
    · rename_i h _ b hb; exact hk b h hb
    · exact hF
  · exact hR

/-- The byte that a transfer from `src` sends as its byte number `k` (43 R136). -/
def sourceByte (s : State) (src : Source) (k : Nat) : Option Byte :=
  match src with
  | .staging => stagingByte s.stg k
  | .mem a => if a + k < 2 ^ s.cfg.addrW then Memory.read s.mem (a + k) else none

/-- The reads of source memory that sending byte number `k` makes. -/
def sourceReads (src : Source) (k : Nat) : List Nat :=
  match src with
  | .staging => []
  | .mem a => [a + k]

/-- An emit step whose byte is there (43 R136). -/
theorem xferStep_emit {s : State} {src : Source} {len sent : Nat} {b : Byte} (hx : s.xfer = some ⟨src, len, sent⟩)
    (hl : sent < len) (hb : sourceByte s src sent = some b) :
    xferStep s = .next (xferEmit ⟨src, len, sent⟩ b { s with reads := s.reads ++ sourceReads src sent }) := by
  unfold xferStep
  rw [hx]
  cases src with
  | staging =>
    simp only [sourceByte] at hb
    simp only [hl, if_true, hb, sourceReads, List.append_nil]
    rfl
  | mem a =>
    simp only [sourceByte] at hb
    split at hb
    · rename_i ha
      simp only [hl, if_true, readSource_of_some _ ha hb, sourceReads]
      rfl
    · simp at hb

/-- The completion step (43 R137). -/
theorem xferStep_complete {s : State} {src : Source} {len : Nat} (hx : s.xfer = some ⟨src, len, len⟩) :
    xferStep s = .next (xferComplete s) := by
  simp [xferStep, hx]

theorem xferStep_idle {s : State} (hx : s.xfer = none) : xferStep s = .next s := by
  simp [xferStep, hx]

/-- All that XFER's turn can do. -/
theorem xferStep_meets {P : State → Prop} {F : Fault → Prop} {R : Refusal → Prop} {s : State}
    (same : (s.xfer = none ∨ ∃ f, s.xfer = some f ∧ f.len < f.sent) → P s)
    (emit : ∀ src len sent b, s.xfer = some ⟨src, len, sent⟩ → sent < len → sourceByte s src sent = some b →
      P (xferEmit ⟨src, len, sent⟩ b { s with reads := s.reads ++ sourceReads src sent }))
    (complete : ∀ src len, s.xfer = some ⟨src, len, len⟩ → P (xferComplete s))
    (unwritten : ∀ len sent, s.xfer = some ⟨.staging, len, sent⟩ → sent < len → stagingByte s.stg sent = none →
      F .unwrittenStagingRead)
    (unplaced : F .unplacedSourceRead)
    (wrap : ∀ a len sent, s.xfer = some ⟨.mem a, len, sent⟩ → sent < len → 2 ^ s.cfg.addrW ≤ a + sent →
      R .addressWrap) :
    Meets P F R (xferStep s) := by
  rcases hx : s.xfer with _ | ⟨src, len, sent⟩
  · rw [xferStep_idle hx]; exact same (.inl hx)
  · rcases Nat.lt_trichotomy sent len with hl | he | hg
    · rcases hb : sourceByte s src sent with _ | b
      · unfold xferStep
        rw [hx]
        cases src with
        | staging =>
          simp only [sourceByte] at hb
          simp only [hl, if_true, hb]
          exact unwritten len sent hx hl hb
        | mem a =>
          simp only [hl, if_true, readSource]
          simp only [sourceByte] at hb
          split
          · rename_i ha
            simp only [ha, if_true] at hb
            simp only [hb]; exact unplaced
          · rename_i ha; exact wrap a len sent hx hl (by omega)
      · rw [xferStep_emit hx hl hb]; exact emit src len sent b hx hl hb
    · subst he; rw [xferStep_complete hx]; exact complete src sent hx
    · have : xferStep s = .next s := by
        unfold xferStep; rw [hx]
        simp only []
        rw [if_neg (by omega), if_neg (by omega)]
      rw [this]; exact same (.inr ⟨_, hx, hg⟩)

/-- The turns XFER takes while ENGINE holds, as a rule: what every XFER turn keeps holds of their end. -/
theorem xferTurns_meets {I : State → Prop} {F : Fault → Prop} {R : Refusal → Prop}
    (turn : ∀ s ts, I s → s.done = false → Meets I F R (xferStep { s with turns := ts }))
    (ts : List Turn) (s : State) (h : I s) : Meets I F R (xferTurns ts s) := by
  induction ts generalizing s with
  | nil => exact h
  | cons t ts ih =>
    cases t with
    | engine => exact h
    | primitive => exact h
    | hostWrite a b => exact h
    | xfer =>
      simp only [xferTurns]
      split
      · exact h
      · rename_i hd
        exact ((turn s ts h (by simpa using hd)).weaken fun s hs => ih s hs).andThen

@[simp] theorem xferTurns_done (ts : List Turn) (s : State) (h : s.done = true) : xferTurns ts s = .next s := by
  cases ts with
  | nil => rfl
  | cons t ts => cases t <;> simp [xferTurns, h]

/-- A transfer whose remaining bytes are `img` is carried to its end: the bytes in order in the mode `DC` holds, then the
completion (43 R136, R137). -/
theorem xferTurns_carry (src : Source) (sent : Nat) (img : List Byte) (rest : List Turn) (s : State)
    (hx : s.xfer = some ⟨src, sent + img.length, sent⟩) (hd : s.done = false)
    (hb : ∀ j (h : j < img.length), sourceByte s src (sent + j) = some img[j]) :
    xferTurns (List.replicate (img.length + 1) .xfer ++ rest) s = .next { s with
      done := true
      xfer := none
      wire := s.wire ++ tagged s.dc img
      panel := (tagged s.dc img).foldl (Panel.receive s.cfg) s.panel
      transfers := s.transfers ++ [.completed]
      reads := s.reads ++ (List.range img.length).flatMap fun j => sourceReads src (sent + j)
      turns := rest } := by
  induction img generalizing s sent with
  | nil =>
    have hx' : ({ s with turns := rest } : State).xfer = some ⟨src, sent, sent⟩ := by simpa using hx
    simp only [List.length_nil, Nat.zero_add, List.replicate_one, List.singleton_append, xferTurns]
    rw [if_neg (by simp [hd]), xferStep_complete hx']
    simp [xferComplete, setDone]
  | cons b img ih =>
    have hl : sent < sent + (b :: img).length := by simp
    have h0 : sourceByte { s with turns := List.replicate (img.length + 1) .xfer ++ rest } src sent = some b := by
      have := hb 0 (by simp)
      rw [Nat.add_zero] at this
      rw [← List.getElem_cons_zero b img (by simp), ← this]
      cases src <;> rfl
    have hx' : ({ s with turns := List.replicate (img.length + 1) .xfer ++ rest } : State).xfer =
        some ⟨src, sent + (b :: img).length, sent⟩ := hx
    rw [List.length_cons, List.replicate_succ, List.cons_append]
    simp only [xferTurns]
    rw [if_neg (by simp [hd]), xferStep_emit hx' hl h0, andThen_next, ih (sent + 1)]
    · simp only [xferEmit, put, List.foldl_cons, List.foldl_nil, tagged_cons, List.append_assoc, List.singleton_append,
        List.range_succ_eq_map, List.flatMap_cons, List.flatMap_map, Nat.add_zero, Nat.succ_eq_add_one,
        Nat.add_assoc, Nat.add_comm 1]
    · simp [Nat.add_assoc, Nat.add_comm 1]
    · simpa using hd
    · intro j hj
      have := hb (j + 1) (by simpa using hj)
      simp only [List.getElem_cons_succ] at this
      rw [← this]
      have : sent + 1 + j = sent + (j + 1) := by omega
      rw [this]
      cases src <;> rfl

end Sys2Proof.Machine
end

