-- ==== Sys2Proof/Laws/Streaming.lean ====
section
/-! SUPPORT. The chunk loop: a rule to reason about it chunk by chunk, and what it answers for each streaming operation
when XFER has its turns. -/

namespace Sys2Proof.Machine

variable {F : Fault → Prop} {R : Refusal → Prop}

/-- The rule of the chunk loop: `I` at the head of every turn, `P` of what the operation answers. -/
theorem streamLoop_meets {I P : State → Prop} (op : Stream)
    (turn : ∀ s, I s → s.rem ≠ 0 →
      Meets (fun t => if t.done then I (advanceChunk op t) else P (hold (.awaitChunk op) t)) F R (chunkTurn op s))
    (finish : ∀ s, I s → P (retire s)) (fuel : Nat) (s : State) (h : I s) : Meets P F R (streamLoop op fuel s) := by
  induction fuel generalizing s with
  | zero => exact finish s h
  | succ fuel ih =>
    simp only [streamLoop]
    split
    · exact finish s h
    · rename_i hr
      refine ((turn s h hr).weaken fun t ht => ?_).andThen
      split at ht
      · rename_i hd; simp only [hd, if_true]; exact ih _ ht
      · rename_i hd; simp only [hd, Bool.false_eq_true, if_false]; exact ht

/-- A chunk that is prepared and whose transfer XFER carries to its end. -/
theorem chunkTurn_carry (op : Stream) (s s1 : State) (img : List Byte) (rest : List Turn)
    (hp : prepareChunk op s = .next s1) (hd : s1.done = true) (hlen : chunkBytes op s1 = img.length)
    (hb : ∀ j (h : j < img.length), sourceByte s1 (chunkSource op s1) j = some img[j])
    (ht : s1.turns = List.replicate (img.length + 1) .xfer ++ rest) :
    chunkTurn op s = .next { s1 with
      done := true
      xfer := none
      wire := s1.wire ++ tagged s1.dc img
      panel := (tagged s1.dc img).foldl (Panel.receive s1.cfg) s1.panel
      transfers := s1.transfers ++ [.begun (chunkSource op s1) img.length, .completed]
      reads := s1.reads ++ (List.range img.length).flatMap (sourceReads (chunkSource op s1))
      turns := rest } := by
  rw [chunkTurn_eq, hp, andThen_next, beginTransfer, whenDone, if_pos hd, andThen_next]
  rw [show ({ clearDone s1 with
      xfer := some ⟨chunkSource op s1, chunkBytes op s1, 0⟩
      transfers := s1.transfers ++ [.begun (chunkSource op s1) (chunkBytes op s1)] } : State).turns =
    List.replicate (img.length + 1) .xfer ++ rest from ht]
  rw [xferTurns_carry (chunkSource op s1) 0 img rest]
  · simp [clearDone, hlen, List.append_assoc]
  · simp [hlen]
  · rfl
  · intro j hj
    rw [Nat.zero_add, ← hb j hj]
    cases chunkSource op s1 <;> rfl

@[simp] theorem flatMap_sourceReads_staging (l : List Nat) : l.flatMap (sourceReads .staging) = [] := by
  induction l <;> simp_all [sourceReads]

theorem replicate_turns {a b : Nat} {rest : List Turn} :
    List.replicate (a + b) Turn.xfer ++ rest = List.replicate a .xfer ++ (List.replicate b .xfer ++ rest) := by
  rw [← List.append_assoc, List.replicate_append_replicate]

/-- The fill's chunk loop with XFER's turns (44 R152): the rest of the rectangle goes out and the operation retires. -/
theorem streamLoop_fill (c : Half) (fuel px : Nat) (rest : List Turn) (s : State) (hn : 1 ≤ s.cfg.n)
    (hrem : s.rem = 2 * px) (hf : px ≤ fuel) (hd : s.done = true) (hx : s.xfer = none)
    (hs : s.stg = List.replicate s.cfg.n (slotOf c)) (hm : s.dc = .data)
    (ht : s.turns = List.replicate (streamTurns s.cfg.nb (2 * px)) .xfer ++ rest) :
    streamLoop .fill fuel s = .next (retire { s with
      rem := 0
      wire := s.wire ++ pixelEvents (List.replicate px c)
      panel := (pixelEvents (List.replicate px c)).foldl (Panel.receive s.cfg) s.panel
      transfers := s.transfers ++ chunkEvents (fun _ => .staging) s.cfg.nb (2 * px)
      turns := rest }) := by
  have hnb : 1 ≤ s.cfg.nb := by unfold Config.nb; omega
  induction fuel generalizing px s with
  | zero =>
    obtain rfl : px = 0 := by omega
    simp only [Nat.mul_zero, streamTurns_zero hnb, List.replicate_zero, List.nil_append] at ht hrem
    subst ht
    rw [streamLoop_finish _ _ _ hrem, Nat.mul_zero, chunkEvents_zero _ hnb]
    cases s; simp_all [pixelEvents]
  | succ fuel ih =>
    rcases Nat.eq_zero_or_pos px with rfl | hp
    · simp only [Nat.mul_zero, streamTurns_zero hnb, List.replicate_zero, List.nil_append] at ht hrem
      subst ht
      rw [streamLoop_finish _ _ _ hrem, Nat.mul_zero, chunkEvents_zero _ hnb]
      cases s; simp_all [pixelEvents]
    · have h2 : 1 ≤ 2 * px := by omega
      have hmin : min s.cfg.nb (2 * px) = 2 * min s.cfg.n px := by unfold Config.nb; omega
      rw [streamTurns_step hnb h2, replicate_turns] at ht
      simp only [streamLoop]
      rw [if_neg (by omega), chunkTurn_carry .fill s s (colourBytes (List.replicate (min s.cfg.n px) c))
        (List.replicate (streamTurns s.cfg.nb (2 * px - s.cfg.nb)) .xfer ++ rest) rfl hd
        (by simp [chunkBytes, hrem, Config.nb]; omega)
        (by
          intro j hj
          rw [getElem_colourBytes]
          simp only [sourceByte, chunkSource, hs, List.getElem_replicate]
          simp only [length_colourBytes, List.length_replicate] at hj
          exact stagingByte_of_slot (by rw [List.getElem?_replicate]; simp; omega))
        (by rw [ht]; simp [hmin])]
      rw [andThen_next, if_pos rfl, ih (px - min s.cfg.n px)]
      · have e1 : 2 * px - s.cfg.nb = 2 * (px - min s.cfg.n px) := by unfold Config.nb; omega
        have e2 : pixelEvents (List.replicate px c) = tagged .data (colourBytes (List.replicate (min s.cfg.n px) c)) ++
            pixelEvents (List.replicate (px - min s.cfg.n px) c) := by
          rw [← pixelEvents_eq_tagged, ← pixelEvents_append, List.replicate_append_replicate]
          congr 2; omega
        rw [chunkEvents_step _ hnb h2, e1, e2, hmin]
        simp [advanceChunk, chunkSource, hm, hd, hx, List.append_assoc, List.foldl_append, hrem]
      · exact hn
      · simp [advanceChunk, hrem, Config.nb]; omega
      · have : 1 ≤ min s.cfg.n px := by omega
        omega
      · rfl
      · rfl
      · exact hs
      · exact hm
      · simp [advanceChunk, Config.nb]; congr 2; omega
      · exact hnb

theorem map_range_split (a b p : Nat) :
    (List.range (a + b)).map (p + ·) = (List.range a).map (p + ·) ++ (List.range b).map (p + a + ·) := by
  rw [List.range_add, List.map_append, List.map_map]
  congr 1
  apply List.map_congr_left
  intro j _
  simp only [Function.comp_apply]; omega

theorem flatMap_sourceReads_mem (a n : Nat) :
    (List.range n).flatMap (sourceReads (.mem a)) = (List.range n).map (a + ·) := by
  have : ∀ l : List Nat, l.flatMap (sourceReads (.mem a)) = l.map (a + ·) := by
    intro l; induction l <;> simp_all [sourceReads]
  exact this _

/-- The state of a colour blit once the bytes `img`, the rest of its image, are out. -/
def colourSent (img : List Byte) (rest : List Turn) (s : State) : State :=
  { s with
    rem := 0
    off := s.off + img.length
    wire := s.wire ++ tagged .data img
    panel := (tagged .data img).foldl (Panel.receive s.cfg) s.panel
    transfers := s.transfers ++
      chunkEvents (fun j => .mem (s.ops.ptr.toNat + s.off + j * s.cfg.nb)) s.cfg.nb img.length
    reads := s.reads ++ (List.range img.length).map (s.ops.ptr.toNat + s.off + ·)
    turns := rest }

/-- The colour blit's chunk loop with XFER's turns (45 R165): the rest of the image goes out, unchanged. -/
theorem streamLoop_colour (fuel : Nat) (img : List Byte) (rest : List Turn) (s : State) (hn : 1 ≤ s.cfg.n)
    (hrem : s.rem = img.length) (hf : img.length ≤ fuel) (hd : s.done = true) (hx : s.xfer = none)
    (hm : s.dc = .data) (hr : s.ops.ptr.toNat + s.off + img.length ≤ 2 ^ s.cfg.addrW)
    (hi : Holds s.mem (s.ops.ptr.toNat + s.off) img)
    (ht : s.turns = List.replicate (streamTurns s.cfg.nb img.length) .xfer ++ rest) :
    streamLoop .colour fuel s = .next (retire (colourSent img rest s)) := by
  induction fuel generalizing img s with
  | zero =>
    have hnb : 1 ≤ s.cfg.nb := by unfold Config.nb; omega
    obtain rfl : img = [] := List.length_eq_zero_iff.mp (by omega)
    simp only [List.length_nil, streamTurns_zero hnb, List.replicate_zero, List.nil_append] at ht hrem
    rw [streamLoop_finish _ _ _ hrem, colourSent, List.length_nil, chunkEvents_zero _ hnb]
    cases s; simp_all
  | succ fuel ih =>
    have hnb : 1 ≤ s.cfg.nb := by unfold Config.nb; omega
    rcases Nat.eq_zero_or_pos img.length with h0 | hp
    · obtain rfl : img = [] := List.length_eq_zero_iff.mp h0
      simp only [List.length_nil, streamTurns_zero hnb, List.replicate_zero, List.nil_append] at ht hrem
      rw [streamLoop_finish _ _ _ hrem, colourSent, List.length_nil, chunkEvents_zero _ hnb]
      cases s; simp_all
    · have hlt : (img.take s.cfg.nb).length = min s.cfg.nb img.length := by simp
      have hdl : (img.drop s.cfg.nb).length = img.length - s.cfg.nb := by simp
      rw [streamTurns_step hnb hp, replicate_turns] at ht
      simp only [streamLoop]
      rw [if_neg (by omega), chunkTurn_carry .colour s s (img.take s.cfg.nb)
        (List.replicate (streamTurns s.cfg.nb (img.length - s.cfg.nb)) .xfer ++ rest) rfl hd
        (by simp [chunkBytes, hrem, Nat.min_comm])
        (by
          intro j hj
          rw [hlt] at hj
          simp only [sourceByte, chunkSource]
          rw [if_pos (by omega), hi j (by omega), List.getElem_take])
        (by rw [ht, hlt])]
      rw [andThen_next, if_pos rfl, ih (img.drop s.cfg.nb)]
      · congr 2
        have e : img = img.take s.cfg.nb ++ img.drop s.cfg.nb := (List.take_append_drop _ _).symm
        have e1 : tagged .data img = tagged .data (img.take s.cfg.nb) ++ tagged .data (img.drop s.cfg.nb) := by
          rw [← tagged_append, ← e]
        have e2 : min s.cfg.nb img.length + (img.length - s.cfg.nb) = img.length := by omega
        have e3 := map_range_split (min s.cfg.nb img.length) (img.length - s.cfg.nb) (s.ops.ptr.toNat + s.off)
        rw [e2] at e3
        unfold colourSent advanceChunk
        rw [e1, e3, chunkEvents_step _ hnb hp]
        have e4 : chunkEvents
            (fun j => .mem (s.ops.ptr.toNat + (s.off + (min s.cfg.nb img.length + j * s.cfg.nb))))
            s.cfg.nb (img.length - s.cfg.nb) =
            chunkEvents (fun j => .mem (s.ops.ptr.toNat + (s.off + (j + 1) * s.cfg.nb))) s.cfg.nb
              (img.length - s.cfg.nb) := by
          rcases Nat.lt_or_ge img.length s.cfg.nb with h | h
          · rw [show img.length - s.cfg.nb = 0 by omega, chunkEvents_zero _ hnb, chunkEvents_zero _ hnb]
          · congr 1; funext j; rw [Nat.min_eq_left h, Nat.succ_mul]; congr 1; omega
        simp only [chunkSource, hlt, hdl, hrem, hm, List.foldl_append, List.append_assoc,
          flatMap_sourceReads_mem, List.cons_append, List.nil_append, Nat.zero_mul, Nat.add_zero, hd, hx,
          Nat.min_comm img.length]
        rw [Nat.add_assoc s.off, e2]
        simp only [Nat.add_assoc]
        rw [e4]
      · exact hn
      · simp [advanceChunk, hrem]; omega
      · omega
      · rfl
      · rfl
      · exact hm
      · simp [advanceChunk, hrem]; omega
      · intro j hj
        have := hi (j + s.cfg.nb) (by omega)
        rw [List.getElem_drop]
        simp only [advanceChunk, hrem]
        rw [show s.ops.ptr.toNat + (s.off + min img.length s.cfg.nb) + j =
          s.ops.ptr.toNat + s.off + (j + s.cfg.nb) by omega]
        rw [this]; congr 1; congr 1; omega
      · rw [hdl]; rfl

end Sys2Proof.Machine
end

