-- ==== Sys2Proof/Laws/Mono.lean ====
section
/-! SUPPORT. The mono blit: the cursor in closed form, what unpacking answers, and the chunk loop. -/

namespace Sys2Proof.Machine

theorem mask_shift (k : Nat) (h : k < 8) : ((0x80 : Byte) >>> k) >>> 1 = (0x80 : Byte) >>> (k + 1) := by
  interval_cases k <;> rfl

theorem mask_shift_zero (k : Nat) (h : k < 8) : ((0x80 : Byte) >>> (k + 1) == 0) = decide (k = 7) := by
  interval_cases k <;> rfl

/-- Masking a byte with one bit is a test of that bit (10_state R30). -/
theorem mask_test (b : Byte) (k : Nat) (h : k < 8) : ((b &&& (0x80 : Byte) >>> k) != 0) = b.getLsbD (7 - k) := by
  revert b
  interval_cases k <;> decide

/-- One pixel moves the cursor, in terms of the place of the mask's bit (45 R168, R169). -/
theorem advanceCursor_eq (w : Half) (p k col : Nat) (hk : k < 8) :
    advanceCursor w ⟨p, (0x80 : Byte) >>> k, col⟩ =
      ⟨if k = 7 ∨ col + 1 = w.toNat then p + 1 else p,
       if k = 7 ∨ col + 1 = w.toNat then 0x80 else (0x80 : Byte) >>> (k + 1),
       if col + 1 = w.toNat then 0 else col + 1⟩ := by
  simp only [advanceCursor, mask_shift k hk, mask_shift_zero k hk]
  by_cases h7 : k = 7 <;> by_cases he : col + 1 = w.toNat <;> simp [h7, he]

theorem advanceCursor_cursorAt (w : Half) (p k : Nat) (hw : 1 ≤ w.toNat) :
    advanceCursor w (cursorAt w p k) = cursorAt w p (k + 1) := by
  have hc := Nat.mod_lt k hw
  have hk : k / w.toNat * w.toNat + k % w.toNat = k := Nat.div_add_mod' k w.toNat
  unfold cursorAt
  rw [advanceCursor_eq w _ _ _ (Nat.mod_lt _ (by omega))]
  by_cases he : k % w.toNat + 1 = w.toNat
  · have h1 : k + 1 = (k / w.toNat + 1) * w.toNat := by rw [Nat.succ_mul]; omega
    have hm : (k + 1) % w.toNat = 0 := by rw [h1]; exact Nat.mul_mod_left _ _
    have hq : (k + 1) / w.toNat = k / w.toNat + 1 := by rw [h1]; exact Nat.mul_div_left _ hw
    have hs : rowStride w = k % w.toNat / 8 + 1 := by unfold rowStride; omega
    simp only [he, or_true, if_true, monoOffset, hm, hq, Nat.succ_mul, hs]
    simp; omega
  · have hlt : k % w.toNat + 1 < w.toNat := by omega
    have h1 : k + 1 = (k % w.toNat + 1) + w.toNat * (k / w.toNat) := by rw [Nat.mul_comm]; omega
    have hm : (k + 1) % w.toNat = k % w.toNat + 1 := by
      rw [h1, Nat.add_mul_mod_self_left, Nat.mod_eq_of_lt hlt]
    have hq : (k + 1) / w.toNat = k / w.toNat := by
      rw [h1, Nat.add_mul_div_left _ _ hw, Nat.div_eq_of_lt hlt, Nat.zero_add]
    simp only [he, or_false, if_false, monoOffset, hm, hq]
    by_cases h7 : k % w.toNat % 8 = 7
    · have a1 : (k % w.toNat + 1) / 8 = k % w.toNat / 8 + 1 := by omega
      have a2 : (k % w.toNat + 1) % 8 = 0 := by omega
      simp [h7, a1, a2, Nat.add_assoc]
    · have a1 : (k % w.toNat + 1) / 8 = k % w.toNat / 8 := by omega
      have a2 : (k % w.toNat + 1) % 8 = k % w.toNat % 8 + 1 := by omega
      simp [h7, a1, a2]

theorem cursorAt_zero (w : Half) (p : Nat) : cursorAt w p 0 = ⟨p, 0x80, 0⟩ := by
  simp [cursorAt, monoOffset]

/-- The source byte of each pixel lies in the bitmap (45 R171). -/
theorem monoOffset_lt (w h : Half) (k : Nat) (hk : k < totalPixels w h) : monoOffset w k < monoBytes w h := by
  unfold totalPixels at hk
  have hw : 0 < w.toNat := Nat.pos_of_ne_zero fun e => by simp [e] at hk
  have hq : k / w.toNat < h.toNat := Nat.div_lt_of_lt_mul hk
  have hc := Nat.mod_lt k hw
  have hs : k % w.toNat / 8 < rowStride w := by unfold rowStride; omega
  have : (k / w.toNat + 1) * rowStride w ≤ h.toNat * rowStride w := Nat.mul_le_mul_right _ hq
  unfold monoOffset monoBytes
  rw [Nat.succ_mul] at this
  omega

theorem monoOffset_end (w h : Half) (hw : 1 ≤ w.toNat) : monoOffset w (totalPixels w h) = monoBytes w h := by
  unfold monoOffset totalPixels monoBytes
  rw [Nat.mul_mod_right, Nat.mul_div_cancel_left _ hw]; simp

theorem cursorAt_end (w h : Half) (p : Nat) (hw : 1 ≤ w.toNat) :
    cursorAt w p (totalPixels w h) = ⟨p + monoBytes w h, 0x80, 0⟩ := by
  have : totalPixels w h % w.toNat = 0 := Nat.mul_mod_right _ _
  simp [cursorAt, monoOffset_end w h hw, this]

/-- One pixel whose byte is there (45 R168). -/
theorem unpackOne_eq (i : Nat) (s : State) (b : Byte) (k : Nat) (hk : k < 8) (hm : s.cursor.mask = (0x80 : Byte) >>> k)
    (hp : s.cursor.p < 2 ^ s.cfg.addrW) (hb : Memory.read s.mem s.cursor.p = some b) :
    unpackOne i s = .next { s with
      stg := s.stg.set i (slotOf (pickColour s.ops.c0 s.ops.c1 (b.getLsbD (7 - k))))
      cursor := advanceCursor s.ops.w s.cursor
      reads := s.reads ++ [s.cursor.p] } := by
  simp only [unpackOne, readSource, hp, if_true, hb, hm, mask_test b k hk, writeSlot]

/-- The colours of pixels `k`, ..., `k + n - 1`. -/
def monoColours (w : Half) (fg bg : Half) (img : List Byte) (k n : Nat) : List Half :=
  (List.range' k n).map (monoColour w fg bg img)

@[simp] theorem length_monoColours (w fg bg : Half) (img : List Byte) (k n : Nat) :
    (monoColours w fg bg img k n).length = n := by simp [monoColours]

/-- Unpacking `n` pixels from pixel `k` on (45 R167, R168). -/
theorem unpackFrom_eq (n i k p : Nat) (img : List Byte) (h : Half) (s : State)
    (hw : 1 ≤ s.ops.w.toNat) (hc : s.cursor = cursorAt s.ops.w p k) (hk : k + n ≤ totalPixels s.ops.w h)
    (hlen : img.length = monoBytes s.ops.w h) (hr : p + img.length ≤ 2 ^ s.cfg.addrW) (hi : Holds s.mem p img) :
    unpackFrom n i s = .next { s with
      stg := setSlots (monoColours s.ops.w s.ops.c0 s.ops.c1 img k n) i s.stg
      cursor := cursorAt s.ops.w p (k + n)
      reads := s.reads ++ (List.range' k n).map fun j => p + monoOffset s.ops.w j } := by
  induction n generalizing i k s with
  | zero => cases s; simp_all [unpackFrom, monoColours, setSlots]
  | succ n ih =>
    have ho := monoOffset_lt s.ops.w h k (by omega)
    have hb : Memory.read s.mem s.cursor.p = some img[monoOffset s.ops.w k] := by
      rw [hc]; exact hi _ (by omega)
    rw [unpackFrom, unpackOne_eq i s _ (k % s.ops.w.toNat % 8) (Nat.mod_lt _ (by omega)) (by rw [hc]; rfl)
      (by rw [hc]; simp only [cursorAt]; omega) hb, andThen_next, ih (i + 1) (k + 1)]
    · have hcol : monoColour s.ops.w s.ops.c0 s.ops.c1 img k =
          pickColour s.ops.c0 s.ops.c1 ((img[monoOffset s.ops.w k]'(by omega)).getLsbD (7 - k % s.ops.w.toNat % 8)) := by
        simp [monoColour, List.getD_eq_getElem?_getD, List.getElem?_eq_getElem (show monoOffset s.ops.w k < img.length by omega)]
      simp only [monoColours, List.range'_succ, List.map_cons, setSlots, hcol, List.append_assoc, List.singleton_append,
        show k + 1 + n = k + (n + 1) by omega, hc]
      rfl
    · exact hw
    · show advanceCursor _ _ = _
      rw [hc, advanceCursor_cursorAt _ _ _ hw]
    · simp only; omega
    · exact hlen
    · exact hr
    · exact hi

/-- The state of a mono blit of height `h` once pixels `k`, ..., `k + px - 1`, the rest of it, are out. -/
def monoSent (p : Nat) (img : List Byte) (k px : Nat) (rest : List Turn) (stg : List Slot) (cnt : Nat)
    (s : State) : State :=
  { s with
    stg := stg
    cnt := cnt
    cursor := cursorAt s.ops.w p (k + px)
    rem := 0
    wire := s.wire ++ pixelEvents (monoColours s.ops.w s.ops.c0 s.ops.c1 img k px)
    panel := (pixelEvents (monoColours s.ops.w s.ops.c0 s.ops.c1 img k px)).foldl (Panel.receive s.cfg) s.panel
    transfers := s.transfers ++ chunkEvents (fun _ => .staging) s.cfg.nb (2 * px)
    reads := s.reads ++ (List.range' k px).map fun j => p + monoOffset s.ops.w j
    turns := rest }

theorem monoColours_append (w fg bg : Half) (img : List Byte) (k a b : Nat) :
    monoColours w fg bg img k (a + b) = monoColours w fg bg img k a ++ monoColours w fg bg img (k + a) b := by
  simp [monoColours, ← List.range'_append_1]

/-- The mono blit's chunk loop with XFER's turns (45 R167): the rest of the pixels go out as the closed form says. -/
theorem streamLoop_mono (fuel p k px : Nat) (img : List Byte) (h : Half) (rest : List Turn) (s : State)
    (hn : 1 ≤ s.cfg.n) (hrem : s.rem = px) (hf : px ≤ fuel) (hd : s.done = true) (hx : s.xfer = none)
    (hm : s.dc = .data) (hs : s.stg.length = s.cfg.n)
    (hw : 1 ≤ s.ops.w.toNat) (hc : s.cursor = cursorAt s.ops.w p k) (hk : k + px ≤ totalPixels s.ops.w h)
    (hlen : img.length = monoBytes s.ops.w h) (hr : p + img.length ≤ 2 ^ s.cfg.addrW) (hi : Holds s.mem p img)
    (ht : s.turns = List.replicate (streamTurns s.cfg.nb (2 * px)) .xfer ++ rest) :
    ∃ stg cnt, streamLoop .mono fuel s = .next (retire (monoSent p img k px rest stg cnt s)) := by
  induction fuel generalizing k px s with
  | zero =>
    have hnb : 1 ≤ s.cfg.nb := by unfold Config.nb; omega
    obtain rfl : px = 0 := by omega
    refine ⟨s.stg, s.cnt, ?_⟩
    simp only [Nat.mul_zero, streamTurns_zero hnb, List.replicate_zero, List.nil_append] at ht
    rw [streamLoop_finish _ _ _ hrem, monoSent, Nat.mul_zero, chunkEvents_zero _ hnb]
    cases s; simp_all [monoColours, pixelEvents]
  | succ fuel ih =>
    have hnb : 1 ≤ s.cfg.nb := by unfold Config.nb; omega
    rcases Nat.eq_zero_or_pos px with rfl | hp
    · refine ⟨s.stg, s.cnt, ?_⟩
      simp only [Nat.mul_zero, streamTurns_zero hnb, List.replicate_zero, List.nil_append] at ht
      rw [streamLoop_finish _ _ _ hrem, monoSent, Nat.mul_zero, chunkEvents_zero _ hnb]
      cases s; simp_all [monoColours, pixelEvents]
    · have h2 : 1 ≤ 2 * px := by omega
      have hmin : min s.cfg.nb (2 * px) = 2 * min px s.cfg.n := by unfold Config.nb; omega
      have hle : min px s.cfg.n ≤ px := Nat.min_le_left _ _
      have hpos : 1 ≤ min px s.cfg.n := by omega
      rw [streamTurns_step hnb h2, replicate_turns] at ht
      have e1 : 2 * px - s.cfg.nb = 2 * (px - min px s.cfg.n) := by unfold Config.nb; omega
      rw [e1] at ht
      generalize hg : min px s.cfg.n = m at *
      have hprep : prepareChunk .mono s = .next { s with
          cnt := m
          stg := setSlots (monoColours s.ops.w s.ops.c0 s.ops.c1 img k m) 0 s.stg
          cursor := cursorAt s.ops.w p (k + m)
          reads := s.reads ++ (List.range' k m).map fun j => p + monoOffset s.ops.w j } := by
        simp only [prepareChunk, hrem, hg]
        exact unpackFrom_eq m 0 k p img h _ hw hc (by simp only; omega) hlen hr hi
      simp only [streamLoop]
      rw [if_neg (by omega), chunkTurn_carry .mono s _ (colourBytes (monoColours s.ops.w s.ops.c0 s.ops.c1 img k m))
        (List.replicate (streamTurns s.cfg.nb (2 * (px - m))) .xfer ++ rest) hprep hd
        (by simp [chunkBytes])
        (by
          intro j hj
          rw [getElem_colourBytes]
          simp only [sourceByte, chunkSource]
          have hj' : j / 2 < (monoColours s.ops.w s.ops.c0 s.ops.c1 img k m).length := by simp at hj ⊢; omega
          have hz := getElem?_setSlots (monoColours s.ops.w s.ops.c0 s.ops.c1 img k m) 0 (j / 2) s.stg hj'
            (by rw [length_monoColours, hs]; omega)
          rw [Nat.zero_add] at hz
          exact stagingByte_of_slot hz)
        (by simp only; rw [ht]; simp [hmin])]
      rw [andThen_next, if_pos rfl]
      obtain ⟨stg, cnt, e⟩ := ih (k + m) (px - m) (advanceChunk .mono { s with
        cnt := m
        stg := setSlots (monoColours s.ops.w s.ops.c0 s.ops.c1 img k m) 0 s.stg
        cursor := cursorAt s.ops.w p (k + m)
        done := true
        xfer := none
        wire := s.wire ++ tagged s.dc (colourBytes (monoColours s.ops.w s.ops.c0 s.ops.c1 img k m))
        panel := (tagged s.dc (colourBytes (monoColours s.ops.w s.ops.c0 s.ops.c1 img k m))).foldl
          (Panel.receive s.cfg) s.panel
        transfers := s.transfers ++ [.begun .staging (colourBytes (monoColours s.ops.w s.ops.c0 s.ops.c1 img k m)).length,
          .completed]
        reads := s.reads ++ ((List.range' k m).map fun j => p + monoOffset s.ops.w j)
        turns := List.replicate (streamTurns s.cfg.nb (2 * (px - m))) .xfer ++ rest })
        hn (by simp [advanceChunk, hrem]) (by omega) rfl rfl hm (by simp [advanceChunk, hs]) hw rfl
        (by simp only [advanceChunk]; omega) hlen hr hi rfl
      refine ⟨stg, cnt, ?_⟩
      have e2 : monoColours s.ops.w s.ops.c0 s.ops.c1 img k px = monoColours s.ops.w s.ops.c0 s.ops.c1 img k m ++
          monoColours s.ops.w s.ops.c0 s.ops.c1 img (k + m) (px - m) := by
        rw [← monoColours_append]; congr 1; omega
      have e3 : List.range' k px = List.range' k m ++ List.range' (k + m) (px - m) := by
        rw [List.range'_append_1]; congr 1; omega
      simp only [chunkSource, flatMap_sourceReads_staging, List.append_nil]
      rw [e]
      unfold monoSent advanceChunk
      rw [chunkEvents_step _ hnb h2, hmin, e1, e2, e3]
      simp only [colourBytes_append, tagged_append, List.foldl_append, List.append_assoc, List.map_append, hm,
        pixelEvents_eq_tagged, hd, hx, length_colourBytes, length_monoColours, List.cons_append, List.nil_append]
      rw [show k + m + (px - m) = k + px by omega]

end Sys2Proof.Machine
end

