-- ==== Sys2Proof/Laws/Panel.lean ====
section
/-! SUPPORT. The panel: what losing its state leaves, what a command and a data byte can do, and that every event keeps the
canonical form of the written pixels. -/

namespace Sys2Proof.Machine

@[simp] theorem lose_wasReset (p : Panel) : p.lose.wasReset = p.wasReset := rfl
@[simp] theorem lose_ready (p : Panel) : p.lose.ready = p.ready := rfl
@[simp] theorem lose_gram (p : Panel) : p.lose.gram = [] := rfl
@[simp] theorem lose_cmd (p : Panel) : p.lose.cmd = p.cmd := rfl
@[simp] theorem lose_inFrame (p : Panel) : p.lose.inFrame = false := rfl
@[simp] theorem lose_params (p : Panel) : p.lose.params = Config.freeParams (p.draw + 1) := rfl
@[simp] theorem lose_latch (p : Panel) : p.lose.latch = Config.freeLatch (p.draw + 1) := rfl
@[simp] theorem lose_draw (p : Panel) : p.lose.draw = p.draw + 1 := rfl
@[simp] theorem lose_midFrame (cfg : Config) (p : Panel) : p.lose.midFrame cfg = false := rfl

/-- Losing the panel's state is `LostTo`. -/
theorem lostTo_lose (p : Panel) : LostTo p p.lose := ⟨rfl, Nat.lt_succ_self _⟩

/-- The panel as a command finds it: an unfinished frame has left its values open. -/
def Panel.settled (cfg : Config) (p : Panel) : Panel := if p.midFrame cfg then p.lose else p

@[simp] theorem settled_of_not_midFrame {cfg : Config} {p : Panel} (h : p.midFrame cfg = false) : p.settled cfg = p := by
  simp [Panel.settled, h]

@[simp] theorem settled_ready (cfg : Config) (p : Panel) : (p.settled cfg).ready = p.ready := by
  unfold Panel.settled; split <;> rfl

/-- All that a command can do. -/
theorem onCommand_cases (cfg : Config) (p : Panel) (b : Byte) :
    let q : Panel := { p.settled cfg with cmd := b, inFrame := true, params := [] }
    p.onCommand cfg b = q ∨ p.onCommand cfg b = { q with cursor := (q.xs.toNat, q.ys.toNat), latch := none } ∨
      p.onCommand cfg b = q.lose := by
  simp only [Panel.onCommand, Panel.settled]
  split
  · exact .inr (.inr rfl)
  · split
    · exact .inl rfl
    · split
      · exact .inr (.inl rfl)
      · exact .inr (.inr rfl)

/-- An address byte writes no pixel where `set` writes none: frame memory is as before, or lost. -/
theorem onAddressByte_gram (size : Nat) (set : Half → Half → Panel → Panel) (p : Panel) (b : Byte)
    (h : ∀ start stop q, (set start stop q).gram = q.gram) :
    (p.onAddressByte size set b).gram = p.gram ∨ (p.onAddressByte size set b).gram = [] := by
  unfold Panel.onAddressByte
  split
  · dsimp only; split <;> [exact .inl (h _ _ _); exact .inr rfl]
  · split <;> [exact .inl rfl; exact .inr rfl]

theorem onColumnByte_gram (cfg : Config) (p : Panel) (b : Byte) :
    (p.onColumnByte cfg b).gram = p.gram ∨ (p.onColumnByte cfg b).gram = [] :=
  onAddressByte_gram _ _ p b fun _ _ _ => rfl

theorem onRowByte_gram (cfg : Config) (p : Panel) (b : Byte) :
    (p.onRowByte cfg b).gram = p.gram ∨ (p.onRowByte cfg b).gram = [] :=
  onAddressByte_gram _ _ p b fun _ _ _ => rfl

/-- All that a pixel byte can do. -/
theorem onPixelByte_cases (cfg : Config) (p : Panel) (b : Byte) :
    p.onPixelByte cfg b = p.lose ∨ p.onPixelByte cfg b = { p with latch := some b } ∨
      ∃ a, p.latch = some a ∧ p.onPixelByte cfg b =
        { p with
          gram := insertAt (pixelKey p.cursor.1 p.cursor.2) (joinBytes a b) p.gram
          cursor := nextCursor p.xs.toNat p.xe.toNat p.cursor
          latch := none } := by
  unfold Panel.onPixelByte
  split
  · rcases p.latch with _ | a <;> [exact .inr (.inl rfl); exact .inr (.inr ⟨a, rfl, rfl⟩)]
  · exact .inl rfl

/-- A pixel byte with no room for it, the first or the second of its pair, loses the panel's state (20_memory R65). -/
theorem onPixelByte_no_room {cfg : Config} {p : Panel} (h : p.hasRoom cfg = false) (b : Byte) :
    p.onPixelByte cfg b = p.lose := by simp [Panel.onPixelByte, h]

/-- Every event keeps the canonical form of the written pixels. -/
theorem receive_rising (cfg : Config) (p : Panel) (e : Event) (h : rising p.gram = true) :
    rising (p.receive cfg e).gram = true := by
  have hs : rising (p.settled cfg).gram = true := by unfold Panel.settled; split <;> [rfl; exact h]
  unfold Panel.receive
  split <;> split
  · rcases onCommand_cases cfg p e.byte with e | e | e <;> rw [e] <;> first | exact hs | rfl
  · unfold Panel.onData
    split
    · split
      · rcases onColumnByte_gram cfg p e.byte with e | e <;> rw [e] <;> first | exact h | rfl
      · split
        · rcases onRowByte_gram cfg p e.byte with e | e <;> rw [e] <;> first | exact h | rfl
        · rcases onPixelByte_cases cfg p e.byte with e | e | ⟨a, -, e⟩ <;> rw [e] <;>
            [rfl; exact h; exact rising_insertAt _ _ _ h]
    · rfl
  · rfl
  · rfl

/-- What an address byte keeps where `set` keeps it and losing the state does. -/
theorem onAddressByte_keeps {α : Type} (f : Panel → α) (hl : ∀ p, f p.lose = f p)
    (hp : ∀ (p : Panel) ps, f { p with params := ps } = f p) (size : Nat) (set : Half → Half → Panel → Panel)
    (hs : ∀ start stop q, f (set start stop q) = f q) (p : Panel) (b : Byte) : f (p.onAddressByte size set b) = f p := by
  unfold Panel.onAddressByte
  split
  · dsimp only; split <;> [rw [hs, hp]; exact hl p]
  · split <;> [exact hp p _; exact hl p]

/-- What a data byte keeps: whatever neither the address bytes nor the pixel bytes write and losing the state keeps. -/
theorem onData_keeps {α : Type} (f : Panel → α) (hl : ∀ p, f p.lose = f p)
    (hp : ∀ (p : Panel) ps, f { p with params := ps } = f p) (hx : ∀ (p : Panel) a b, f { p with xs := a, xe := b } = f p)
    (hy : ∀ (p : Panel) a b, f { p with ys := a, ye := b } = f p) (hlat : ∀ (p : Panel) l, f { p with latch := l } = f p)
    (hg : ∀ (p : Panel) g c, f { p with gram := g, cursor := c, latch := none } = f p) (cfg : Config) (p : Panel)
    (b : Byte) : f (p.onData cfg b) = f p := by
  unfold Panel.onData
  split
  · split
    · exact onAddressByte_keeps f hl hp _ _ (fun a b q => hx q a b) p b
    · split
      · exact onAddressByte_keeps f hl hp _ _ (fun a b q => hy q a b) p b
      · rcases onPixelByte_cases cfg p b with e | e | ⟨a, -, e⟩ <;> rw [e] <;> [exact hl p; exact hlat p _; exact hg p _ _]
  · exact hl p

/-- A panel holds the last command byte it received (20_memory R60). -/
theorem receive_command_cmd (cfg : Config) (p : Panel) (b : Byte) : (p.receive cfg ⟨.command, b⟩).cmd = b := by
  unfold Panel.receive
  split
  · rcases onCommand_cases cfg p b with e | e | e <;> simp [e, Panel.lose, Panel.unspecified]
  · rfl

theorem receive_data_cmd (cfg : Config) (p : Panel) (b : Byte) : (p.receive cfg ⟨.data, b⟩).cmd = p.cmd := by
  unfold Panel.receive
  split
  · exact onData_keeps Panel.cmd (fun _ => rfl) (fun _ _ => rfl) (fun _ _ _ => rfl) (fun _ _ _ => rfl) (fun _ _ => rfl)
      (fun _ _ _ => rfl) cfg p b
  · rfl

/-- No byte of the wire resets the panel. -/
theorem receive_wasReset (cfg : Config) (p : Panel) (e : Event) : (p.receive cfg e).wasReset = p.wasReset := by
  have hs : (p.settled cfg).wasReset = p.wasReset := by unfold Panel.settled; split <;> rfl
  unfold Panel.receive
  split <;> split
  · rcases onCommand_cases cfg p e.byte with h | h | h <;> simp only [h] <;> exact hs
  · exact onData_keeps Panel.wasReset (fun _ => rfl) (fun _ _ => rfl) (fun _ _ _ => rfl) (fun _ _ _ => rfl)
      (fun _ _ => rfl) (fun _ _ _ => rfl) cfg p e.byte
  · rfl
  · rfl

theorem foldl_receive_wasReset (cfg : Config) (es : List Event) (p : Panel) :
    (es.foldl (Panel.receive cfg) p).wasReset = p.wasReset := by
  induction es generalizing p with
  | nil => rfl
  | cons e es ih => exact (ih _).trans (receive_wasReset cfg p e)

theorem foldl_receive_rising (cfg : Config) (es : List Event) (p : Panel) (h : rising p.gram = true) :
    rising (es.foldl (Panel.receive cfg) p).gram = true := by
  induction es generalizing p with
  | nil => exact h
  | cons e es ih => exact ih _ (receive_rising cfg p e h)

/-- Reading a pixel after a pixel has been written. -/
theorem pixel_insertAt (p : Panel) (k : Nat) (c : Half) (col row : Nat) (h : rising p.gram = true) :
    Panel.pixel { p with gram := insertAt k c p.gram } col row =
      if pixelKey col row = k then c else p.pixel col row := by
  simp only [Panel.pixel, lookupAt_insertAt k _ c p.gram h]
  split <;> rfl

end Sys2Proof.Machine
end

