-- ==== Sys2Proof/Laws/PerInstr.lean ====
section
/-! SUPPORT. Per-operation statements about the syntax: family `EncodeFixedBits`, the encoder's code and reserved
field (30_encoding R82, R83). -/

namespace Sys2Proof.Laws.EncodeFixedBits

/-- The operation's code in the opcode map (R83). -/
def code : Instr → Byte
  | .reset => 0x00
  | .init => 0x01
  | .plotPixel _ _ _ => 0x02
  | .drawColourBitmap _ _ _ _ _ => 0x03
  | .drawMonoBitmap _ _ _ _ _ _ _ => 0x04
  | .fillRectangle _ _ _ _ _ => 0x05
  | .sendCommand _ => 0x10
  | .sendDataByte _ => 0x11
  | .setWindow _ _ _ _ => 0x12
  | .beginAsyncTransfer _ _ => 0x13
  | .awaitCompletion => 0x14

/-- The encoded descriptor carries the operation's code, and its reserved field is zero. -/
def Statement (i : Instr) : Prop := opcField (encode i) = code i ∧ rsvField (encode i) = 0

theorem reset : Statement .reset := by simp [Statement, code, encode]
theorem init : Statement .init := by simp [Statement, code, encode]
theorem plotPixel (x y colour : Half) : Statement (.plotPixel x y colour) := by simp [Statement, code, encode]
theorem drawColourBitmap (x y w h : Half) (data : Word) : Statement (.drawColourBitmap x y w h data) := by
  simp [Statement, code, encode]
theorem drawMonoBitmap (x y w h : Half) (data : Word) (fg bg : Half) :
    Statement (.drawMonoBitmap x y w h data fg bg) := by simp [Statement, code, encode]
theorem fillRectangle (x y w h colour : Half) : Statement (.fillRectangle x y w h colour) := by
  simp [Statement, code, encode]
theorem sendCommand (c : Byte) : Statement (.sendCommand c) := by simp [Statement, code, encode]
theorem sendDataByte (v : Byte) : Statement (.sendDataByte v) := by simp [Statement, code, encode]
theorem setWindow (xStart yStart xEnd yEnd : Half) : Statement (.setWindow xStart yStart xEnd yEnd) := by
  simp [Statement, code, encode]
theorem beginAsyncTransfer (buffer byteLength : Word) : Statement (.beginAsyncTransfer buffer byteLength) := by
  simp [Statement, code, encode]
theorem awaitCompletion : Statement .awaitCompletion := by simp [Statement, code, encode]

end Sys2Proof.Laws.EncodeFixedBits
end

