-- ==== Sys2Proof/Laws/Steps.lean ====
section
/-! SUPPORT. ENGINE's turn up to its next hold or retirement as a path of single actions: all that such a turn can do is
what primitive turns and XFER's turns can. -/

namespace Sys2Proof.Machine

/-- `f` of a next state; a stop stays. -/
def mapNext (f : State → State) (o : Out) : Out := andThen o fun s => .next (f s)

@[simp] theorem mapNext_next (f : State → State) (s : State) : mapNext f (.next s) = .next (f s) := rfl
@[simp] theorem mapNext_fault (f : State → State) (r : Fault) : mapNext f (.fault r) = .fault r := rfl
@[simp] theorem mapNext_refused (f : State → State) (r : Refusal) : mapNext f (.refused r) = .refused r := rfl

/-- The answer is no next state. -/
def Stops (o : Out) : Prop := ∀ t, o ≠ .next t

theorem stops_fault (r : Fault) : Stops (.fault r) := fun _ h => by cases h
theorem stops_refused (r : Refusal) : Stops (.refused r) := fun _ h => by cases h

/-- `o` is what single actions lead to from `s`: ENGINE's primitives, which leave the turns alone, and the turns of XFER
that stand next. -/
inductive Path : State → Out → Prop where
  | here (s : State) : Path s (.next s)
  | primitive {s m : State} {o : Out} : primitiveTurn s = .next m → Path m o → Path s o
  | primitiveStops {s : State} {o : Out} : primitiveTurn s = o → Stops o → Path s o
  | xfer {s m : State} {ts : List Turn} {o : Out} :
      s.turns = .xfer :: ts → xferStep { s with turns := ts } = .next m → Path m o → Path s o
  | xferStops {s : State} {ts : List Turn} {o : Out} :
      s.turns = .xfer :: ts → xferStep { s with turns := ts } = o → Stops o → Path s o

/-! ### No action reads the phase or the turns -/

/-- The phase and the turns replaced. -/
def at' (q : Seq) (ts : List Turn) (s : State) : State := { s with seq := q, turns := ts }

theorem readSource_at' (q : Seq) (ts : List Turn) (a : Nat) (s : State) (k k' : Byte → State → Out)
    (hk : ∀ b s, k b (at' q ts s) = mapNext (at' q ts) (k' b s)) :
    readSource a (at' q ts s) k = mapNext (at' q ts) (readSource a s k') := by
  unfold readSource
  by_cases h : a < 2 ^ s.cfg.addrW
  · rw [if_pos (show a < 2 ^ (at' q ts s).cfg.addrW from h), if_pos h]
    show (match Memory.read s.mem a with | some b => _ | none => _) = _
    cases Memory.read s.mem a with
    | none => rfl
    | some b => exact hk b { s with reads := s.reads ++ [a] }
  · rw [if_neg (show ¬ a < 2 ^ (at' q ts s).cfg.addrW from h), if_neg h]; rfl

theorem onFreeBus_at' (q : Seq) (ts : List Turn) (s : State) (f : State → State)
    (hf : ∀ s, f (at' q ts s) = at' q ts (f s)) :
    (onFreeBus (at' q ts s) fun s => .next (f s)) = mapNext (at' q ts) (onFreeBus s fun s => .next (f s)) := by
  unfold onFreeBus
  show (match s.xfer with | none => _ | some _ => _) = _
  cases s.xfer with
  | none => exact congrArg Host.Outcome.next (hf s)
  | some f => rfl

theorem beginTransfer_at' (q : Seq) (ts : List Turn) (src : Source) (len : Nat) (s : State) :
    beginTransfer src len (at' q ts s) = mapNext (at' q ts) (beginTransfer src len s) := by
  unfold beginTransfer whenDone
  show (if s.done = true then _ else _) = _
  cases s.done <;> rfl

theorem perform_at' (q : Seq) (ts : List Turn) (p : Primitive) (s : State) :
    perform p (at' q ts s) = mapNext (at' q ts) (perform p s) := by
  cases p with
  | drive m => exact onFreeBus_at' q ts s _ fun _ => rfl
  | transmit bs => exact onFreeBus_at' q ts s _ fun _ => rfl
  | resetPanel =>
    exact onFreeBus_at' q ts s (fun s => { s with panel := Panel.unspecified true false (s.panel.draw + 1) }) fun _ => rfl
  | driveFree =>
    exact onFreeBus_at' q ts s (fun s => { writeDC (Config.freeMode s.draws) s with draws := s.draws + 1 }) fun _ => rfl
  | tableSent => rfl
  | fillSlots => rfl
  | setCounters op => cases op <;> rfl
  | setCount => rfl
  | unpack i =>
    unfold perform unpackOne
    exact readSource_at' q ts _ s _ _ fun _ _ => rfl
  | beginDirect => exact beginTransfer_at' q ts _ _ s
  | beginChunk op => cases op <;> exact beginTransfer_at' q ts _ _ s

theorem xferStep_at' (q : Seq) (ts : List Turn) (s : State) :
    xferStep (at' q ts s) = mapNext (at' q ts) (xferStep s) := by
  unfold xferStep
  show (match s.xfer with | none => _ | some f => _) = _
  cases s.xfer with
  | none => rfl
  | some f =>
    obtain ⟨src, len, sent⟩ := f
    dsimp only
    split
    · cases src with
      | staging =>
        show (match stagingByte s.stg sent with | some b => _ | none => _) = _
        dsimp only
        cases stagingByte s.stg sent <;> rfl
      | mem a => exact readSource_at' q ts _ s _ _ fun _ _ => rfl
    · split <;> rfl

/-- The place after an action does not depend on the phase before it. -/
theorem place_at' (q : Seq) (ts : List Turn) (todo : List Primitive) (e : Ending) (s : State) :
    place todo e (at' q ts s) = { place todo e s with turns := ts } := by
  cases todo with
  | cons p ps => rfl
  | nil =>
    cases e with
    | retire => rfl
    | awaitDirect => rfl
    | awaitChunk op => rfl
    | loop op =>
      have hr : (at' q ts s).rem = s.rem := rfl
      simp only [place]
      rw [hr]
      split
      · rfl
      · cases op <;> rfl

theorem place_seq (q : Seq) (todo : List Primitive) (e : Ending) (s : State) :
    place todo e { s with seq := q } = place todo e s := by
  have h1 := place_at' q s.turns todo e s
  have h2 := place_at' s.seq s.turns todo e s
  exact h1.trans h2.symm

/-- The turns after an action are those before it. -/
theorem perform_turns {p : Primitive} {s m : State} (h : perform p s = .next m) : m.turns = s.turns := by
  have hts : perform p s = mapNext (at' s.seq s.turns) (perform p s) := perform_at' s.seq s.turns p s
  rw [h] at hts
  have e : m = at' s.seq s.turns m := Host.Outcome.next.inj hts
  exact (congrArg State.turns e :)

theorem place_turns (todo : List Primitive) (e : Ending) (s : State) : (place todo e s).turns = s.turns := by
  cases todo with
  | cons p ps => rfl
  | nil =>
    cases e with
    | loop op => simp only [place]; split <;> rfl
    | _ => rfl

/-! ### A line -/

theorem primitiveTurn_busy {s : State} {pos : Position} (h : s.seq = .busy pos) : primitiveTurn s = advance pos s := by
  unfold primitiveTurn; rw [h]

/-- The first primitive of a line, from the place before it. -/
theorem primitiveTurn_place (p : Primitive) (ps : List Primitive) (e : Ending) (s : State) :
    primitiveTurn (place (p :: ps) e s) = andThen (perform p s) fun m => .next (place ps e m) := by
  rw [primitiveTurn_busy (pos := .line (p :: ps) e) rfl]
  have h := perform_at' (.busy (.line (p :: ps) e)) s.turns p s
  show andThen (perform p (at' (.busy (.line (p :: ps) e)) s.turns s)) _ = _
  rw [h]
  cases hp : perform p s with
  | fault r => rfl
  | refused r => rfl
  | next m =>
    show Host.Outcome.next (place ps e (at' _ _ m)) = .next (place ps e m)
    rw [place_at', ← perform_turns hp, ← place_turns ps e m]

/-- A line of primitives, up to what follows it. -/
theorem path_line (todo : List Primitive) (e : Ending) (s : State) {o : Out} {k : State → Out}
    (ho : o = andThen (performAll todo s) k) (hk : ∀ m, performAll todo s = .next m → Path (place [] e m) (k m)) :
    Path (place todo e s) o := by
  induction todo generalizing s with
  | nil => subst ho; exact hk s rfl
  | cons p ps ih =>
    have h := primitiveTurn_place p ps e s
    rw [performAll_cons] at ho hk
    cases hp : perform p s with
    | fault r => rw [hp] at ho h; subst ho; exact .primitiveStops h (stops_fault r)
    | refused r => rw [hp] at ho h; subst ho; exact .primitiveStops h (stops_refused r)
    | next m => rw [hp] at ho h hk; exact .primitive h (ih m ho hk)

/-! ### XFER's turns while ENGINE holds -/

theorem path_xferTurns (q : Seq) (ts : List Turn) (s : State) (ht : s.turns = ts) {k : State → Out}
    (hk : ∀ m, xferTurns ts s = .next m → Path { m with seq := q } (k m)) :
    Path { s with seq := q } (andThen (xferTurns ts s) k) := by
  induction ts generalizing s with
  | nil => exact hk s rfl
  | cons t ts ih =>
    cases t with
    | engine => exact hk s rfl
    | primitive => exact hk s rfl
    | hostWrite a b => exact hk s rfl
    | xfer =>
      by_cases hd : s.done = true
      · have e : xferTurns (.xfer :: ts) s = .next s := xferTurns_done _ _ hd
        rw [e] at hk ⊢
        exact hk s rfl
      · have e : xferTurns (.xfer :: ts) s = andThen (xferStep { s with turns := ts }) (xferTurns ts) := by
          simp only [xferTurns]; rw [if_neg hd]
        rw [e] at hk ⊢
        have hx : xferStep { ({ s with seq := q } : State) with turns := ts } =
            mapNext (at' q ts) (xferStep { s with turns := ts }) := xferStep_at' q ts { s with turns := ts }
        have hturns : ({ s with seq := q } : State).turns = .xfer :: ts := ht
        cases hm : xferStep { s with turns := ts } with
        | fault r => rw [hm] at hx; exact .xferStops hturns hx (stops_fault r)
        | refused r => rw [hm] at hx; exact .xferStops hturns hx (stops_refused r)
        | next m =>
          rw [hm] at hx hk
          have hmt : m.turns = ts := by
            have h2 := xferStep_at' s.seq ts { s with turns := ts }
            have : xferStep { s with turns := ts } = mapNext (at' s.seq ts) (xferStep { s with turns := ts }) := h2
            rw [hm] at this
            exact congrArg State.turns (Host.Outcome.next.inj this)
          have hm' : at' q ts m = { m with seq := q } := by rw [← hmt]; rfl
          exact .xfer hturns (hm' ▸ hx) (ih m hmt hk)

/-! ### The chunk loop -/

theorem xferTurns_keeps {γ : Type} (f : State → γ) (hb : ∀ (g : InFlight) b s, f (xferEmit g b s) = f s)
    (hc : ∀ s, f (xferComplete s) = f s) (hr : ∀ (s : State) l, f { s with reads := l } = f s)
    (ht : ∀ (s : State) ts, f { s with turns := ts } = f s) (ts : List Turn) (s : State) :
    Meets (fun t => f t = f s) (fun _ => True) (fun _ => True) (xferTurns ts s) := by
  refine xferTurns_meets (I := fun t => f t = f s) (fun u us hu _ => ?_) ts s rfl
  refine xferStep_meets (fun _ => (ht _ _).trans hu) ?_ ?_ (fun _ _ _ _ _ => trivial) trivial (fun _ _ _ _ _ _ => trivial)
  · intro src len sent b _ _ _
    exact (hb _ _ _).trans ((hr _ _).trans ((ht _ _).trans hu))
  · intro src len _
    exact (hc _).trans ((ht _ _).trans hu)

theorem unpackFrom_keeps {γ : Type} (f : State → γ)
    (h : ∀ (s : State) g c l, f { s with stg := g, cursor := c, reads := l } = f s) (n i : Nat) (s : State) :
    Meets (fun t => f t = f s) (fun _ => True) (fun _ => True) (unpackFrom n i s) := by
  induction n generalizing i s with
  | zero => exact rfl
  | succ n ih =>
    rw [unpackFrom]
    refine Meets.andThen (readSource_meets (fun b _ _ => ?_) trivial trivial)
    exact (ih (i + 1) _).weaken fun t ht => ht.trans (h s _ _ _)

/-- What a turn of the chunk loop keeps, and what it counts. -/
theorem chunkTurn_counts (op : Stream) (s : State) :
    Meets (fun t => t.rem = s.rem ∧ t.cfg = s.cfg ∧ (op = .mono → t.cnt = min s.rem s.cfg.n)) (fun _ => True)
      (fun _ => True) (chunkTurn op s) := by
  rw [chunkTurn_eq]
  apply Meets.andThen
  have key : ∀ u : State, u.rem = s.rem ∧ u.cfg = s.cfg ∧ (op = .mono → u.cnt = min s.rem s.cfg.n) →
      Meets (fun t => t.rem = s.rem ∧ t.cfg = s.cfg ∧ (op = .mono → t.cnt = min s.rem s.cfg.n)) (fun _ => True)
        (fun _ => True) (andThen (beginTransfer (chunkSource op u) (chunkBytes op u) u) fun s => xferTurns s.turns s) := by
    intro u hu
    unfold beginTransfer whenDone
    split
    · refine (xferTurns_keeps (fun s => (s.rem, s.cfg, s.cnt)) (fun _ _ _ => rfl) (fun _ => rfl) (fun _ _ => rfl)
        (fun _ _ => rfl) _ _).weaken fun t ht => ?_
      simp only [Prod.mk.injEq] at ht
      obtain ⟨h1, h2, h3⟩ := ht
      exact ⟨h1.trans hu.1, h2.trans hu.2.1, fun h => h3.trans (hu.2.2 h)⟩
    · trivial
  cases op with
  | fill => exact key s ⟨rfl, rfl, fun h => by cases h⟩
  | colour => exact key s ⟨rfl, rfl, fun h => by cases h⟩
  | mono =>
    refine (unpackFrom_keeps (fun s => (s.rem, s.cfg, s.cnt)) (fun _ _ _ _ => rfl) _ _ _).weaken fun t ht => key t ?_
    simp only [Prod.mk.injEq] at ht
    exact ⟨ht.1, ht.2.1, fun _ => ht.2.2⟩

theorem chunkLine_place (op : Stream) (s : State) (h : s.rem ≠ 0) :
    place [] (.loop op) s = place (chunkLine op s) (.awaitChunk op) s := by
  have : place [] (.loop op) s = { s with seq := .busy (.line (chunkLine op s) (.awaitChunk op)) } := by
    simp only [place]; rw [if_neg h]
  rw [this]
  cases op <;> rfl

theorem path_streamLoop (op : Stream) (fuel : Nat) (s : State) (hf : s.rem ≤ fuel) (hn : 1 ≤ s.cfg.n) :
    Path (place [] (.loop op) s) (streamLoop op fuel s) := by
  induction fuel generalizing s with
  | zero =>
    have h0 : s.rem = 0 := by omega
    have : place [] (.loop op) s = retire s := by simp only [place]; rw [if_pos h0]
    rw [this]; exact .here _
  | succ fuel ih =>
    by_cases h0 : s.rem = 0
    · have : place [] (.loop op) s = retire s := by simp only [place]; rw [if_pos h0]
      rw [this, streamLoop_finish op _ s h0]; exact .here _
    · have hc := chunkTurn_counts op s
      simp only [streamLoop]
      rw [if_neg h0, chunkLine_place op s h0]
      have ho : ∀ k, andThen (chunkTurn op s) k =
          andThen (performAll (chunkLine op s) s) fun m => andThen (xferTurns m.turns m) k := by
        intro k; unfold chunkTurn; exact andThen_assoc _ _ _
      refine path_line _ _ _ (ho _) fun m hm => ?_
      refine path_xferTurns (.busy (.awaitChunk op)) m.turns m rfl fun t ht => ?_
      have hct : chunkTurn op s = .next t := by unfold chunkTurn; rw [hm]; exact ht
      obtain ⟨c1, c2, c3⟩ := hc.of_next hct
      have hp : primitiveTurn { t with seq := .busy (.awaitChunk op) } =
          (if t.done then .next (place [] (.loop op) (advanceChunk op t)) else
            .next { t with seq := .busy (.awaitChunk op) }) := by
        rw [primitiveTurn_busy (pos := .awaitChunk op) rfl]
        show (if t.done = true then _ else _) = _
        split
        · rw [← place_seq (.busy (.awaitChunk op)) [] (.loop op) (advanceChunk op t)]
          cases op <;> rfl
        · rfl
      split
      · rename_i hd
        rw [if_pos hd] at hp
        have hpos : 1 ≤ s.rem := Nat.one_le_iff_ne_zero.2 h0
        have hnb : 1 ≤ s.cfg.nb := by unfold Config.nb; omega
        refine .primitive hp (ih _ ?_ ?_)
        · cases op with
          | fill => simp only [advanceChunk, c1, c2]; omega
          | colour => simp only [advanceChunk, c1, c2]; omega
          | mono => simp only [advanceChunk, c1, c3 rfl]; omega
        · cases op <;> simpa [advanceChunk, c2] using hn
      · exact .here _

/-- The path through a line and the rest of its operation. -/
theorem path_run (todo : List Primitive) (e : Ending) (s : State) (hn : ∀ m, performAll todo s = .next m → 1 ≤ m.cfg.n) :
    Path (place todo e s) (run todo e s) := by
  refine path_line todo e s rfl fun m hm => ?_
  have hm1 := hn m hm
  cases e with
  | retire => exact .here _
  | loop op => exact path_streamLoop op m.rem m (Nat.le_refl _) hm1
  | awaitDirect =>
    refine path_xferTurns (.busy .awaitDirect) m.turns m rfl fun t _ => ?_
    split
    · rename_i hd
      refine .primitive (m := retire t) ?_ (.here _)
      rw [primitiveTurn_busy (pos := .awaitDirect) rfl]
      show (if t.done = true then _ else _) = _
      rw [if_pos hd]; rfl
    · exact .here _
  | awaitChunk op =>
    refine path_xferTurns (.busy (.awaitChunk op)) m.turns m rfl fun t ht => ?_
    have hcfg : t.cfg = m.cfg := (xferTurns_keeps State.cfg (fun _ _ _ => rfl) (fun _ => rfl) (fun _ _ => rfl)
      (fun _ _ => rfl) m.turns m).of_next ht
    split
    · rename_i hd
      refine .primitive (m := place [] (.loop op) (advanceChunk op t)) ?_
        (path_streamLoop op _ _ (Nat.le_refl _) (by cases op <;> simpa [advanceChunk, hcfg] using hm1))
      rw [primitiveTurn_busy (pos := .awaitChunk op) rfl]
      show (if t.done = true then _ else _) = _
      rw [if_pos hd, ← place_seq (.busy (.awaitChunk op)) [] (.loop op) (advanceChunk op t)]
      cases op <;> rfl
    · exact .here _

/-! ### Acceptance -/

/-- An acceptance either stops, or hands a line on. -/
def Accepts (s : State) (f : Begin → Out) : Prop :=
  (∃ todo e, ∃ load : Latches → Latches, ∀ k, f k = k todo e (accept load s)) ∨ ∃ o, Stops o ∧ ∀ k, f k = o

theorem accepts_stop {s : State} {o : Out} (h : Stops o) : Accepts s fun _ => o := .inr ⟨o, h, fun _ => rfl⟩

theorem accepts_line (todo : List Primitive) (e : Ending) (load : Latches → Latches) (s : State) :
    Accepts s fun k => k todo e (accept load s) := .inl ⟨todo, e, load, fun _ => rfl⟩

theorem accepts_onFreeBus (todo : State → List Primitive) (e : Ending) (load : Latches → Latches) (s : State) :
    Accepts s fun k => onFreeBus (accept load s) fun s => k (todo s) e s := by
  rcases hx : (accept load s).xfer with _ | f
  · exact .inl ⟨_, e, load, fun k => onFreeBus_free hx _⟩
  · exact .inr ⟨_, stops_fault _, fun k => onFreeBus_busy hx _⟩

theorem accepts_whenDone (todo : List Primitive) (e : Ending) (load : Latches → Latches) (s : State) :
    Accepts s fun k => whenDone (accept load s) fun s => k todo e s := by
  unfold whenDone
  by_cases hd : (accept load s).done = true
  · exact .inl ⟨todo, e, load, fun k => if_pos hd⟩
  · exact .inr ⟨_, stops_fault _, fun k => if_neg hd⟩

theorem accepts_if {s : State} {c : Prop} [Decidable c] {f g : Begin → Out} (hf : Accepts s f) (hg : Accepts s g) :
    Accepts s fun k => if c then f k else g k := by
  by_cases h : c
  · simpa only [h, if_true] using hf
  · simpa only [h, if_false] using hg

theorem acceptInstr_cases (i : Instr) (s : State) : Accepts s (acceptInstr i s) := by
  rcases hs : s.seq with _ | pos
  · have idle : ∀ k, whenIdle s k = k s := fun k => by unfold whenIdle; rw [hs]
    cases i with
    | reset =>
      show Accepts s fun k => acceptReset s k
      simp only [acceptReset, idle]
      cases s.cfg.resetSeq with
      | none => exact accepts_stop (stops_refused _)
      | some q => exact accepts_onFreeBus (fun _ => _) _ id s
    | init =>
      show Accepts s fun k => acceptInit s k
      simp only [acceptInit, idle]
      cases s.cfg.initSeq with
      | none => exact accepts_stop (stops_refused _)
      | some t => exact accepts_onFreeBus (fun _ => _) _ id s
    | plotPixel x y c =>
      show Accepts s fun k => acceptPlotPixel x y c s k
      simp only [acceptPlotPixel, idle]
      exact accepts_if
        (accepts_onFreeBus (fun s => windowLine s.cfg x y x y ++ [.transmit [hi8 c, lo8 c]]) _ _ s) (accepts_line _ _ _ s)
    | drawColourBitmap x y w h p =>
      show Accepts s fun k => acceptDrawColourBitmap x y w h p s k
      simp only [acceptDrawColourBitmap, idle, requireRectangle, requireRange]
      exact accepts_if (accepts_if (accepts_onFreeBus (fun s => streamLine .colour s.cfg x y w h) _ _ s)
        (accepts_stop (stops_refused _))) (accepts_stop (stops_refused _))
    | drawMonoBitmap x y w h p fg bg =>
      show Accepts s fun k => acceptDrawMonoBitmap x y w h p fg bg s k
      simp only [acceptDrawMonoBitmap, idle, requireRectangle, requireRange]
      exact accepts_if (accepts_if (accepts_onFreeBus (fun s => streamLine .mono s.cfg x y w h) _ _ s)
        (accepts_stop (stops_refused _))) (accepts_stop (stops_refused _))
    | fillRectangle x y w h c =>
      show Accepts s fun k => acceptFillRectangle x y w h c s k
      simp only [acceptFillRectangle, idle, requireRectangle]
      exact accepts_if (accepts_onFreeBus (fun s => streamLine .fill s.cfg x y w h) _ _ s)
        (accepts_stop (stops_refused _))
    | sendCommand b =>
      show Accepts s fun k => acceptSendCommand b s k
      simp only [acceptSendCommand, idle]
      exact accepts_onFreeBus (fun _ => commandLine b) _ _ s
    | sendDataByte b =>
      show Accepts s fun k => acceptSendDataByte b s k
      simp only [acceptSendDataByte, idle]
      exact accepts_onFreeBus (fun _ => dataLine b) _ _ s
    | setWindow a b c d =>
      show Accepts s fun k => acceptSetWindow a b c d s k
      simp only [acceptSetWindow, idle]
      exact accepts_onFreeBus (fun s => windowLine s.cfg a b c d) _ _ s
    | beginAsyncTransfer p len =>
      show Accepts s fun k => acceptBeginAsyncTransfer p len s k
      simp only [acceptBeginAsyncTransfer, idle, requireRange]
      exact accepts_if (accepts_stop (stops_refused _))
        (accepts_if (accepts_whenDone _ _ _ s) (accepts_stop (stops_refused _)))
    | awaitCompletion =>
      show Accepts s fun k => acceptAwaitCompletion s k
      simp only [acceptAwaitCompletion, idle]
      exact accepts_line _ _ _ s
  · refine .inr ⟨.fault .reentry, stops_fault _, fun k => ?_⟩
    cases i <;>
      simp only [acceptInstr, acceptReset, acceptInit, acceptPlotPixel, acceptDrawColourBitmap, acceptDrawMonoBitmap,
        acceptFillRectangle, acceptSendCommand, acceptSendDataByte, acceptSetWindow, acceptBeginAsyncTransfer,
        acceptAwaitCompletion, whenIdle, hs]

theorem exec_eq_run (i : Instr) (s : State) : exec i s = acceptInstr i s run := by cases i <;> rfl

/-! ### The turns after a step -/

/-- The turns replaced. -/
abbrev withTurns (ts : List Turn) (s : State) : State := { s with turns := ts }

theorem begun_turns (ts todo e s) : begun todo e (withTurns ts s) = mapNext (withTurns ts) (begun todo e s) := by
  have := place_at' s.seq ts todo e s
  exact congrArg Host.Outcome.next this

theorem acceptInstr_turns (i : Instr) (ts : List Turn) (s : State) :
    acceptInstr i (withTurns ts s) begun = mapNext (withTurns ts) (acceptInstr i s begun) := by
  have hb : ∀ load todo e,
      begun todo e (accept load (withTurns ts s)) = mapNext (withTurns ts) (begun todo e (accept load s)) :=
    fun load todo e => begun_turns ts todo e (accept load s)
  have hf : ∀ (load) (todo : Config → List Primitive) e,
      onFreeBus (accept load (withTurns ts s)) (fun s => begun (todo s.cfg) e s) =
      mapNext (withTurns ts) (onFreeBus (accept load s) fun s => begun (todo s.cfg) e s) := by
    intro load todo e
    rcases hx : s.xfer with _ | f
    · rw [onFreeBus_free (s := accept load (withTurns ts s)) hx, onFreeBus_free (s := accept load s) hx]
      exact hb _ _ _
    · rw [onFreeBus_busy (s := accept load (withTurns ts s)) hx, onFreeBus_busy (s := accept load s) hx]; rfl
  rcases hs : s.seq with _ | pos
  · have i1 : ∀ k, whenIdle s k = k s := fun k => by unfold whenIdle; rw [hs]
    have i2 : ∀ k, whenIdle (withTurns ts s) k = k (withTurns ts s) := fun k => by
      unfold whenIdle; rw [show (withTurns ts s).seq = _ from hs]
    cases i with
    | reset =>
      show acceptReset _ _ = mapNext _ (acceptReset _ _)
      simp only [acceptReset, i1, i2]
      rcases s.cfg.resetSeq with _ | q
      · rfl
      · exact hf id (fun _ => [.resetPanel, .driveFree]) .retire
    | init =>
      show acceptInit _ _ = mapNext _ (acceptInit _ _)
      simp only [acceptInit, i1, i2]
      rcases s.cfg.initSeq with _ | q
      · rfl
      · exact hf id (fun _ => tableLine q ++ [.tableSent]) .retire
    | plotPixel x y c =>
      show acceptPlotPixel _ _ _ _ _ = mapNext _ (acceptPlotPixel _ _ _ _ _)
      simp only [acceptPlotPixel, i1, i2]
      by_cases h : x.toNat < s.cfg.panelWidth ∧ y.toNat < s.cfg.panelHeight
      · refine (if_pos h).trans (.trans ?_ (congrArg _ (if_pos h).symm)); exact hf _ (fun c' => windowLine c' x y x y ++ [.transmit [hi8 c, lo8 c]]) _
      · refine (if_neg h).trans (.trans ?_ (congrArg _ (if_neg h).symm)); exact hb _ _ _
    | drawColourBitmap x y w h p =>
      show acceptDrawColourBitmap _ _ _ _ _ _ _ = mapNext _ (acceptDrawColourBitmap _ _ _ _ _ _ _)
      simp only [acceptDrawColourBitmap, i1, i2, requireRectangle, requireRange]
      by_cases h1 : rectangleFits x y w h = true
      · rw [if_pos h1, if_pos h1]
        by_cases h2 : rangeFits s.cfg p (totalBytes w h) = true
        · rw [if_pos h2, if_pos h2]; exact hf _ (fun c => streamLine .colour c x y w h) _
        · rw [if_neg h2, if_neg h2]; rfl
      · rw [if_neg h1, if_neg h1]; rfl
    | drawMonoBitmap x y w h p fg bg =>
      show acceptDrawMonoBitmap _ _ _ _ _ _ _ _ _ = mapNext _ (acceptDrawMonoBitmap _ _ _ _ _ _ _ _ _)
      simp only [acceptDrawMonoBitmap, i1, i2, requireRectangle, requireRange]
      by_cases h1 : rectangleFits x y w h = true
      · rw [if_pos h1, if_pos h1]
        by_cases h2 : rangeFits s.cfg p (monoBytes w h) = true
        · rw [if_pos h2, if_pos h2]; exact hf _ (fun c => streamLine .mono c x y w h) _
        · rw [if_neg h2, if_neg h2]; rfl
      · rw [if_neg h1, if_neg h1]; rfl
    | fillRectangle x y w h c =>
      show acceptFillRectangle _ _ _ _ _ _ _ = mapNext _ (acceptFillRectangle _ _ _ _ _ _ _)
      simp only [acceptFillRectangle, i1, i2, requireRectangle]
      by_cases h1 : rectangleFits x y w h = true
      · rw [if_pos h1, if_pos h1]; exact hf _ (fun c => streamLine .fill c x y w h) _
      · rw [if_neg h1, if_neg h1]; rfl
    | sendCommand b =>
      show acceptSendCommand _ _ _ = mapNext _ (acceptSendCommand _ _ _)
      simp only [acceptSendCommand, i1, i2]; exact hf _ (fun _ => commandLine b) _
    | sendDataByte b =>
      show acceptSendDataByte _ _ _ = mapNext _ (acceptSendDataByte _ _ _)
      simp only [acceptSendDataByte, i1, i2]; exact hf _ (fun _ => dataLine b) _
    | setWindow a b c d =>
      show acceptSetWindow _ _ _ _ _ _ = mapNext _ (acceptSetWindow _ _ _ _ _ _)
      simp only [acceptSetWindow, i1, i2]; exact hf _ (fun cf => windowLine cf a b c d) _
    | beginAsyncTransfer p len =>
      show acceptBeginAsyncTransfer _ _ _ _ = mapNext _ (acceptBeginAsyncTransfer _ _ _ _)
      simp only [acceptBeginAsyncTransfer, i1, i2, requireRange]
      by_cases h1 : len = 0
      · rw [if_pos h1, if_pos h1]; rfl
      · rw [if_neg h1, if_neg h1]
        by_cases h2 : rangeFits s.cfg p len.toNat = true
        · rw [if_pos h2, if_pos h2]
          unfold whenDone
          by_cases hd : s.done = true
          · refine (if_pos hd).trans (.trans ?_ (congrArg _ (if_pos hd).symm)); exact hb _ _ _
          · refine (if_neg hd).trans (.trans ?_ (congrArg (mapNext (withTurns ts)) (if_neg hd).symm)); rfl
        · rw [if_neg h2, if_neg h2]; rfl
    | awaitCompletion =>
      show acceptAwaitCompletion _ _ = mapNext _ (acceptAwaitCompletion _ _)
      simp only [acceptAwaitCompletion, i1, i2]; exact hb _ _ _
  · cases i <;>
      simp only [acceptInstr, acceptReset, acceptInit, acceptPlotPixel, acceptDrawColourBitmap, acceptDrawMonoBitmap,
        acceptFillRectangle, acceptSendCommand, acceptSendDataByte, acceptSetWindow, acceptBeginAsyncTransfer,
        acceptAwaitCompletion, whenIdle, hs, mapNext_fault]

/-- A primitive turn does not depend on the turns after it. -/
theorem primitiveTurn_turns (ts : List Turn) (s : State) :
    primitiveTurn (withTurns ts s) = mapNext (withTurns ts) (primitiveTurn s) := by
  rcases hs : s.seq with _ | pos
  · have hp : ∀ u : State, u.seq = .idle → primitiveTurn u = acceptNext u fun i s => acceptInstr i s begun := by
      intro u hu; unfold primitiveTurn; rw [hu]
    rw [hp s hs, hp (withTurns ts s) hs]
    unfold acceptNext nextRequest
    dsimp only
    rcases s.requests with _ | ⟨d, ds⟩
    · rfl
    · dsimp only
      rcases decode s.cfg.addrW d with _ | i
      · rfl
      · exact acceptInstr_turns i ts { s with requests := ds, ops := latchesOf d }
  · rw [primitiveTurn_busy hs, primitiveTurn_busy (s := withTurns ts s) hs]
    cases pos with
    | line todo e =>
      cases todo with
      | nil => exact congrArg Host.Outcome.next (place_at' s.seq ts [] e s)
      | cons p ps =>
        simp only [advance]
        rw [show perform p (withTurns ts s) = mapNext (at' s.seq ts) (perform p s) from perform_at' s.seq ts p s]
        rcases perform p s with m | r | r
        · exact congrArg Host.Outcome.next (place_at' s.seq ts ps e m)
        · rfl
        · rfl
    | awaitDirect => simp only [advance]; cases s.done <;> rfl
    | awaitChunk op =>
      simp only [advance]
      cases s.done
      · rfl
      · have := place_at' s.seq ts [] (.loop op) (advanceChunk op s)
        refine (congrArg Host.Outcome.next ?_ :
        Host.Outcome.next _ = Host.Outcome.next (withTurns ts (place [] (.loop op) (advanceChunk op s))))
        refine (Eq.trans ?_ this)
        cases op <;> rfl

/-! ### ENGINE's turn -/

/-- No primitive changes the parameters (00_scope R10). -/
theorem performAll_cfg (todo : List Primitive) (s : State) :
    Meets (fun t => t.cfg = s.cfg) (fun _ => True) (fun _ => True) (performAll todo s) := by
  induction todo generalizing s with
  | nil => rfl
  | cons p ps ih =>
    rw [performAll_cons]
    apply Meets.andThen
    have : Meets (fun t => t.cfg = s.cfg) (fun _ => True) (fun _ => True) (perform p s) := by
      cases p with
      | tableSent => rfl
      | fillSlots => rfl
      | setCount => rfl
      | setCounters op => cases op <;> rfl
      | unpack i =>
        unfold perform unpackOne
        exact readSource_meets (fun _ _ _ => rfl) trivial trivial
      | beginDirect | beginChunk => simp only [perform, beginTransfer, whenDone]; split <;> first | rfl | trivial
      | drive | transmit | resetPanel | driveFree => simp only [perform, onFreeBus]; split <;> first | rfl | trivial
    exact this.weaken fun t ht => (ih t).weaken fun u hu => hu.trans ht

/-- ENGINE's turn up to its next hold or retirement is a path of single actions, or the refusal of a descriptor. -/
theorem path_engineTurn (s : State) (hn : 1 ≤ s.cfg.n) :
    Path s (engineTurn s) ∨ engineTurn s = .refused .illegalDescriptor := by
  have run' : ∀ todo e (s : State), 1 ≤ s.cfg.n → Path (place todo e s) (run todo e s) := fun todo e s hn =>
    path_run todo e s fun m hm => by rw [(performAll_cfg todo s).of_next hm]; exact hn
  unfold engineTurn
  split
  · rename_i pos hs
    refine .inl ?_
    cases pos with
    | line todo e =>
      cases todo with
      | cons p ps =>
        have h : place (p :: ps) e s = s := by simp only [place]; rw [← hs]
        exact (h ▸ run' (p :: ps) e s hn :)
      | nil => exact .primitive (m := place [] e s) (primitiveTurn_busy hs) (run' [] e s hn)
    | awaitDirect =>
      simp only [resume]
      split
      · rename_i hd
        refine .primitive ?_ (.here _)
        rw [primitiveTurn_busy hs, advance, if_pos hd]
      · exact .here _
    | awaitChunk op =>
      simp only [resume]
      split
      · rename_i hd
        refine .primitive (m := place [] (.loop op) (advanceChunk op s)) ?_
          (path_streamLoop op _ _ (Nat.le_refl _) (by cases op <;> exact hn))
        rw [primitiveTurn_busy hs, advance, if_pos hd]
      · exact .here _
  · rename_i hs
    have hp : primitiveTurn s = acceptNext s fun i s => acceptInstr i s begun := by unfold primitiveTurn; rw [hs]
    unfold acceptNext at hp ⊢
    rcases hr : nextRequest s with _ | ⟨d, u⟩
    · exact .inl (.here _)
    · rw [hr] at hp
      dsimp only at hp ⊢
      rcases hd : decode u.cfg.addrW d with _ | i
      · exact .inr rfl
      · rw [hd] at hp
        dsimp only at hp ⊢
        refine .inl ?_
        rw [exec_eq_run]
        have hu : u.cfg = s.cfg := by
          unfold nextRequest at hr
          split at hr
          · cases hr
          · cases hr; rfl
        rcases acceptInstr_cases i u with ⟨todo, e, load, hk⟩ | ⟨o, ho, hk⟩
        · rw [hk] at hp ⊢
          exact .primitive hp (run' todo e (accept load u) (show 1 ≤ u.cfg.n from hu ▸ hn))
        · rw [hk] at hp ⊢
          exact .primitiveStops hp ho

end Sys2Proof.Machine
end

