-- ==== Sys2Proof/Tests/Slice0.lean ====
section
/-! SUPPORT. Tests: well-formedness, decoding and encoding of words written out from 30_encoding and 95_test_vectors, one
or two steps per operation with the results 95 gives, and for every statement with hypotheses a witness that meets
them. -/

namespace Sys2Proof.Tests

open Sys2Proof Sys2Proof.Machine

/-! ### Helpers -/

/-- The descriptor of five words, `W0` lowest (30_encoding R81). -/
def words (w0 w1 w2 w3 w4 : Nat) : Descriptor :=
  BitVec.ofNat 160 (w0 + w1 * 2 ^ 32 + w2 * 2 ^ 64 + w3 * 2 ^ 96 + w4 * 2 ^ 128)

/-- Bytes placed from an address on. -/
def placed (a : Nat) : List Byte → List Host.Cell
  | [] => []
  | b :: bs => (a, b) :: placed (a + 1) bs

/-- Whether the answer is a next state with a property. -/
def answers (o : Out) (p : State → Bool) : Bool :=
  match o with
  | .next s => p s
  | _ => false

def faults (o : Out) (f : Fault) : Bool :=
  match o with
  | .fault g => g == f
  | _ => false

def refuses (o : Out) (r : Refusal) : Bool :=
  match o with
  | .refused q => q == r
  | _ => false

theorem completes {o : Out} (h : answers o (fun _ => true) = true) : ∃ t, o = .next t := by
  cases o with
  | next s => exact ⟨s, rfl⟩
  | fault r => simp [answers] at h
  | refused r => simp [answers] at h

theorem faulted {o : Out} {f : Fault} (h : faults o f = true) : o = .fault f := by
  cases o <;> simp_all [faults]

/-- An event in command mode, one in data mode. -/
def C (b : Byte) : Event := ⟨.command, b⟩
def D (b : Byte) : Event := ⟨.data, b⟩

/-- Parameters of the tests: the defaults, a buffer of `n` slots, and a made-up table (95 V6.5). -/
def cfgN (n : Nat) : Config :=
  { Config.default with n := n, resetSeq := some .external, initSeq := some [⟨0x11, []⟩, ⟨0x3A, [0x55]⟩] }

/-- An engine at rest after `init()`, all answers of the bus `OK`, XFER's next `k` turns given. -/
def at0 (n : Nat) (mem : List Host.Cell) (k : Nat) : State :=
  { State.resetWith (cfgN n) .command with
    sync := List.replicate 13 .ok
    panel := Panel.unspecified true true 0
    mem := mem
    turns := List.replicate k .xfer }

/-- The image of 95 V5.1 and V3.1. -/
def red : List Byte := [0xF8, 0x00, 0x07, 0xE0]

/-- A transfer of `red` in flight, one byte sent (95 V1.6). -/
def inFlight : State :=
  { at0 2 (placed 0x3000 red) 0 with
    done := false
    dc := .data
    xfer := some ⟨.mem 0x3000, 4, 1⟩
    transfers := [.begun (.mem 0x3000) 4] }

/-- A fill of three pixels that holds in its first chunk, one byte of it sent (44 R152). -/
def filling : State :=
  { at0 2 [] 0 with
    seq := .busy (.awaitChunk .fill)
    ops := ⟨0, 0, 3, 1, 0, 0x001F, 0, 0, 0⟩
    done := false
    dc := .data
    xfer := some ⟨.staging, 4, 1⟩
    stg := List.replicate 2 ⟨0x00, 0x1F, true⟩
    rem := 6
    transfers := [.begun .staging 4] }

/-- A mono blit of three pixels between the two `UnpackOne` of its first chunk (45 R167). -/
def unpacking : State :=
  { at0 2 (placed 0x1000 [0xA0]) 0 with
    seq := .busy (.line [.unpack 1, .beginChunk .mono] (.awaitChunk .mono))
    ops := ⟨0, 0, 3, 1, 0x1000, 0xF800, 0x001F, 0, 0⟩
    dc := .data
    stg := [⟨0x00, 0x1F, true⟩, ⟨0xAB, 0xCD, false⟩]
    cursor := ⟨0x1000, 0x40, 1⟩
    rem := 3
    cnt := 2
    turns := [.primitive] }

/-- ENGINE's primitive turn, before these primitives of an operation without a chunk loop. -/
def before (todo : List Primitive) (s : State) : State :=
  { s with seq := .busy (.line todo .retire), turns := [.primitive] }

/-! ### Well-formedness: an ill-formed term for each check (30_encoding R82, R84) -/

theorem wf_drawColourBitmap_refused : Instr.wf 24 (.drawColourBitmap 0 0 1 1 0x01000000) = false := by decide
theorem wf_drawMonoBitmap_refused : Instr.wf 24 (.drawMonoBitmap 0 0 1 1 0x01000000 0 0) = false := by decide
theorem wf_beginAsyncTransfer_refused : Instr.wf 24 (.beginAsyncTransfer 0x01000000 1) = false := by decide
theorem wf_beginAsyncTransfer_top : Instr.wf 24 (.beginAsyncTransfer 0x00FFFFFF 1) = true := by decide

/-- R10: `N` is a power of two up to 32768, the panel has a pixel, the bound is positive, `ADDR_W` is 1 to 32. -/
theorem config_checks :
    Config.default.wf = true ∧ { Config.default with n := 1 }.wf = true ∧ { Config.default with n := 32768 }.wf = true ∧
    { Config.default with n := 0 }.wf = false ∧ { Config.default with n := 3 }.wf = false ∧
    { Config.default with n := 65536 }.wf = false ∧ { Config.default with panelWidth := 0 }.wf = false ∧
    { Config.default with panelHeight := 65537 }.wf = false ∧ { Config.default with syncWaitBound := 0 }.wf = false ∧
    { Config.default with addrW := 33 }.wf = false ∧ { Config.default with addrW := 0 }.wf = false := by decide

/-! ### Decoding: a word for every row, laid out from R81 to R83 and the vectors of 95 -/

theorem decode_reset : decode 32 (words 0x00000000 0 0 0 0) = .ok .reset := by decide
theorem decode_init : decode 32 (words 0x00000001 0 0 0 0) = .ok .init := by decide
theorem decode_plotPixel : decode 32 (words 0x00000002 0x00070005 0 0 0x0000F800) = .ok (.plotPixel 5 7 0xF800) := by
  decide
theorem decode_drawColourBitmap :
    decode 32 (words 0x00000003 0x00010001 0x00020003 0x00002000 0) = .ok (.drawColourBitmap 1 1 3 2 0x2000) := by decide
theorem decode_drawMonoBitmap :
    decode 32 (words 0x00000004 0x00030002 0x00020004 0x00001000 0x001FF800) =
      .ok (.drawMonoBitmap 2 3 4 2 0x1000 0xF800 0x001F) := by decide
theorem decode_fillRectangle :
    decode 32 (words 0x00000005 0x00030002 0x00020003 0 0x0000001F) = .ok (.fillRectangle 2 3 3 2 0x001F) := by decide
theorem decode_sendCommand : decode 32 (words 0x00002C10 0 0 0 0) = .ok (.sendCommand 0x2C) := by decide
theorem decode_sendDataByte : decode 32 (words 0x00001311 0 0 0 0) = .ok (.sendDataByte 0x13) := by decide
theorem decode_setWindow :
    decode 32 (words 0x00000012 0x00450123 0x010001FF 0 0) = .ok (.setWindow 0x0123 0x0045 0x01FF 0x0100) := by decide
theorem decode_beginAsyncTransfer :
    decode 32 (words 0x00000013 0 0 0x00003000 0x00010004) = .ok (.beginAsyncTransfer 0x3000 0x00010004) := by decide
theorem decode_awaitCompletion : decode 32 (words 0x00000014 0 0 0 0) = .ok .awaitCompletion := by decide

/-- 95 V1.8 to V1.11, V3.11. -/
theorem decode_rejects :
    decode 32 (words 0x00010010 0 0 0 0) = .error .reservedNotZero ∧
    decode 32 (words 0x12340010 0xFFFFFFFF 0xFFFFFFFF 0 0xFFFFFFFF) = .error .reservedNotZero ∧
    decode 32 (words 0x00000006 0 0 0 0) = .error .unassignedOpcode ∧
    decode 24 (words 0x00000013 0 0 0x01000000 4) = .error .pointerTooWide ∧
    decode 32 (words 0x00002C10 0xFFFFFFFF 0xFFFFFFFF 0xFFFFFFFF 0xFFFFFFFF) = .ok (.sendCommand 0x2C) := by decide

/-- The same words from the encoder, one per layout. -/
theorem encode_words :
    encode (.drawMonoBitmap 2 3 4 2 0x1000 0xF800 0x001F) = words 0x00000004 0x00030002 0x00020004 0x00001000 0x001FF800 ∧
    encode (.plotPixel 5 7 0xF800) = words 0x00000002 0x00070005 0 0 0x0000F800 ∧
    encode (.setWindow 0x0123 0x0045 0x01FF 0x0100) = words 0x00000012 0x00450123 0x010001FF 0 0 ∧
    encode (.beginAsyncTransfer 0x3000 4) = words 0x00000013 0 0 0x00003000 0x00000004 ∧
    encode (.sendCommand 0x2C) = words 0x00002C10 0 0 0 0 := by decide

/-- A placed word runs as the very next step, also right after reset. -/
theorem test_withFetchWord :
    answers (step (State.reset.withFetchWord 32 0x14)) (fun s => s.retired == 1) = true ∧
    refuses (step (State.reset.withFetchWord 32 0x00010010)) .illegalDescriptor = true := by decide

/-! ### One step per operation -/

/-- 95 V1.1. -/
theorem test_sendCommand :
    answers (exec (.sendCommand 0x2C) { at0 64 [] 0 with dc := .data })
      (fun s => s.wire == [C 0x2C] && s.dc == .command && s.done) = true := by decide

/-- R8, 92 D1: acceptance, `DC <- Command` and `SyncTx` of `sendCommand` are three steps. -/
theorem test_sendCommand_primitives :
    answers (step { at0 64 [] 0 with requests := [words 0x00002C10 0 0 0 0], dc := .data })
      (fun s => s.seq == .busy (.line [.drive .command, .transmit [0x2C]] .retire) && s.wire == [] && s.dc == .data) =
      true ∧
    answers (step (before [.drive .command, .transmit [0x2C]] { at0 64 [] 0 with dc := .data }))
      (fun s => s.seq == .busy (.line [.transmit [0x2C]] .retire) && s.wire == [] && s.dc == .command) = true ∧
    answers (step (before [.transmit [0x2C]] (at0 64 [] 0)))
      (fun s => s.seq == .idle && s.wire == [C 0x2C] && s.retired == 1) = true := by decide

/-- 45 R168: one `UnpackOne` is one step; the pixel's bit is 0, so its colour is `fgColour`. -/
theorem test_unpackOne_primitive :
    answers (step unpacking) (fun s => s.stg == [⟨0x00, 0x1F, true⟩, ⟨0xF8, 0x00, true⟩] && s.cursor == ⟨0x1000, 0x20, 2⟩ &&
      s.xfer == none && s.seq == .busy (.line [.beginChunk .mono] (.awaitChunk .mono))) = true := by decide

/-- 95 V1.7: a transmit that times out with nothing sent. -/
theorem test_sendCommand_timeout :
    answers (exec (.sendCommand 0x2A) { at0 64 [] 0 with sync := [.timeout 0, .ok, .ok] })
      (fun s => s.wire == [] && s.syncTimeout && s.dc == .command && s.seq == .idle) = true := by decide

/-- 95 V1.4, and V1.5: a data byte with no command ever sent leaves the panel at any value, a new draw. -/
theorem test_sendDataByte :
    answers (exec (.sendDataByte 0x13) (at0 64 [] 0))
      (fun s => s.wire == [D 0x13] && s.dc == .data && s.panel.draw == 1) = true := by decide

/-- 95 V2.3: every byte distinct; the columns are off the panel, a new draw, the rows are taken. -/
theorem test_setWindow :
    answers (exec (.setWindow 0x0123 0x0045 0x01FF 0x0100) (at0 64 [] 0))
      (fun s => s.wire == [C 0x2A, D 0x01, D 0x23, D 0x01, D 0xFF, C 0x2B, D 0x00, D 0x45, D 0x01, D 0x00, C 0x2C] &&
        s.dc == .data && s.panel.draw == 1 && s.panel.ys == 0x45 && s.panel.ye == 0x100) = true := by decide

/-- 95 V2.1, the panel after it. -/
theorem test_setWindow_panel :
    answers (exec (.setWindow 10 10 19 19) (at0 64 [] 0))
      (fun s => s.panel.xs == 10 && s.panel.xe == 19 && s.panel.ys == 10 && s.panel.ye == 19 &&
        s.panel.cursor == (10, 10)) = true := by decide

/-- R61, R65: after an unfinished frame and after an unknown command a whole `setWindow` and its pixel are taken. -/
theorem test_panel_recovers :
    let cfg := cfgN 2
    let p := [C 0x2A, D 0x00, C 0x11, D 0x55].foldl (Panel.receive cfg) (Panel.unspecified true true 0)
    let q := (windowEvents cfg 5 7 5 7 ++ [D 0xF8, D 0x00]).foldl (Panel.receive cfg) p
    q.xs = 5 ∧ q.ye = 7 ∧ q.pixel 5 7 = 0xF800 := by decide

/-- 95 V4.1. -/
theorem test_plotPixel :
    answers (exec (.plotPixel 5 7 0xF800) (at0 64 [] 0))
      (fun s => s.wire == [C 0x2A, D 0x00, D 0x05, D 0x00, D 0x05, C 0x2B, D 0x00, D 0x07, D 0x00, D 0x07, C 0x2C,
          D 0xF8, D 0x00] && s.panel.pixel 5 7 == 0xF800) = true := by decide

/-- 95 V4.6: out of range with a transfer in flight. -/
theorem test_plotPixel_out_of_range :
    answers (exec (.plotPixel 240 0 0x1234) inFlight) (fun s => s.wire == [] && s.retired == 1) = true ∧
    faults (exec (.plotPixel 0 0 0x1234) inFlight) .busConflict = true := by decide

/-- 95, the step trace of the two-chunk fill with `N = 4`. -/
theorem test_fillRectangle :
    answers (exec (.fillRectangle 2 3 3 2 0x001F) (at0 4 [] 14))
      (fun s => s.wire.drop 11 == (List.replicate 6 [D 0x00, D 0x1F]).flatten && s.wire.length == 23 &&
        s.transfers == [.begun .staging 8, .completed, .begun .staging 4, .completed] &&
        s.panel.pixel 4 4 == 0x001F && s.panel.cursor == (2, 5) && s.turns == []) = true := by decide

/-- 95 V4.15, V4.16. -/
theorem test_fillRectangle_refused :
    refuses (exec (.fillRectangle 0 0 0 5 1) (at0 4 [] 0)) .badRectangle = true ∧
    refuses (exec (.fillRectangle 65535 0 2 1 1) (at0 4 [] 0)) .badRectangle = true := by decide

/-- 95 V5.2: three chunks straight from memory. -/
theorem test_drawColourBitmap :
    answers (exec (.drawColourBitmap 1 1 3 2 0x2000)
        (at0 2 (placed 0x2000 [0xF8, 0x00, 0x07, 0xE0, 0x00, 0x1F, 0xFF, 0xFF, 0x12, 0x34, 0xAB, 0xCD]) 15))
      (fun s => s.wire.drop 11 == [D 0xF8, D 0x00, D 0x07, D 0xE0, D 0x00, D 0x1F, D 0xFF, D 0xFF, D 0x12, D 0x34, D 0xAB,
          D 0xCD] &&
        s.transfers == [.begun (.mem 0x2000) 4, .completed, .begun (.mem 0x2004) 4, .completed, .begun (.mem 0x2008) 4,
          .completed] &&
        s.panel.pixel 2 2 == 0x1234) = true := by decide

/-- 95 V5.3. -/
theorem test_drawColourBitmap_wrap :
    refuses (exec (.drawColourBitmap 0 0 1 1 0xFFFFFFFF) (at0 2 [] 0)) .addressWrap = true := by decide

/-- 95 V5.9: three rows of three, chunked mid-row; the set padding bits are not seen. -/
theorem test_drawMonoBitmap :
    answers (exec (.drawMonoBitmap 5 5 3 3 0x1000 0x0000 0xFFFF) (at0 4 (placed 0x1000 [0xBF, 0x5F, 0x20]) 21))
      (fun s => s.wire.drop 11 == ([0xFF, 0x00, 0xFF, 0x00, 0xFF, 0x00, 0x00, 0x00, 0xFF].flatMap fun b => [D b, D b]) &&
        s.transfers == [.begun .staging 8, .completed, .begun .staging 8, .completed, .begun .staging 2, .completed] &&
        s.cursor == ⟨0x1003, 0x80, 0⟩) = true := by decide

/-- 95 S5: the second row starts a fresh byte. -/
theorem test_drawMonoBitmap_realigns :
    answers (exec (.drawMonoBitmap 2 3 4 2 0x1000 0x0000 0xFFFF) (at0 8 (placed 0x1000 [0xA0, 0x50]) 17))
      (fun s => s.reads == [0x1000, 0x1000, 0x1000, 0x1000, 0x1001, 0x1001, 0x1001, 0x1001] &&
        s.wire.drop 11 == ([0xFF, 0x00, 0xFF, 0x00, 0x00, 0xFF, 0x00, 0xFF].flatMap fun b => [D b, D b])) = true := by
  decide

/-- 95 V3.1: nothing on the wire yet. -/
theorem test_beginAsyncTransfer :
    answers (exec (.beginAsyncTransfer 0x3000 4) (at0 2 (placed 0x3000 red) 0))
      (fun s => s.wire == [] && !s.done && s.xfer == some ⟨.mem 0x3000, 4, 0⟩ && s.seq == .idle) = true := by decide

/-- 95 V3.8: the transfer carries the mode the host left. -/
theorem test_awaitCompletion :
    answers (exec .awaitCompletion
        { at0 2 (placed 0x3000 red) 5 with done := false, xfer := some ⟨.mem 0x3000, 4, 0⟩ })
      (fun s => s.wire == [C 0xF8, C 0x00, C 0x07, C 0xE0] && s.done && s.xfer == none && s.seq == .idle) = true := by
  decide

/-- 95 V3.10: without turns for XFER the engine holds. -/
theorem test_awaitCompletion_holds :
    answers (exec .awaitCompletion inFlight) (fun s => s.seq == .busy .awaitDirect && !s.done) = true := by decide

/-- 95 V6.2 and V6.1. -/
theorem test_reset :
    answers (exec .reset (at0 2 [] 0)) (fun s => s.wire == [] && s.done && !s.panel.ready && s.panel.draw == 1) = true ∧
    refuses (exec .reset State.reset) .noResetSequence = true := by decide

/-- R150, R246, R26 (log 31): the bytes of the staging buffer stay, and no slot is written any more. -/
theorem test_staging_untouched :
    ∀ i ∈ [Instr.reset, .init, .plotPixel 5 7 1],
      answers (exec i { at0 2 [] 0 with stg := [⟨0x00, 0x1F, true⟩, ⟨0xAB, 0xCD, false⟩] })
        (fun s => s.stg == [⟨0x00, 0x1F, false⟩, ⟨0xAB, 0xCD, false⟩]) = true := by decide

/-- 95 V6.5 with a byte that times out (R202): the table goes on, the mark is set, the panel is not ready (log 19). -/
theorem test_init_timeout :
    answers (exec .init { at0 2 [] 0 with sync := [.timeout 0, .ok, .ok] })
      (fun s => s.wire == [C 0x3A, D 0x55] && s.dc == .data && s.syncTimeout && !s.panel.ready && s.seq == .idle) = true := by
  decide

/-- 95 V6.5 and V6.3; R60: the panel's last command byte is the table's last. -/
theorem test_init :
    answers (exec .init (at0 2 [] 0))
      (fun s => s.wire == [C 0x11, C 0x3A, D 0x55] && s.dc == .data && s.panel.ready && s.panel.cmd == 0x3A) = true ∧
    refuses (exec .init State.reset) .noInitTable = true := by decide

/-- R192, R222, 92 D25: the boot order is `reset()`, then `init()`. -/
theorem test_boot_order :
    answers (exec .init { at0 2 [] 0 with panel := Panel.unspecified false false 0 }) (fun s => !s.panel.ready) = true ∧
    answers (exec .reset { at0 2 [] 0 with panel := Panel.unspecified false false 0 })
      (fun s => s.panel.wasReset && !s.panel.ready) = true ∧
    answers (exec .init { at0 2 [] 0 with panel := Panel.unspecified true false 0 }) (fun s => s.panel.ready) = true := by
  decide

/-- 95 V3.9: HOST writes a byte of the transfer in flight. -/
theorem test_hostWrite_in_flight :
    faults (step { inFlight with turns := [.hostWrite 0x3002 0] }) .inFlightMutation = true ∧
    answers (step { inFlight with turns := [.hostWrite 0x3004 0x5A] })
      (fun s => Memory.read s.mem 0x3004 == some 0x5A && Memory.read s.mem 0x3003 == some 0xE0) = true := by decide

/-- The canonical form of memory: out of order and doubled addresses are refused, a write restores the order. -/
theorem test_memory_wf :
    Memory.wf [(2, 0), (1, 0)] = false ∧ Memory.wf [(1, 0), (1, 0)] = false ∧
    Memory.write [(1, 0x11), (3, 0x33)] 2 0x22 = [(1, 0x11), (2, 0x22), (3, 0x33)] ∧
    Memory.write [(1, 0x11)] 1 0x22 = [(1, 0x22)] := by decide

/-! ### Witnesses: states and operands that meet the hypotheses of each statement together -/

/-- An idle engine whose next request is `d`. -/
def requesting (d : Descriptor) (addrW : Nat) : State :=
  { at0 2 [] 0 with cfg := { cfgN 2 with addrW := addrW }, requests := [d], turns := [.engine] }

theorem witness_DecodeOfEncode :
    (Instr.drawMonoBitmap 0xFFFF 1 2 3 0x00FFFFFF 4 0xFFFF).wf 24 = true ∧
    (Instr.beginAsyncTransfer 0xFFFFFFFF 0xFFFFFFFF).wf 32 = true ∧ Instr.awaitCompletion.wf 1 = true := by decide

theorem witness_UnlistedFieldsAreIgnored :
    let d := words 0x00002C10 0 0 0 0
    let d' := words 0x00002C10 0xFFFFFFFF 0xFFFFFFFF 0x00FFFFFF 0xFFFFFFFF
    decode 24 d = .ok (.sendCommand 0x2C) ∧ rsvField d' = 0 ∧ (ptrField d').toNat < 2 ^ 24 ∧
    d' &&& operandMask (.sendCommand 0x2C) = d &&& operandMask (.sendCommand 0x2C) := by decide

theorem requesting_meets (d : Descriptor) (addrW : Nat) :
    (requesting d addrW).seq = .idle ∧ EngineMoves (requesting d addrW) ∧ (requesting d addrW).requests = [d] ∧
    (requesting d addrW).cfg.addrW = addrW := ⟨rfl, ⟨_, rfl⟩, rfl, rfl⟩

/-- Each disjunct, at the ends of its range; the states are those of `requesting_meets`. -/
theorem witness_IllegalDescriptorsAreRefused :
    (opcField (words 0x06 0 0 0 0)).toNat = 0x06 ∧ (opcField (words 0x0F 0 0 0 0)).toNat = 0x0F ∧
    (opcField (words 0x15 0 0 0 0)).toNat = 0x15 ∧ (opcField (words 0xFF 0 0 0 0)).toNat = 0xFF ∧
    rsvField (words 0x00010010 0 0 0 0) ≠ 0 ∧
    2 ^ 24 ≤ (ptrField (words 0x10 0 0 0x01000000 0)).toNat := by decide

/-- And the ends of the legal ranges. -/
theorem witness_legal_descriptors :
    (opcField (words 0x05 0 0 0 0)).toNat = 0x05 ∧ (opcField (words 0x10 0 0 0 0)).toNat = 0x10 ∧
    (opcField (words 0x14 0 0 0x00FFFFFF 0)).toNat = 0x14 ∧ rsvField (words 0x14 0 0 0x00FFFFFF 0) = 0 ∧
    (ptrField (words 0x14 0 0 0x00FFFFFF 0)).toNat < 2 ^ 24 := by decide

theorem witness_StepExecutesTheDecodedRequest :
    let s := requesting (words 0x00001311 0 0 0 0) 24
    let s' : State := { s with turns := [] }
    s.seq = .idle ∧ EngineMoves s ∧ PrimitiveMoves s' ∧ s.requests = [words 0x00001311 0 0 0 0] ∧
    decode s.cfg.addrW (words 0x00001311 0 0 0 0) = .ok (.sendDataByte 0x13) :=
  ⟨rfl, ⟨_, rfl⟩, .inl rfl, rfl, by decide⟩

/-- An acceptance, and a step without one. -/
theorem witness_AcceptanceLatchesOperands :
    (let s := requesting (words 0x00000012 0x00450123 0x010001FF 0x00000001 0x00020003) 24;
      s.seq = .idle ∧ EngineMoves s ∧
      s.requests = [words 0x00000012 0x00450123 0x010001FF 0x00000001 0x00020003] ∧ ∃ t, step s = .next t) ∧
    (∃ t, step filling = .next t ∧ t.requests = filling.requests) :=
  ⟨⟨rfl, ⟨_, rfl⟩, rfl, completes (by decide)⟩, ⟨filling, rfl, rfl⟩⟩

/-- For `SendCommandResult`, `SendDataByteResult` and `SetWindowResult`. -/
theorem witness_synchronous_results :
    (at0 2 [] 0).seq = .idle ∧ (at0 2 [] 0).xfer = none ∧ NoSyncTimeout 1 (at0 2 [] 0) ∧
    NoSyncTimeout 11 (at0 2 [] 0) := by decide

theorem witness_TimedOutByteIsMarkedAndTheEngineContinues :
    ∀ k ∈ [0, 1], let s : State := { at0 2 [] 0 with sync := [.timeout k] };
      s.seq = .idle ∧ s.xfer = none ∧ syncAnswer s s.draws = .timeout k := by decide

theorem witness_SynchronousOperationsCompleteWhateverTheBusAnswers :
    let s : State := { at0 2 [] 0 with sync := [.ok, .timeout 0, .timeout 1] }
    s.seq = .idle ∧ s.xfer = none ∧ (239 : Half).toNat < s.cfg.panelWidth ∧ (319 : Half).toNat < s.cfg.panelHeight ∧
    s.cfg.initSeq = some [⟨0x11, []⟩, ⟨0x3A, [0x55]⟩] := by decide

/-- Its clause about the streams: the window's second and third byte time out, and no turn is XFER's. -/
theorem witness_StreamsGoOnBehindATimedOutWindow :
    let s : State := { at0 2 (placed 0xFFFFFFFF [0x80]) 0 with sync := [.ok, .timeout 0, .timeout 1] }
    s.seq = .idle ∧ s.xfer = none ∧ s.cfg.wf = true ∧ s.done = true ∧ rectangleFits 65535 65535 1 1 = true ∧
    XferWaits s ∧ (0xFFFFFFFE : Word).toNat + totalBytes 1 1 ≤ 2 ^ s.cfg.addrW ∧
    ([0x80] : List Byte).length = monoBytes 1 1 ∧ (0xFFFFFFFF : Word).toNat + ([0x80] : List Byte).length ≤ 2 ^ s.cfg.addrW ∧
    Holds s.mem (0xFFFFFFFF : Word).toNat [0x80] :=
  ⟨rfl, rfl, by decide, rfl, by decide, fun _ h => (by cases h), by decide, by decide, by decide, by decide⟩

/-- For the two statements about the conflict on the bus: every clause at the end of its range. -/
theorem witness_bus_conflict :
    inFlight.seq = .idle ∧ inFlight.xfer = some ⟨.mem 0x3000, 4, 1⟩ ∧
    (239 : Half).toNat < inFlight.cfg.panelWidth ∧ (319 : Half).toNat < inFlight.cfg.panelHeight ∧
    rectangleFits 65535 65535 1 1 = true ∧
    (0xFFFFFFFE : Word).toNat + totalBytes 1 1 ≤ 2 ^ inFlight.cfg.addrW ∧
    (0xFFFFFFFF : Word).toNat + monoBytes 8 1 ≤ 2 ^ inFlight.cfg.addrW ∧
    inFlight.cfg.resetSeq ≠ none ∧ inFlight.cfg.initSeq ≠ none := by decide

theorem witness_PlotPixelResult :
    let s := at0 2 [] 0
    s.seq = .idle ∧ s.xfer = none ∧ NoSyncTimeout 12 s ∧
    (239 : Half).toNat < s.cfg.panelWidth ∧ (319 : Half).toNat < s.cfg.panelHeight ∧
    s.cfg.panelWidth ≤ (240 : Half).toNat ∧ s.cfg.panelHeight ≤ (320 : Half).toNat := by decide

/-- For `PanelResetResult` and `InitResult`, every clause of each. -/
theorem witness_panel_control :
    let s := at0 2 [] 0
    s.seq = .idle ∧ s.cfg.resetSeq = some .external ∧ s.xfer = none ∧ s.syncTimeout = false ∧
    s.cfg.initSeq = some [⟨0x11, []⟩, ⟨0x3A, [0x55]⟩] ∧
    NoSyncTimeout (tableEvents [⟨0x11, []⟩, ⟨0x3A, [0x55]⟩]).length s ∧
    State.reset.seq = .idle ∧ State.reset.cfg.resetSeq = none ∧ State.reset.cfg.initSeq = none := by decide

/-- The range ends with the last byte of the address space. -/
theorem witness_BeginAsyncTransferResult :
    let s := at0 2 [] 0
    s.seq = .idle ∧ s.done = true ∧ (1 : Word) ≠ 0 ∧ (0xFFFFFFFF : Word).toNat + (1 : Word).toNat ≤ 2 ^ s.cfg.addrW := by
  decide

theorem witness_BeginWhileFlagIsFalseIsXferOverlap :
    inFlight.seq = .idle ∧ inFlight.done = false ∧ (2 : Word) ≠ 0 ∧
    (0x3002 : Word).toNat + (2 : Word).toNat ≤ 2 ^ inFlight.cfg.addrW := by decide

theorem witness_EmptyAndWrappingTransfersAreRefused :
    let s := at0 2 [] 0
    s.seq = .idle ∧ (2 : Word) ≠ 0 ∧ 2 ^ s.cfg.addrW ≤ (0xFFFFFFFF : Word).toNat + (2 : Word).toNat - 1 := by decide

/-- The four clauses. -/
theorem witness_AwaitCompletionReturnsExactlyWhenDone :
    ((at0 2 [] 0).seq = .idle ∧ (at0 2 [] 0).done = true) ∧
    (inFlight.seq = .idle ∧ inFlight.done = false ∧ XferWaits inFlight ∧
      XferWaits { inFlight with turns := [.hostWrite 0x5000 1, .xfer] }) ∧
    (filling.seq = .busy (.awaitChunk .fill) ∧ filling.done = false ∧ EngineActs filling) ∧
    (let s : State := { at0 2 [] 0 with seq := .busy .awaitDirect, turns := [.engine] };
      s.seq = .busy .awaitDirect ∧ s.done = true ∧ EngineActs s) :=
  ⟨⟨rfl, rfl⟩, ⟨rfl, rfl, fun _ h => (by cases h), fun _ h => (by cases h)⟩, ⟨rfl, rfl, .inr (.inl rfl)⟩,
    ⟨rfl, rfl, .inl ⟨_, rfl⟩⟩⟩

/-- The last two clauses on a primitive turn. -/
theorem witness_AwaitCompletion_primitive :
    EngineActs { filling with turns := [.primitive] } ∧
    EngineActs { at0 2 [] 0 with seq := .busy .awaitDirect, turns := [.primitive] } :=
  ⟨.inr (.inr ⟨_, rfl⟩), .inr (.inr ⟨_, rfl⟩)⟩

theorem witness_AwaitCompletionCarriesTheTransferToItsEnd :
    let s : State := { inFlight with turns := List.replicate 4 .xfer ++ [.engine] }
    s.seq = .idle ∧ s.done = false ∧ s.xfer = some ⟨.mem 0x3000, 1 + (red.drop 1).length, 1⟩ ∧
    0x3000 + 1 + (red.drop 1).length ≤ 2 ^ s.cfg.addrW ∧ Holds s.mem (0x3000 + 1) (red.drop 1) ∧
    XferTakes ((red.drop 1).length + 1) [.engine] s := by decide

/-- From the staging buffer, the last byte from memory, and a byte HOST has not placed. -/
theorem witness_XferEmitsOneByte :
    (let s : State := { filling with turns := [.xfer] };
      s.turns = [.xfer] ∧ 1 < 4 ∧ s.xfer = some ⟨.staging, 4, 1⟩ ∧ stagingByte s.stg 1 = some 0x1F) ∧
    (let s : State := { inFlight with turns := [.xfer], xfer := some ⟨.mem 0x3000, 4, 3⟩ };
      s.turns = [.xfer] ∧ 3 < 4 ∧ s.xfer = some ⟨.mem 0x3000, 4, 3⟩ ∧ 0x3000 + 3 < 2 ^ s.cfg.addrW ∧
      Memory.read s.mem (0x3000 + 3) = some 0xE0) ∧
    (let s : State := { inFlight with turns := [.xfer], xfer := some ⟨.mem 0x3001, 4, 3⟩ };
      s.turns = [.xfer] ∧ 3 < 4 ∧ s.xfer = some ⟨.mem 0x3001, 4, 3⟩ ∧ 0x3001 + 3 < 2 ^ s.cfg.addrW ∧
      Memory.read s.mem (0x3001 + 3) = none) := by decide

theorem witness_XferCompletesOnceAfterTheLastByte :
    (let s : State := { inFlight with turns := [.xfer, .engine], xfer := some ⟨.mem 0x3000, 4, 4⟩ };
      s.turns = [.xfer, .engine] ∧ s.xfer = some ⟨.mem 0x3000, 4, 4⟩) ∧
    (at0 2 [] 1).turns = [.xfer] ∧ (at0 2 [] 1).xfer = none := by decide

theorem witness_MergedXferTurnsAreSingleSteps :
    let s : State := { inFlight with turns := List.replicate 4 .xfer ++ [.engine] }
    ∃ t, xferTurns s.turns s = .next t := completes (by decide)

/-- Each disjunct, and both ranges. -/
theorem witness_DegenerateRectanglesAndRangesAreRefused :
    (at0 2 [] 0).seq = .idle ∧ (0 : Half).toNat = 0 ∧ 65535 < (65535 : Half).toNat + (2 : Half).toNat - 1 ∧
    65535 < (1 : Half).toNat + (65535 : Half).toNat ∧ 1 ≤ (1 : Half).toNat ∧
    (65535 : Half).toNat + (1 : Half).toNat - 1 ≤ 65535 ∧
    2 ^ (at0 2 [] 0).cfg.addrW ≤ (0xFFFFFFFF : Word).toNat + (1 : Half).toNat * (1 : Half).toNat * 2 - 1 ∧
    2 ^ (at0 2 [] 0).cfg.addrW ≤ (0xFFFFFFFF : Word).toNat + (2 : Half).toNat * (((8 : Half).toNat + 7) / 8) - 1 := by
  decide

/-- For `FillRectangleResult` and `FillRectangleFillsItsRectangle`: a rectangle that ends at the panel's corner. -/
theorem witness_fill :
    let s := at0 2 [] 16
    s.cfg.wf = true ∧ Ready s ∧ rectangleFits 237 318 3 2 = true ∧ NoSyncTimeout 11 s ∧
    XferTakes (streamTurns s.cfg.nb (totalBytes 3 2)) [.xfer] s ∧ s.cfg.codesDistinct = true ∧
    s.panel.ready = true ∧ s.panel.midFrame s.cfg = false ∧ rising s.panel.gram = true ∧
    (237 : Half).toNat + (3 : Half).toNat ≤ s.cfg.panelWidth ∧ (318 : Half).toNat + (2 : Half).toNat ≤ s.cfg.panelHeight := by
  decide

/-- The image ends with the last byte of the address space. -/
theorem witness_DrawColourBitmapResult :
    let s := at0 2 (placed 0xFFFFFFFC red) 5
    s.cfg.wf = true ∧ Ready s ∧ rectangleFits 0 0 2 1 = true ∧ red.length = totalBytes 2 1 ∧
    (0xFFFFFFFC : Word).toNat + red.length ≤ 2 ^ s.cfg.addrW ∧ Holds s.mem (0xFFFFFFFC : Word).toNat red ∧
    NoSyncTimeout 11 s ∧ XferTakes (streamTurns s.cfg.nb red.length) [] s := by decide

/-- For `DrawMonoBitmapResult` and `MonoWireIsIndependentOfCapacity`. -/
theorem witness_mono :
    let s := at0 2 (placed 0xFFFFFFFE [0xA0, 0x50]) 20
    s.cfg.wf = true ∧ { s.cfg with n := 8 }.wf = true ∧ Ready s ∧ StagingSized s ∧
    (List.replicate 8 (⟨0xAB, 0xCD, true⟩ : Slot)).length = 8 ∧ rectangleFits 2 3 4 2 = true ∧
    [0xA0, 0x50].length = monoBytes 4 2 ∧ (0xFFFFFFFE : Word).toNat + [0xA0, 0x50].length ≤ 2 ^ s.cfg.addrW ∧
    Holds s.mem (0xFFFFFFFE : Word).toNat [0xA0, 0x50] ∧ NoSyncTimeout 11 s ∧
    XferTakes (streamTurns s.cfg.nb (totalBytes 4 2)) [] s := by decide

/-- For `ClosedFormAddressesAreTheBitmapsBytes` and `CursorClosedForm`. -/
theorem witness_width : 1 ≤ (1 : Half).toNat ∧ 1 ≤ (0xFFFF : Half).toNat := by decide

/-- The first and the last bit of a byte. -/
theorem witness_UnpackOneAdvancesTheCursor :
    ∀ k ∈ [0, 7],
      let s : State := { at0 2 (placed 0x1000 [0xA0]) 0 with cursor := ⟨0x1000, (0x80 : Byte) >>> k, k⟩ }
      k < 8 ∧ s.cursor.mask = (0x80 : Byte) >>> k ∧ s.cursor.p < 2 ^ s.cfg.addrW ∧
      Memory.read s.mem s.cursor.p = some 0xA0 := by decide

/-- 95 V5.9's rows with other padding, in two memories. -/
theorem witness_PaddingBitsAreNeverSeen :
    let img : List Byte := [0xBF, 0x5F, 0x20]
    let img' : List Byte := [0xA0, 0x40, 0x3F]
    let s := at0 4 (placed 0x1000 img) 21
    s.cfg.wf = true ∧ Ready s ∧ StagingSized s ∧ rectangleFits 5 5 3 3 = true ∧ img.length = monoBytes 3 3 ∧ img'.length = monoBytes 3 3 ∧
    (0x1000 : Word).toNat + img.length ≤ 2 ^ s.cfg.addrW ∧ Holds s.mem (0x1000 : Word).toNat img ∧
    Holds (placed 0x1000 img') (0x1000 : Word).toNat img' ∧
    (∀ r < (3 : Half).toNat, ∀ q < (3 : Half).toNat,
      (img.getD (r * rowStride 3 + q / 8) 0).getLsbD (7 - q % 8) =
      (img'.getD (r * rowStride 3 + q / 8) 0).getLsbD (7 - q % 8)) ∧
    NoSyncTimeout 11 s ∧ XferTakes (streamTurns s.cfg.nb (totalBytes 3 3)) [] s := by decide

/-- No turn is left, and HOST's turn comes next; the sources end with the last byte of the address space. -/
theorem witness_StreamingOperationsHoldWithoutXfer :
    let s := at0 2 (placed 0xFFFFFFFF [0x80]) 0
    s.cfg.wf = true ∧ Ready s ∧ rectangleFits 65535 65535 1 1 = true ∧ NoSyncTimeout 11 s ∧ XferWaits s ∧
    XferWaits { s with turns := [.hostWrite 0x5000 1, .xfer] } ∧
    (0xFFFFFFFE : Word).toNat + totalBytes 1 1 ≤ 2 ^ s.cfg.addrW ∧ ([0x80] : List Byte).length = monoBytes 1 1 ∧
    (0xFFFFFFFF : Word).toNat + ([0x80] : List Byte).length ≤ 2 ^ s.cfg.addrW ∧
    Holds s.mem (0xFFFFFFFF : Word).toNat [0x80] :=
  ⟨by decide, by decide, by decide, by decide, fun _ h => (by cases h), fun _ h => (by cases h), by decide, by decide,
    by decide, by decide⟩

/-- A stream of three pixels with `N = 2` whose first chunk has completed: the last, of one pixel, is still to come. -/
def held (op : Stream) : State :=
  { filling with
    seq := .busy (.awaitChunk op), ops := ⟨0, 0, 3, 1, 0x3000, 0x001F, 0xF800, 0, 0⟩, done := true, xfer := none
    mem := placed 0x3000 (red ++ [0x12, 0x34]), cnt := 2
    turns := .engine :: (List.replicate 3 .xfer ++ [.engine]) }

/-- The three clauses. -/
theorem witness_HeldStreamsGoOnWhereTheyHeld :
    (let s := held .fill;
      s.cfg.wf = true ∧ s.seq = .busy (.awaitChunk .fill) ∧ s.done = true ∧ s.xfer = none ∧ s.dc = .data ∧
      s.stg = List.replicate s.cfg.n (slotOf s.ops.c0) ∧ s.rem - min s.rem s.cfg.nb = 2 * 1 ∧
      s.turns = .engine :: (List.replicate (streamTurns s.cfg.nb (2 * 1)) .xfer ++ [.engine])) ∧
    (let s := held .colour;
      s.seq = .busy (.awaitChunk .colour) ∧ s.done = true ∧ s.xfer = none ∧ s.dc = .data ∧
      ([0x12, 0x34] : List Byte).length = s.rem - min s.rem s.cfg.nb ∧
      s.ops.ptr.toNat + (s.off + min s.rem s.cfg.nb) + ([0x12, 0x34] : List Byte).length ≤ 2 ^ s.cfg.addrW ∧
      Holds s.mem (s.ops.ptr.toNat + (s.off + min s.rem s.cfg.nb)) [0x12, 0x34] ∧
      s.turns = .engine :: (List.replicate (streamTurns s.cfg.nb 2) .xfer ++ [.engine])) ∧
    (let s : State := { held .mono with rem := 3, cursor := cursorAt 3 0x3000 2 };
      s.seq = .busy (.awaitChunk .mono) ∧ s.done = true ∧ s.xfer = none ∧ s.dc = .data ∧ s.stg.length = s.cfg.n ∧
      1 ≤ s.ops.w.toNat ∧ s.rem - s.cnt = 1 ∧ 2 + 1 = totalPixels s.ops.w s.ops.h ∧
      s.cursor = cursorAt s.ops.w s.ops.ptr.toNat 2 ∧ ([0xF8] : List Byte).length = monoBytes s.ops.w s.ops.h ∧
      s.ops.ptr.toNat + ([0xF8] : List Byte).length ≤ 2 ^ s.cfg.addrW ∧ Holds s.mem s.ops.ptr.toNat [0xF8] ∧
      s.turns = .engine :: (List.replicate (streamTurns s.cfg.nb (2 * 1)) .xfer ++ [.engine])) := by decide

/-- 95 V4.13: three chunks, the last of one pixel; and the smallest case. -/
theorem witness_ChunksCoverTheTotal :
    1 ≤ 4 ∧ 1 ≤ 9 ∧ chunkCount 8 18 = 3 ∧ (List.range 3).map (chunkLength 8 18) = [8, 8, 2] ∧
    chunkCount 2 2 = 1 ∧ chunkLength 2 2 0 = 2 := by decide

theorem witness_SlotsHoldWireOrder : 1 < (at0 2 [] 0).stg.length ∧ 1 / 2 ≠ 1 := by decide

theorem witness_ResetMeetsTheInvariant : (cfgN 1).wf = true ∧ (cfgN 32768).wf = true := by decide

/-- The invariant in a state in the middle of a fill. -/
theorem filling_inv : Inv filling where
  config := by decide
  flag := by decide
  owned := fun _ _ _ => .inl rfl
  transfer := by
    intro f hf
    cases hf
    exact ⟨by decide, by decide, fun _ => by decide, fun a h => by cases h⟩
  sized := by decide
  memory := by decide
  serial := by decide
  counters := by decide
  filled := fun _ => by decide
  cursor := fun h => by cases h
  inside := fun h => by cases h
  panel := by decide
  place := fun _ _ h => by cases h

/-- The invariant with a transfer requested by HOST in flight. -/
theorem inFlight_inv : Inv inFlight where
  config := by decide
  flag := by decide
  owned := by intro f hf h; cases hf; cases h
  transfer := by
    intro f hf
    cases hf
    refine ⟨by decide, by decide, fun h => (by cases h), fun a h => ?_⟩
    cases h
    decide
  sized := by decide
  memory := by decide
  serial := by decide
  counters := by decide
  filled := fun h => by cases h
  cursor := fun h => by cases h
  inside := fun h => by cases h
  panel := by decide
  place := fun _ _ h => by cases h

/-- The invariant between two primitives of a mono blit. -/
theorem unpacking_inv : Inv unpacking where
  config := by decide
  flag := by decide
  owned := by intro f hf; cases hf
  transfer := by intro f hf; cases hf
  sized := by decide
  memory := by decide
  serial := by decide
  counters := by decide
  filled := fun h => by cases h
  cursor := fun h => by cases h
  inside := fun h => by cases h
  panel := by decide
  place := by
    intro todo e h
    cases h
    exact ⟨rfl, ⟨⟨1, by decide, by decide⟩, by decide⟩, by decide,
      .inr ⟨rfl, by decide, 1, by decide, by decide, fun k hk => by
        obtain rfl : k = 0 := by omega
        exact ⟨_, rfl, rfl⟩⟩⟩

/-- For `StepKeepsTheInvariant`, `NoStepReadsAnUnwrittenSlot` and `StagingIsStableWhileDraining`: XFER's turn. -/
theorem witness_StepKeepsTheInvariant :
    ∃ t, step { filling with turns := [.xfer] } = .next t ∧ Inv { filling with turns := [.xfer] } ∧
      filling.xfer = some ⟨.staging, 4, 1⟩ := by
  obtain ⟨t, h⟩ := completes (show answers (step { filling with turns := [.xfer] }) (fun _ => true) = true by decide)
  exact ⟨t, h, ⟨filling_inv.1, filling_inv.2, filling_inv.3, filling_inv.4, filling_inv.5, filling_inv.6, filling_inv.7,
    filling_inv.8, filling_inv.9, filling_inv.10, filling_inv.11, filling_inv.12, fun _ _ h => (by cases h)⟩, rfl⟩

/-- And a primitive turn of ENGINE in the middle of an operation. -/
theorem witness_StepKeepsTheInvariant_line : ∃ t, step unpacking = .next t ∧ Inv unpacking := by
  obtain ⟨t, h⟩ := completes (show answers (step unpacking) (fun _ => true) = true by decide)
  exact ⟨t, h, unpacking_inv⟩

/-- 95 P6, both wrong variants, on either turn of ENGINE; the third clause at the end of its ranges. -/
theorem witness_MisuseOfTheBusFaultsAtTheRequest :
    (∀ ts ∈ [[.engine], ([] : List Turn)],
      let s : State := { inFlight with requests := [words 0x00000013 0 0 0x00003002 0x00000002], turns := ts };
      let s' : State := { inFlight with requests := [words 0x00002C10 0 0 0 0], turns := ts };
      Inv s ∧ step s = .fault .xferOverlap ∧ Inv s' ∧ step s' = .fault .busConflict) ∧
    EngineActs inFlight ∧
    decode inFlight.cfg.addrW (words 0x00000013 0 0 0xFFFFFFFF 0x00000001) = .ok (.beginAsyncTransfer 0xFFFFFFFF 1) ∧
    (0xFFFFFFFF : Word).toNat + (1 : Word).toNat ≤ 2 ^ inFlight.cfg.addrW ∧
    decode inFlight.cfg.addrW (words 0x00000002 0x013F00EF 0 0 0) = .ok (.plotPixel 239 319 0) ∧
    (UsesBus inFlight.cfg .reset ∧ UsesBus inFlight.cfg .init ∧ UsesBus inFlight.cfg (.plotPixel 239 319 0) ∧
      UsesBus inFlight.cfg (.drawColourBitmap 65535 65535 1 1 0xFFFFFFFE) ∧
      UsesBus inFlight.cfg (.drawMonoBitmap 65535 65535 1 1 0xFFFFFFFF 0 0) ∧
      UsesBus inFlight.cfg (.fillRectangle 65535 65535 1 1 0) ∧ UsesBus inFlight.cfg (.sendCommand 0) ∧
      UsesBus inFlight.cfg (.sendDataByte 0) ∧ UsesBus inFlight.cfg (.setWindow 0 0 0 0)) := by
  refine ⟨?_, .inr (.inl rfl), by decide, by decide, by decide, by unfold UsesBus; decide⟩
  have key : ∀ ds ts, Inv { inFlight with requests := ds, turns := ts } := fun ds ts =>
    have i := inFlight_inv
    ⟨i.1, i.2, i.3, i.4, i.5, i.6, i.7, i.8, i.9, i.10, i.11, i.12, fun _ _ h => (by cases h)⟩
  intro ts ht
  refine ⟨key _ ts, ?_, key _ ts, ?_⟩ <;>
    (simp only [List.mem_cons, List.not_mem_nil, or_false] at ht
     rcases ht with rfl | rfl <;> exact faulted (by decide))

/-- In the accepting step, and in a step that goes on from a hold: the last chunk of `filling` has been sent; and from a
place between two primitives. -/
theorem witness_StreamingOperationsRetireWithNothingInFlight :
    answers (exec (.fillRectangle 0 0 1 1 1) (at0 2 [] 3)) (fun t => t.seq == .idle) = true ∧
    (let s : State := { filling with rem := 4, done := true, xfer := none, transfers := [] };
      Inv s ∧ s.seq = .busy (.awaitChunk .fill) ∧ answers (step s) (fun t => t.seq == .idle) = true) :=
  ⟨by decide, ⟨by decide, by decide, fun _ h => (by cases h), fun _ h => (by cases h), by decide, by decide, by decide,
    by decide, fun _ => by decide, fun h => (by cases h), fun h => (by cases h), by decide, fun _ _ h => (by cases h)⟩, rfl,
    by decide⟩

theorem witness_StreamingOperationsRetire_line :
    let s : State := { unpacking with turns := .engine :: List.replicate 8 .xfer }
    s.seq = .busy (.line [.unpack 1, .beginChunk .mono] (.awaitChunk .mono)) ∧
    answers (step s) (fun t => t.seq == .idle) = true := by decide

theorem witness_ReentryCannotBeExpressed : filling.seq = .busy (.awaitChunk .fill) := by decide

/-- An operation, and XFER's turn. -/
theorem witness_OnlyHostWritesSourceMemory :
    (∃ t, exec .awaitCompletion inFlight = .next t) ∧
    (∀ a b ts, ({ inFlight with turns := [.xfer] } : State).turns ≠ .hostWrite a b :: ts) ∧
    (∃ t, step { inFlight with turns := [.xfer] } = .next t) :=
  ⟨completes (by decide), fun _ _ _ h => (by cases h), completes (by decide)⟩

/-- A write to the last byte in use and to the one after it, for a colour blit, a mono blit and a transfer. -/
theorem witness_HostWritesAreKeptOutOfTheRangeInUse :
    let blit (op : Stream) (a : Word) : State :=
      { at0 2 [] 0 with
        seq := .busy (.awaitChunk op)
        ops := ⟨0, 0, 9, 2, 0x1000, 0, 0, 0, 0⟩
        turns := [.hostWrite a 0] }
    ((blit .colour 0x1023).ops.ptr.toNat ≤ (0x1023 : Word).toNat ∧
      (0x1023 : Word).toNat < (blit .colour 0x1023).ops.ptr.toNat + totalBytes 9 2) ∧
    ((blit .mono 0x1003).ops.ptr.toNat ≤ (0x1003 : Word).toNat ∧
      (0x1003 : Word).toNat < (blit .mono 0x1003).ops.ptr.toNat + monoBytes 9 2) ∧
    (inFlight.xfer = some ⟨.mem 0x3000, 4, 1⟩ ∧ 0x3000 ≤ (0x3003 : Word).toNat ∧ (0x3003 : Word).toNat < 0x3000 + 4) ∧
    inRange (readRange (blit .mono 0x1004)) (0x1004 : Word).toNat = false ∧
    inRange (transferRange inFlight) (0x3004 : Word).toNat = false ∧
    ((Position.line [.unpack 1] (.awaitChunk .mono)).stream = some .mono ∧
      (Position.line [.drive .data] (.loop .colour)).stream = some .colour ∧
      (Position.line [.beginDirect] .retire).stream = none ∧
      (Position.line [.beginDirect] .retire).beginsDirect = true) ∧
    MemoryCanonical inFlight ∧ (0x3004 : Word).toNat < 2 ^ inFlight.cfg.addrW := by decide

/-- For the statements about any step: one in which a transfer begins and one in which it completes. -/
theorem witness_FlagFollowsTheTransferEvents :
    (answers (step (requesting (words 0x00000013 0 0 0x00003000 0x00000001) 32)) (fun t => !t.done) =
      true) ∧
    (answers (step { inFlight with turns := [.xfer], xfer := some ⟨.mem 0x3000, 4, 4⟩ }) (fun t => t.done) = true) := by
  decide

/-- The mark set, and the step adds a byte; a primitive turn that writes `DC`, one that adds bytes, one that writes the
flag. -/
theorem witness_StepsGrowTheTraceAndPrimitivesAreSingleActions :
    (let s : State := { requesting (words 0x00002C10 0 0 0 0) 32 with syncTimeout := true };
      s.syncTimeout = true ∧ ∃ t, step s = .next t) ∧
    answers (step (before [.drive .data] (at0 2 [] 0))) (fun t => t.dc == .data) = true ∧
    answers (step (before [.transmit [1]] (at0 2 [] 0))) (fun t => t.wire == [C 1]) = true ∧
    answers (step (before [.beginDirect] (at0 2 [] 0))) (fun t => !t.done) = true :=
  ⟨⟨rfl, completes (by decide)⟩, by decide, by decide, by decide⟩

/-- A turn of a whole operation, from acceptance and from a place inside it. -/
theorem witness_EngineTurnsAreRunsOfPrimitives :
    (let s := requesting (words 0x00002C10 0 0 0 0) 24;
      s.cfg.wf = true ∧ EngineMoves s ∧ ∃ t, step s = .next t) ∧
    (let s : State := { unpacking with turns := .engine :: List.replicate 8 .xfer };
      s.cfg.wf = true ∧ EngineMoves s ∧ ∃ t, step s = .next t) :=
  ⟨⟨by decide, ⟨_, rfl⟩, completes (by decide)⟩, ⟨by decide, ⟨_, rfl⟩, completes (by decide)⟩⟩

/-- For the three frames: every operation answers a next state. -/
theorem witness_frames :
    (∀ i ∈ [Instr.reset, .init, .plotPixel 5 7 1, .plotPixel 240 0 1, .sendCommand 1, .sendDataByte 1, .setWindow 1 2 3 4,
        .beginAsyncTransfer 0x3000 4, .awaitCompletion, .fillRectangle 0 0 2 1 1, .drawColourBitmap 0 0 2 1 0x3000,
        .drawMonoBitmap 0 0 2 1 0x3000 1 2],
      answers (exec i (at0 2 (placed 0x3000 red) 0)) (fun _ => true) = true) := by decide

/-- For `PanelTakesTheWindow` and `PanelPlacesTheStreamInRowMajorOrder`: a window that ends at the panel's corner, a
pixel for each of its places, on a panel at rest and on one in the middle of a frame. -/
theorem witness_panel_window :
    let cfg := cfgN 2
    let p := Panel.unspecified true true 0
    let p' := [C 0x2A, D 0x00].foldl (Panel.receive cfg) p
    cfg.codesDistinct = true ∧ p.ready = true ∧ p.midFrame cfg = false ∧ rising p.gram = true ∧
    p'.ready = true ∧ p'.midFrame cfg = true ∧ rising p'.gram = true ∧
    (238 : Half).toNat ≤ (239 : Half).toNat ∧ (239 : Half).toNat < cfg.panelWidth ∧
    (319 : Half).toNat ≤ (319 : Half).toNat ∧ (319 : Half).toNat < cfg.panelHeight ∧
    ([0x1234, 0xABCD] : List Half).length ≤ (239 - 238 + 1) * (319 - 319 + 1) := by decide

/-- Both address frames, at the panel's last column and row. -/
theorem witness_PanelTakesEachFrame :
    let cfg := cfgN 2
    cfg.codesDistinct = true ∧ (Panel.unspecified true true 0).ready = true ∧
    (joinBytes 0x00 0xEF).toNat ≤ (joinBytes 0x00 0xEF).toNat ∧ (joinBytes 0x00 0xEF).toNat < cfg.panelWidth ∧
    (joinBytes 0x01 0x3F).toNat ≤ (joinBytes 0x01 0x3F).toNat ∧ (joinBytes 0x01 0x3F).toNat < cfg.panelHeight := by
  decide

/-- A panel that has received these events. -/
def received (es : List Event) : Panel := es.foldl (Panel.receive (cfgN 2)) (Panel.unspecified true true 0)

/-- R65, 93 U9: the first byte past a full window leaves any value: the pixel just written is no longer known. -/
theorem test_panel_past_window :
    (received (windowEvents (cfgN 2) 239 319 239 319 ++ [D 0x12, D 0x34])).gram = [(pixelKey 239 319, 0x1234)] ∧
    (received (windowEvents (cfgN 2) 239 319 239 319 ++ [D 0x12, D 0x34, D 0x56])).gram = [] ∧
    (received (windowEvents (cfgN 2) 239 319 239 319 ++ [D 0x12, D 0x34, D 0x56])).draw = 1 := by decide

/-- Each clause, at the ends of its range: an unknown command; a command in mid frame; data outside a frame; the fourth
byte of columns and of rows, inverted by one and one off the panel; the fifth byte; the first byte past a window; a byte
in no window; a panel that is not ready. -/
theorem witness_PanelIsUnspecifiedOutsideTheContract :
    let cfg := cfgN 2
    let past := received (windowEvents cfg 239 319 239 319 ++ [D 0x12, D 0x34])
    let none' : Panel := { past with xs := 240 }
    (cfg.codesDistinct = true ∧ (0x11 : Byte) ≠ cfg.cmdCaset ∧ (0x11 : Byte) ≠ cfg.cmdPaset ∧
      (0x11 : Byte) ≠ cfg.cmdRamwr) ∧
    (received [C 0x2A, D 0, D 0, D 0]).midFrame cfg = true ∧
    (received []).inFrame = false ∧
    ((received [C 0x2A, D 0, D 5, D 0]).inFrame = true ∧ (received [C 0x2A, D 0, D 5, D 0]).params = [0, 5, 0] ∧
      (received [C 0x2A, D 0, D 5, D 0]).cmd = cfg.cmdCaset ∧
      (joinBytes 0 4).toNat < (joinBytes 0 5).toNat ∧ cfg.panelWidth ≤ (joinBytes 0 0xF0).toNat) ∧
    ((received [C 0x2B, D 0, D 5, D 1]).inFrame = true ∧ (received [C 0x2B, D 0, D 5, D 1]).params = [0, 5, 1] ∧
      (received [C 0x2B, D 0, D 5, D 1]).cmd = cfg.cmdPaset ∧
      (joinBytes 0 4).toNat < (joinBytes 0 5).toNat ∧ cfg.panelHeight ≤ (joinBytes 1 0x40).toNat) ∧
    ((received [C 0x2B, D 0, D 5, D 0, D 5]).inFrame = true ∧
      (received [C 0x2B, D 0, D 5, D 0, D 5]).params.length = 4 ∧
      (received [C 0x2B, D 0, D 5, D 0, D 5]).cmd = cfg.cmdPaset) ∧
    (past.ready = true ∧ past.inFrame = true ∧ past.cmd = cfg.cmdRamwr ∧ past.ye.toNat < past.cursor.2) ∧
    (none'.ready = true ∧ none'.inFrame = true ∧ none'.cmd = cfg.cmdRamwr ∧ none'.windowValid cfg = false) ∧
    (Panel.unspecified false false 0).ready = false := by decide

/-- The last pixel of the panel. -/
theorem witness_PlotPixelDrawsItsPixel :
    let s := at0 2 [] 0
    s.cfg.wf = true ∧ s.seq = .idle ∧ s.xfer = none ∧ NoSyncTimeout 12 s ∧ s.cfg.codesDistinct = true ∧
    s.panel.ready = true ∧ s.panel.midFrame s.cfg = false ∧ rising s.panel.gram = true ∧
    (239 : Half).toNat < s.cfg.panelWidth ∧ (319 : Half).toNat < s.cfg.panelHeight := by decide

/-- A run is over after its last operation has retired and its transfer has completed (70 R234). -/
theorem witness_RunOver : RunOver (at0 2 [] 0) ∧ ¬ RunOver inFlight := by decide

end Sys2Proof.Tests
end

namespace Sys2Proof.Machine

/-! ### A path as a run of single steps -/

/-- The staging buffer has at least one slot: `N` is a power of two (00_scope R10). -/
theorem one_le_n_of_wf {c : Config} (h : c.wf = true) : 1 ≤ c.n := by
  simp only [Config.wf, Bool.and_eq_true, List.any_eq_true, beq_iff_eq] at h
  obtain ⟨⟨⟨⟨⟨⟨⟨⟨k, -, hk⟩, -⟩, -⟩, -⟩, -⟩, -⟩, -⟩, -⟩ := h
  exact hk ▸ Nat.one_le_two_pow

/-- The turns after ENGINE's primitive turn are those before it. -/
theorem primitiveTurn_keeps_turns {s m : State} (h : primitiveTurn s = .next m) : m.turns = s.turns := by
  have hts : primitiveTurn s = mapNext (withTurns s.turns) (primitiveTurn s) := primitiveTurn_turns s.turns s
  rw [h] at hts
  exact (congrArg State.turns (Host.Outcome.next.inj hts) :)

/-- XFER's step leaves the phase and the turns after it alone. -/
theorem xferStep_keeps_place {s m : State} (h : xferStep s = .next m) : m.seq = s.seq ∧ m.turns = s.turns := by
  have hat : xferStep s = mapNext (at' s.seq s.turns) (xferStep s) := xferStep_at' s.seq s.turns s
  rw [h] at hat
  have hm : m = at' s.seq s.turns m := Host.Outcome.next.inj hat
  exact ⟨(congrArg State.seq hm :), (congrArg State.turns hm :)⟩

/-- A run goes on after its first step. -/
theorem run_succ_of_step {M : Host.Core} {k : Nat} {s m : M.State} (h : M.step s = .next m) :
    M.run (k + 1) s = M.run k m := by
  rw [Host.Core.run, h]

/-- A primitive turn that stands before any other turns is a step of the machine. -/
theorem step_primitive {s m : State} (h : primitiveTurn s = .next m) (ts : List Turn) :
    step (withTurns (.primitive :: ts) s) = .next (withTurns ts m) :=
  calc primitiveTurn (withTurns ts s) = mapNext (withTurns ts) (primitiveTurn s) := primitiveTurn_turns ts s
    _ = .next (withTurns ts m) := by rw [h, mapNext_next]

/-- A turn of XFER that stands before any other turns is a step of the machine. -/
theorem step_xfer {s m : State} {us : List Turn} (h : xferStep (withTurns us s) = .next m) (ts : List Turn) :
    step (withTurns (.xfer :: ts) s) = .next (withTurns ts m) :=
  calc xferStep (withTurns ts s) = mapNext (at' (withTurns us s).seq ts) (xferStep (withTurns us s)) :=
        xferStep_at' (withTurns us s).seq ts (withTurns us s)
    _ = .next (at' m.seq ts m) := by rw [h, ← (xferStep_keeps_place h).1, mapNext_next]

/-- A path to a next state is a run of single steps, XFER's being those of the turns it used. -/
theorem Path.exists_run {s t : State} {o : Out} (h : Path s o) (ho : o = .next t) :
    ∃ us : List Turn, (∀ u ∈ us, u = .primitive ∨ u = .xfer) ∧
      s.turns = List.replicate (us.count .xfer) .xfer ++ t.turns ∧
      Host.Core.run core us.length (withTurns (us ++ t.turns) s) = .next t := by
  induction h with
  | here s => cases ho; exact ⟨[], by simp, rfl, rfl⟩
  | primitive hm _ ih =>
    obtain ⟨us, hus, hturns, hrun⟩ := ih ho
    refine ⟨.primitive :: us, List.forall_mem_cons.2 ⟨.inl rfl, hus⟩, ?_, ?_⟩
    · rw [← primitiveTurn_keeps_turns hm, hturns, List.count_cons_of_ne (by decide)]
    · exact (run_succ_of_step (step_primitive hm _)).trans hrun
  | primitiveStops _ hstop => exact absurd ho (hstop t)
  | xfer hts hm _ ih =>
    obtain ⟨us, hus, hturns, hrun⟩ := ih ho
    refine ⟨.xfer :: us, List.forall_mem_cons.2 ⟨.inr rfl, hus⟩, ?_, ?_⟩
    · have hm_turns := (xferStep_keeps_place hm).2
      rw [hts, List.count_cons_self, List.replicate_succ, List.cons_append, ← hturns, hm_turns]
    · exact (run_succ_of_step (step_xfer hm _)).trans hrun
  | xferStops _ _ hstop => exact absurd ho (hstop t)

/-- Settles O60: such a turn is a path of single actions, and a path that ends in a next state is a run of single steps. -/
theorem engineTurnsAreRunsOfPrimitives : Obligations.EngineTurnsAreRunsOfPrimitives := by
  rintro s t hwf ⟨ts, hts⟩ hstep
  have hturn : engineTurn (withTurns ts s) = .next t := by
    rw [← hstep, step, takeTurn, hts]
  rcases path_engineTurn (withTurns ts s) (one_le_n_of_wf hwf) with hpath | hrefused
  · rw [hts]
    exact hpath.exists_run hturn
  · rw [hturn] at hrefused
    cases hrefused

end Sys2Proof.Machine

namespace Sys2Proof.Machine

/-! ### What a step of ENGINE accepts -/

/-- The next request that decodes to `i` is handed on as `i`, taken and with its fields latched. -/
theorem acceptNext_of_decode {s : State} {d : Descriptor} {ds : List Descriptor} {i : Instr}
    (hr : s.requests = d :: ds) (hd : decode s.cfg.addrW d = .ok i) (k : Instr → State → Out) :
    acceptNext s k = k i { s with requests := ds, ops := latchesOf d } := by
  simp only [acceptNext, nextRequest, hr, hd]

theorem engineTurn_idle {s : State} (h : s.seq = .idle) : engineTurn s = acceptNext s exec := by
  unfold engineTurn; rw [h]

theorem engineTurn_busy {s : State} {pos : Position} (h : s.seq = .busy pos) : engineTurn s = resume pos s := by
  unfold engineTurn; rw [h]

theorem primitiveTurn_idle {s : State} (h : s.seq = .idle) :
    primitiveTurn s = acceptNext s fun i s => acceptInstr i s begun := by
  unfold primitiveTurn; rw [h]

theorem step_of_engineMoves {s : State} (h : EngineMoves s) : step s = engineTurn (withTurns s.turns.tail s) := by
  obtain ⟨ts, h⟩ := h
  simp only [step, takeTurn, h, List.tail_cons]

theorem step_of_primitiveMoves {s : State} (h : PrimitiveMoves s) :
    step s = primitiveTurn (withTurns s.turns.tail s) := by
  rcases h with h | ⟨ts, h⟩
  · have same : withTurns s.turns.tail s = s := by rw [h, List.tail_nil, ← h]
    rw [same, step, takeTurn, h]
  · simp only [step, takeTurn, h, List.tail_cons]

/-- Settles O5: an idle engine's turn, of either kind, hands its next request on. -/
theorem stepExecutesTheDecodedRequest : Obligations.StepExecutesTheDecodedRequest := by
  intro s d ds i hidle hreq hdec
  have accepted := acceptNext_of_decode (s := withTurns s.turns.tail s) hreq hdec
  have idle : (withTurns s.turns.tail s).seq = .idle := hidle
  refine ⟨fun hmoves => ?_, fun hmoves => ?_⟩
  · rw [step_of_engineMoves hmoves, engineTurn_idle idle, accepted]
  · rw [step_of_primitiveMoves hmoves, primitiveTurn_idle idle, accepted]

/-! ### Staging slots -/

/-- A byte of the buffer depends on its slot alone. -/
theorem stagingByte_congr {stg stg' : List Slot} {k : Nat} (h : stg[k / 2]? = stg'[k / 2]?) :
    stagingByte stg k = stagingByte stg' k := by
  unfold stagingByte; rw [h]

/-- Settles O37: the written slot's two bytes in wire order, and every other slot as before. -/
theorem slotsHoldWireOrder : Obligations.SlotsHoldWireOrder := by
  intro s i c hi
  have written : (writeSlot i c s).stg[i]? = some (slotOf c) := List.getElem?_set_self hi
  refine ⟨?_, ?_, fun k hk => ?_⟩
  · have hslot : 2 * i / 2 = i := by omega
    rw [stagingByte_of_slot (c := c) (by rw [hslot]; exact written), if_pos (by omega)]
    rfl
  · have hslot : (2 * i + 1) / 2 = i := by omega
    rw [stagingByte_of_slot (c := c) (by rw [hslot]; exact written), if_neg (by omega)]
    rfl
  · exact stagingByte_congr (List.getElem?_set_ne (Ne.symm hk))

/-! ### Reset -/

theorem stagingUnwritten_resetWith (cfg : Config) (m : Mode) : StagingUnwritten (State.resetWith cfg m) :=
  ⟨List.length_replicate, fun sl hsl => by rw [List.eq_of_mem_replicate hsl]⟩

/-- Settles O38: the fields of `State.resetWith`, and `State.reset` as the one with `DC = Command`. -/
theorem resetState : Obligations.ResetState :=
  ⟨fun cfg m =>
    have unwritten := stagingUnwritten_resetWith cfg m
    ⟨rfl, rfl, rfl, unwritten, rfl, rfl, rfl, rfl, rfl, ⟨rfl, rfl, rfl⟩, rfl, unwritten⟩,
   .command, rfl⟩

/-- Settles O39: after reset nothing is in flight, the counters are zero and no place is inside an operation. -/
theorem resetMeetsTheInvariant : Obligations.ResetMeetsTheInvariant := by
  intro cfg m hwf
  exact {
    config := hwf
    flag := rfl
    owned := fun _ h => nomatch h
    transfer := fun _ h => nomatch h
    sized := List.length_replicate
    memory := rfl
    serial := rfl
    counters := ⟨Nat.two_pow_pos _, Nat.two_pow_pos _, Nat.two_pow_pos _, Nat.zero_le _, Nat.two_pow_pos _⟩
    filled := fun h => nomatch h
    cursor := fun h => nomatch h
    inside := fun h => nomatch h
    panel := rfl
    place := fun _ _ h => nomatch h }

end Sys2Proof.Machine

namespace Sys2Proof.Machine

/-! ### Rules for the conditions of an acceptance -/

section
variable {P : State → Prop} {F : Fault → Prop} {R : Refusal → Prop} {s : State} {k : State → Out} {o : Out}

theorem whenIdle_meets (hk : s.seq = .idle → Meets P F R (k s)) (hF : F .reentry) : Meets P F R (whenIdle s k) := by
  unfold whenIdle
  split
  · exact hk ‹_›
  · exact hF

theorem onFreeBus_meets (hk : s.xfer = none → Meets P F R (k s)) (hF : s.xfer ≠ none → F .busConflict) :
    Meets P F R (onFreeBus s k) := by
  rcases hx : s.xfer with _ | f
  · rw [onFreeBus_free hx]; exact hk hx
  · rw [onFreeBus_busy hx]; exact hF (by simp [hx])

theorem whenDone_meets (hk : s.done = true → Meets P F R (k s)) (hF : s.done = false → F .xferOverlap) :
    Meets P F R (whenDone s k) := by
  rcases hd : s.done with _ | _
  · rw [whenDone_false hd]; exact hF hd
  · rw [whenDone_true hd]; exact hk hd

theorem requireRectangle_meets {x y w h : Half} (ho : rectangleFits x y w h = true → Meets P F R o)
    (hR : R .badRectangle) : Meets P F R (requireRectangle x y w h o) := by
  unfold requireRectangle
  split
  · exact ho ‹_›
  · exact hR

theorem requireRange_meets {cfg : Config} {p : Word} {n : Nat} (ho : p.toNat + n ≤ 2 ^ cfg.addrW → Meets P F R o)
    (hR : R .addressWrap) : Meets P F R (requireRange cfg p n o) := by
  unfold requireRange rangeFits
  split
  · exact ho (of_decide_eq_true ‹_›)
  · exact hR

end

/-- The flag goes down and the record comes (43 R130). -/
def transferBegun (src : Source) (len : Nat) (s : State) : State :=
  { clearDone s with xfer := some ⟨src, len, 0⟩, transfers := s.transfers ++ [.begun src len] }

theorem beginTransfer_of_done {s : State} (hd : s.done = true) (src : Source) (len : Nat) :
    beginTransfer src len s = .next (transferBegun src len s) := whenDone_true hd _

/-- A place differs from the state it is reached in by the phase and the count of retirements. -/
theorem place_frame (todo : List Primitive) (e : Ending) (s : State) :
    place todo e s = { s with seq := (place todo e s).seq, retired := (place todo e s).retired } := by
  cases todo with
  | cons p ps => rfl
  | nil =>
    cases e with
    | loop op => simp only [place]; split <;> rfl
    | _ => rfl

/-! ### Rules for the turns -/

section
variable {P : State → Prop} {F : Fault → Prop} {R : Refusal → Prop} {s : State}

theorem acceptNext_meets {k : Instr → State → Out} (none_left : P s)
    (accepted : ∀ d ds i, Meets P F R (k i { s with requests := ds, ops := latchesOf d }))
    (illegal : R .illegalDescriptor) : Meets P F R (acceptNext s k) := by
  unfold acceptNext nextRequest
  rcases s.requests with _ | ⟨d, ds⟩
  · exact none_left
  · dsimp only
    rcases decode s.cfg.addrW d with _ | i
    · exact illegal
    · exact accepted d ds i

theorem hostWrite_meets {a : Word} {b : Byte} (written : P { s with mem := Memory.write s.mem a.toNat b })
    (inUse : F .inFlightMutation) (outside : F .addressOutsideSpace) : Meets P F R (hostWrite a b s) := by
  unfold hostWrite
  split
  · split
    · exact inUse
    · exact written
  · exact outside

/-- A step is the turn of one of the agents. -/
theorem step_meets (primitive : ∀ ts, Meets P F R (primitiveTurn (withTurns ts s)))
    (engine : ∀ ts, Meets P F R (engineTurn (withTurns ts s))) (xfer : ∀ ts, Meets P F R (xferStep (withTurns ts s)))
    (host : ∀ a b ts, Meets P F R (hostWrite a b (withTurns ts s))) : Meets P F R (step s) := by
  unfold step takeTurn
  split
  · exact primitive s.turns
  · exact engine _
  · exact primitive _
  · exact xfer _
  · exact host _ _ _

end

/-! ### What every single action keeps, every step keeps -/

/-- The answer, if it is a next state, has `I`. -/
abbrev Leads (I : State → Prop) (o : Out) : Prop := Meets I (fun _ => True) (fun _ => True) o

theorem leads_of_stops {I : State → Prop} {o : Out} (h : Stops o) : Leads I o :=
  meets_of_forall (fun t e => absurd e (h t)) (fun _ _ => trivial) (fun _ _ => trivial)

/-- Each single action keeps `I`: ENGINE's primitives, XFER's step, and what goes with them, which is the phase, the
turns, the requests, the latches, the staging buffer, the count of retirements and the counters of the
chunk loop. -/
structure ActionsKeep (I : State → Prop) : Prop where
  perform : ∀ p s, I s → Leads I (perform p s)
  xferStep : ∀ s, I s → Leads I (xferStep s)
  book : ∀ s q ts ds r o g, I s →
    I { s with seq := q, turns := ts, requests := ds, retired := r, ops := o, stg := g }
  advanceChunk : ∀ op s, I s → I (advanceChunk op s)

section
variable {I : State → Prop} (h : ActionsKeep I)
include h

theorem ActionsKeep.place (todo : List Primitive) (e : Ending) {s : State} (hs : I s) : I (place todo e s) := by
  rw [place_frame]; exact h.book s _ _ _ _ _ _ hs

theorem ActionsKeep.accept (load : Latches → Latches) {s : State} (hs : I s) : I (accept load s) :=
  h.book s _ _ _ _ _ _ hs

theorem ActionsKeep.performAll (todo : List Primitive) {s : State} (hs : I s) : Leads I (performAll todo s) := by
  induction todo generalizing s with
  | nil => exact hs
  | cons p ps ih => exact ((h.perform p s hs).weaken fun _ hm => ih hm).andThen

theorem ActionsKeep.xferTurns (ts : List Turn) {s : State} (hs : I s) : Leads I (xferTurns ts s) :=
  xferTurns_meets (fun s ts hs _ => h.xferStep _ (h.book s _ ts _ _ _ _ hs)) ts s hs

theorem ActionsKeep.stream (op : Stream) {s : State} (hs : I s) : Leads I (stream op s) := by
  refine streamLoop_meets op (fun s hs _ => ?_) (fun s hs => h.place [] .retire hs) s.rem s hs
  refine ((h.performAll _ hs).weaken fun m hm => (h.xferTurns _ hm).weaken fun t ht => ?_).andThen
  split
  · exact h.advanceChunk op t ht
  · exact h.place [] (.awaitChunk op) ht

theorem ActionsKeep.finish (e : Ending) {s : State} (hs : I s) : Leads I (finish e s) := by
  cases e with
  | retire => exact h.place [] .retire hs
  | loop op => exact h.stream op hs
  | awaitDirect =>
    refine ((h.xferTurns s.turns hs).weaken fun t ht => ?_).andThen
    split
    · exact h.place [] .retire ht
    · exact h.place [] .awaitDirect ht
  | awaitChunk op =>
    refine ((h.xferTurns s.turns hs).weaken fun t ht => ?_).andThen
    split
    · exact h.stream op (h.advanceChunk op t ht)
    · exact h.place [] (.awaitChunk op) ht

theorem ActionsKeep.run (todo : List Primitive) (e : Ending) {s : State} (hs : I s) : Leads I (run todo e s) :=
  ((h.performAll todo hs).weaken fun _ hm => h.finish e hm).andThen

/-- The acceptance of the next request, if what takes its line over keeps `I`. -/
theorem ActionsKeep.acceptNext {k : Begin} (hk : ∀ todo e s, I s → Leads I (k todo e s)) {s : State} (hs : I s) :
    Leads I (acceptNext s fun i s => acceptInstr i s k) := by
  refine acceptNext_meets hs (fun d ds i => ?_) trivial
  have taken : I { s with requests := ds, ops := latchesOf d } := h.book s _ _ _ _ _ _ hs
  rcases acceptInstr_cases i { s with requests := ds, ops := latchesOf d } with ⟨todo, e, load, eq⟩ | ⟨o, ho, eq⟩
  · rw [eq]; exact hk todo e _ (h.accept load taken)
  · rw [eq]; exact leads_of_stops ho

theorem ActionsKeep.engineTurn {s : State} (hs : I s) : Leads I (engineTurn s) := by
  rcases hq : s.seq with _ | pos
  · rw [engineTurn_idle hq, show exec = fun i s => acceptInstr i s Machine.run from funext₂ exec_eq_run]
    exact h.acceptNext (fun todo e _ hs => h.run todo e hs) hs
  · rw [engineTurn_busy hq]
    cases pos with
    | line todo e => exact h.run todo e hs
    | awaitDirect =>
      simp only [resume]
      split
      · exact h.place [] .retire hs
      · exact hs
    | awaitChunk op =>
      simp only [resume]
      split
      · exact h.stream op (h.advanceChunk op s hs)
      · exact hs

theorem ActionsKeep.primitiveTurn {s : State} (hs : I s) : Leads I (primitiveTurn s) := by
  rcases hq : s.seq with _ | pos
  · rw [primitiveTurn_idle hq]
    exact h.acceptNext (k := begun) (fun todo e _ hs => h.place todo e hs) hs
  · rw [primitiveTurn_busy hq]
    cases pos with
    | line todo e =>
      cases todo with
      | nil => exact h.place [] e hs
      | cons p ps =>
        refine Meets.andThen ((h.perform p s hs).weaken fun m hm => ?_)
        exact h.place ps e hm
    | awaitDirect =>
      simp only [advance]
      split
      · exact h.place [] .retire hs
      · exact hs
    | awaitChunk op =>
      simp only [advance]
      split
      · exact h.place [] (.loop op) (h.advanceChunk op s hs)
      · exact hs

/-- HOST's write is the one thing a step does that is not made of ENGINE's and XFER's single actions. -/
theorem ActionsKeep.step (hmem : ∀ s m, I s → I { s with mem := m }) {s : State} (hs : I s) : Leads I (step s) := by
  have turns (ts : List Turn) : I (withTurns ts s) := h.book s _ ts _ _ _ _ hs
  exact step_meets (fun ts => h.primitiveTurn (turns ts)) (fun ts => h.engineTurn (turns ts))
    (fun ts => h.xferStep _ (turns ts)) fun _ _ ts => hostWrite_meets (hmem _ _ (turns ts)) trivial trivial

end

/-! ### The flag and the transfer events -/

/-- From `s` to `t` the transfer events grow, and the flag rises only with a completion and falls only with a begin
(10_state R23). -/
def FlagFollows (s t : State) : Prop :=
  ∃ es, t.transfers = s.transfers ++ es ∧
    (s.done = false → t.done = true → XferEvent.completed ∈ es) ∧
    (s.done = true → t.done = false → ∃ src len, XferEvent.begun src len ∈ es)

theorem FlagFollows.of_same {s t : State} (hd : t.done = s.done) (ht : t.transfers = s.transfers) : FlagFollows s t :=
  ⟨[], by simp [ht], by simp_all, by simp_all⟩

theorem FlagFollows.trans {s m t : State} (h : FlagFollows s m) (h' : FlagFollows m t) : FlagFollows s t := by
  obtain ⟨es, hes, hup, hdown⟩ := h
  obtain ⟨es', hes', hup', hdown'⟩ := h'
  refine ⟨es ++ es', by rw [hes', hes, List.append_assoc], fun hs ht => ?_, fun hs ht => ?_⟩
  · rcases hm : m.done with _ | _
    · exact List.mem_append_right _ (hup' hm ht)
    · exact List.mem_append_left _ (hup hs hm)
  · rcases hm : m.done with _ | _
    · obtain ⟨src, len, hmem⟩ := hdown hs hm
      exact ⟨src, len, List.mem_append_left _ hmem⟩
    · obtain ⟨src, len, hmem⟩ := hdown' hm ht
      exact ⟨src, len, List.mem_append_right _ hmem⟩

theorem flagFollows_beginTransfer (src : Source) (len : Nat) (s : State) :
    Leads (FlagFollows s) (beginTransfer src len s) := by
  have begun : FlagFollows s (transferBegun src len s) :=
    ⟨[.begun src len], rfl, fun _ up => Bool.noConfusion up, fun _ _ => ⟨src, len, List.mem_singleton_self _⟩⟩
  exact whenDone_meets (fun _ => begun) fun _ => trivial

theorem flagFollows_perform (p : Primitive) (s : State) : Leads (FlagFollows s) (perform p s) := by
  have same {t : State} (hd : t.done = s.done) (ht : t.transfers = s.transfers) : FlagFollows s t := .of_same hd ht
  cases p with
  | drive | transmit | resetPanel | driveFree =>
    unfold perform
    refine onFreeBus_meets (fun _ => ?_) fun _ => trivial
    exact same rfl rfl
  | tableSent | fillSlots | setCount => exact same rfl rfl
  | setCounters op => cases op <;> exact same rfl rfl
  | unpack i =>
    unfold perform unpackOne
    refine readSource_meets (fun _ _ _ => ?_) trivial trivial
    exact same rfl rfl
  | beginDirect | beginChunk => exact flagFollows_beginTransfer _ _ s

theorem flagFollows_xferStep (s : State) : Leads (FlagFollows s) (xferStep s) :=
  xferStep_meets (fun _ => .of_same rfl rfl) (fun _ _ _ _ _ _ _ => .of_same rfl rfl)
    (fun _ _ _ => ⟨[.completed], rfl, fun _ _ => List.mem_singleton_self _, fun _ h => by cases h⟩)
    (fun _ _ _ _ _ => trivial) trivial (fun _ _ _ _ _ _ => trivial)

theorem actionsKeep_flagFollows (s : State) : ActionsKeep (FlagFollows s) where
  perform p _ hm := (flagFollows_perform p _).weaken fun _ => hm.trans
  xferStep _ hm := (flagFollows_xferStep _).weaken fun _ => hm.trans
  book _ _ _ _ _ _ _ hm := hm.trans (.of_same rfl rfl)
  advanceChunk op _ hm := hm.trans (.of_same (advanceChunk_done op _) (advanceChunk_transfers op _))

/-- Settles O48: no single action moves the flag without its event, so no step does. -/
theorem flagFollowsTheTransferEvents : Obligations.FlagFollowsTheTransferEvents := by
  intro s t hstep
  have start : FlagFollows s s := .of_same rfl rfl
  exact ((actionsKeep_flagFollows s).step (fun _ _ hm => hm.trans (.of_same rfl rfl)) start).of_next hstep

end Sys2Proof.Machine

namespace Sys2Proof.Machine

/-! ### The invariant in two parts: the parts of the state, and the place ENGINE stands at -/

/-- The clauses of `Inv` that do not read the phase. -/
structure PartsSound (s : State) : Prop where
  config   : s.cfg.wf = true
  flag     : FlagAgrees s
  transfer : TransferSound s
  sized    : StagingSized s
  memory   : MemoryCanonical s
  serial   : Serial s
  counters : CountersFit s
  panel    : PanelCanonical s

/-- No transfer in flight takes its bytes from the staging buffer. -/
def StagingFree (s : State) : Prop := ∀ f, s.xfer = some f → f.src ≠ .staging

/-- The clauses of `Inv` that read the phase, for an engine in phase `q`. -/
def PhaseSound (q : Seq) (s : State) : Prop :=
  match q with
  | .idle => StagingFree s
  | .busy (.line todo e) => StagingFree s ∧ LineSound todo e s
  | .busy .awaitDirect => StagingFree s
  | .busy (.awaitChunk op) => LoopSound op s ∧ (op = .colour → StagingFree s)

theorem stagingFree_of_no_transfer {s : State} (hx : s.xfer = none) : StagingFree s := by
  intro f hf; rw [hx] at hf; cases hf

theorem Inv.parts {s : State} (h : Inv s) : PartsSound s := { h with }

theorem Inv.phase {s : State} (h : Inv s) : PhaseSound s.seq s := by
  have free (hq : ∀ op, s.seq = .busy (.awaitChunk op) → op = .colour) : StagingFree s := fun f hf hsrc => by
    rcases h.owned f hf hsrc with hs | hs <;> cases hq _ hs
  rcases hq : s.seq with _ | (⟨todo, e⟩ | _ | op)
  · exact free fun op hs => by simp [hq] at hs
  · exact ⟨free fun op hs => by simp [hq] at hs, h.place todo e hq⟩
  · exact free fun op hs => by simp [hq] at hs
  · refine ⟨?_, fun hop => free fun op' hs => ?_⟩
    · cases op with
      | fill => exact h.filled hq
      | colour => exact h.inside hq
      | mono => exact h.cursor hq
    · rw [hq] at hs; cases hs; exact hop

theorem inv_of_parts_of_phase {s : State} (h : PartsSound s) (hq : PhaseSound s.seq s) : Inv s := by
  have at_phase {q : Seq} (e : s.seq = q) : PhaseSound q s := e ▸ hq
  refine { h with
    owned := ?_
    filled := fun hs => (at_phase hs).1
    cursor := fun hs => (at_phase hs).1
    inside := fun hs => (at_phase hs).1
    place := fun todo e hs => (at_phase hs).2 }
  intro f hf hsrc
  rcases hs : s.seq with _ | (⟨todo, e⟩ | _ | _ | _ | _)
  · exact absurd hsrc (at_phase hs f hf)
  · exact absurd hsrc ((at_phase hs).1 f hf)
  · exact absurd hsrc (at_phase hs f hf)
  · exact .inl rfl
  · exact absurd hsrc ((at_phase hs).2 rfl f hf)
  · exact .inr rfl

/-! ### What the two parts do not read -/

section
variable {s : State} {q : Seq} {d b : Bool} {m : Mode} {w : List Event} {l : List Nat} {r k : Nat} {p : Panel}
  {ds : List Descriptor} {ts : List Turn} {a : List SyncDraw} {o : Latches} {c : List Host.Cell} {es : List XferEvent}
  {x : Option InFlight}

theorem PartsSound.frame (h : PartsSound s) (hp : rising p.gram = true) :
    PartsSound { s with
      seq := q, ops := o, dc := m, syncTimeout := b, wire := w, reads := l, retired := r, panel := p,
      requests := ds, turns := ts, sync := a, draws := k } :=
  { h with panel := hp }

theorem LoopSound.frame {op : Stream} (h : LoopSound op s) :
    LoopSound op { s with
      seq := q, done := d, dc := m, xfer := x, syncTimeout := b, mem := c, wire := w, transfers := es, reads := l,
      retired := r, panel := p, requests := ds, turns := ts, sync := a, draws := k } := by
  cases op <;> exact h

theorem LineSound.frame {todo : List Primitive} {e : Ending} (h : LineSound todo e s) :
    LineSound todo e { s with
      seq := q, done := d, dc := m, syncTimeout := b, mem := c, wire := w, transfers := es, reads := l, retired := r,
      panel := p, requests := ds, turns := ts, sync := a, draws := k } := by
  cases e with
  | retire => exact h
  | awaitDirect => exact h
  | loop op =>
    obtain ⟨hx, ho⟩ := h
    exact ⟨hx, ho.opening, by cases op <;> exact ho.operands, fun e n => (ho.filled e n).frame,
      fun e n => (ho.counters e n).frame⟩
  | awaitChunk op =>
    obtain ⟨hx, hloop, hc⟩ := h
    exact ⟨hx, hloop.frame, by cases op <;> exact hc⟩

theorem PhaseSound.frame {q' : Seq} (h : PhaseSound q' s) :
    PhaseSound q' { s with
      seq := q, done := d, dc := m, syncTimeout := b, mem := c, wire := w, transfers := es, reads := l, retired := r,
      panel := p, requests := ds, turns := ts, sync := a, draws := k } := by
  rcases q' with _ | (_ | _ | op)
  · exact h
  · exact ⟨h.1, h.2.frame⟩
  · exact h
  · exact ⟨h.1.frame, h.2⟩

end

theorem Inv.withTurns {s : State} (h : Inv s) (ts : List Turn) : Inv (withTurns ts s) :=
  inv_of_parts_of_phase (h.parts.frame h.panel) h.phase.frame

/-! ### The place after an action -/

/-- The state is sound for an engine that goes on before `todo`. -/
def SoundBefore (todo : List Primitive) (e : Ending) (s : State) : Prop :=
  PartsSound s ∧ PhaseSound (place todo e s).seq s

theorem SoundBefore.inv {todo : List Primitive} {e : Ending} {s : State} (h : SoundBefore todo e s) :
    Inv (place todo e s) := by
  obtain ⟨hparts, hphase⟩ := h
  refine inv_of_parts_of_phase ?_ ?_
  · rw [place_frame]; exact hparts.frame hparts.panel
  · generalize (place todo e s).seq = q at hphase ⊢
    rw [place_frame]; exact hphase.frame

/-- Inside an operation something is left of a line that ends in the `awaitCompletion` of a chunk: its begin. -/
theorem ChunkSound.ne_nil {op : Stream} {todo : List Primitive} {s : State} (h : ChunkSound op todo s) : todo ≠ [] := by
  obtain ⟨-, -, rfl | ⟨-, -, i, -, rfl, -⟩⟩ := h
  · cases op <;> simp [chunkLine]
  · simp

theorem OpeningSound.loopSound {op : Stream} {s : State} (h : OpeningSound op [] s) : LoopSound op s := by
  cases op with
  | fill => exact h.filled rfl (by simp)
  | colour => exact h.counters (by decide) (by simp)
  | mono => exact h.counters (by decide) (by simp)

/-- The test of the chunk loop, with no transfer in flight. -/
theorem soundBefore_loop {op : Stream} {s : State} (h : PartsSound s) (hx : s.xfer = none) (hloop : LoopSound op s) :
    SoundBefore [] (.loop op) s := by
  refine ⟨h, ?_⟩
  simp only [place]
  split
  · exact stagingFree_of_no_transfer hx
  · exact ⟨stagingFree_of_no_transfer hx, hx, hloop, ‹_›, .inl rfl⟩

theorem soundBefore_of_line {todo : List Primitive} {e : Ending} {s : State} (h : PartsSound s) (hfree : StagingFree s)
    (hline : LineSound todo e s) : SoundBefore todo e s := by
  cases todo with
  | cons p ps => exact ⟨h, hfree, hline⟩
  | nil =>
    cases e with
    | retire => exact ⟨h, hfree⟩
    | awaitDirect => exact ⟨h, hfree⟩
    | awaitChunk op => exact absurd rfl hline.2.ne_nil
    | loop op => exact soundBefore_loop h hline.1 hline.2.loopSound

end Sys2Proof.Machine

namespace Sys2Proof.Machine

/-! ### Bounds -/

theorem n_lt_of_wf {c : Config} (h : c.wf = true) : c.n < 2 ^ 16 := by
  simp only [Config.wf, Bool.and_eq_true, List.any_eq_true, beq_iff_eq, List.mem_range] at h
  obtain ⟨⟨⟨⟨⟨⟨⟨⟨k, hk, hn⟩, -⟩, -⟩, -⟩, -⟩, -⟩, -⟩, -⟩ := h
  exact hn ▸ Nat.pow_lt_pow_right (by decide) hk

theorem totalPixels_lt (w h : Half) : totalPixels w h < 2 ^ 32 :=
  Nat.lt_of_lt_of_eq (Nat.mul_lt_mul'' w.isLt h.isLt) (by norm_num)

theorem totalBytes_lt (w h : Half) : totalBytes w h < 2 ^ 33 := by
  have := totalPixels_lt w h
  unfold totalBytes; unfold totalPixels at this; omega

/-! ### The mono cursor -/

/-- One bit of `MASK` is set and `COL` is inside the row (10_state R30). -/
def CursorInRow (w : Half) (c : MonoCursor) : Prop := (∃ k < 8, c.mask = (0x80 : Byte) >>> k) ∧ c.col < w.toNat

theorem advanceCursor_inRow {w : Half} {c : MonoCursor} (h : CursorInRow w c) : CursorInRow w (advanceCursor w c) := by
  obtain ⟨p, mask, col⟩ := c
  obtain ⟨⟨k, hk, rfl⟩, hcol⟩ := h
  rw [advanceCursor_eq w p k col hk]
  refine ⟨?_, ?_⟩
  · by_cases hend : k = 7 ∨ col + 1 = w.toNat
    · exact ⟨0, by decide, if_pos hend⟩
    · exact ⟨k + 1, by omega, if_neg hend⟩
  · dsimp only at hcol ⊢; split <;> omega

theorem advanceCursor_p_le {w : Half} {c : MonoCursor} (h : CursorInRow w c) : (advanceCursor w c).p ≤ c.p + 1 := by
  obtain ⟨p, mask, col⟩ := c
  obtain ⟨⟨k, hk, rfl⟩, -⟩ := h
  rw [advanceCursor_eq w p k col hk]
  dsimp only; split <;> omega

theorem loopSound_mono_iff {s : State} : LoopSound .mono s ↔ CursorInRow s.ops.w s.cursor := Iff.rfl

/-! ### What each action does to the parts -/

theorem transferLog_begun {l : List XferEvent} (h : transferLog l = some true) (src : Source) (len : Nat) :
    transferLog (l ++ [.begun src len]) = some false := by
  unfold transferLog at h ⊢; rw [List.foldl_append, h]; rfl

theorem transferLog_completed {l : List XferEvent} (h : transferLog l = some false) :
    transferLog (l ++ [.completed]) = some true := by
  unfold transferLog at h ⊢; rw [List.foldl_append, h]; rfl

theorem stagingByte_isSome {stg : List Slot} {k : Nat} {sl : Slot} (h : stg[k / 2]? = some sl)
    (hw : sl.written = true) : (stagingByte stg k).isSome = true := by
  unfold stagingByte; simp [h, hw]

section
variable {s : State} (h : PartsSound s)
include h

theorem PartsSound.done_of_no_transfer (hx : s.xfer = none) : s.done = true := by
  rw [h.flag, hx]; rfl

theorem PartsSound.no_transfer_of_done (hd : s.done = true) : s.xfer = none :=
  Option.isNone_iff_eq_none.1 (h.flag.symm.trans hd)

theorem PartsSound.done_of_transfer {f : InFlight} (hx : s.xfer = some f) : s.done = false := by
  rw [h.flag, hx]; rfl

theorem PartsSound.accept (hfree : StagingFree s) (load : Latches → Latches) : PartsSound (accept load s) :=
  { h with
    sized := (List.length_map _).trans h.sized
    transfer := fun f hf =>
      have ⟨hsent, hlen, _, hmem⟩ := h.transfer f hf
      ⟨hsent, hlen, fun hsrc => absurd hsrc (hfree f hf), hmem⟩ }

theorem PartsSound.prefill (hx : s.xfer = none) (c : Half) : PartsSound (prefill c s) :=
  { h with
    sized := List.length_replicate
    transfer := fun f hf => by rw [prefill_xfer, hx] at hf; cases hf }

theorem PartsSound.setCount : PartsSound { s with cnt := min s.rem s.cfg.n } :=
  have ⟨hrem, hoff, _, hp, hcol⟩ := h.counters
  { h with counters := ⟨hrem, hoff, Nat.lt_of_le_of_lt (Nat.min_le_right _ _) (n_lt_of_wf h.config), hp, hcol⟩ }

theorem PartsSound.startCounters {op : Stream} (ho : OperandsSound op s) : PartsSound (startCounters op s) := by
  obtain ⟨hrem, hoff, hcnt, hp, hcol⟩ := h.counters
  have bytes := totalBytes_lt s.ops.w s.ops.h
  have pixels := totalPixels_lt s.ops.w s.ops.h
  cases op with
  | fill => exact { h with counters := ⟨by simp only [Machine.startCounters]; omega, hoff, hcnt, hp, hcol⟩ }
  | colour =>
    exact { h with counters := ⟨by simp only [Machine.startCounters]; omega, Nat.two_pow_pos _, hcnt, hp, hcol⟩ }
  | mono =>
    exact { h with counters := ⟨by simp only [Machine.startCounters]; omega, hoff, hcnt,
      Nat.le_trans (Nat.le_add_right _ _) ho.1, Nat.two_pow_pos _⟩ }

theorem PartsSound.advanceChunk {op : Stream} (hloop : LoopSound op s) : PartsSound (advanceChunk op s) := by
  obtain ⟨hrem, hoff, hcnt, hp, hcol⟩ := h.counters
  cases op with
  | fill => exact { h with counters := ⟨by simp only [Machine.advanceChunk]; omega, hoff, hcnt, hp, hcol⟩ }
  | colour =>
    obtain ⟨-, hbound⟩ := hloop
    exact { h with counters := ⟨by simp only [Machine.advanceChunk]; omega, by simp only [Machine.advanceChunk]; omega,
      hcnt, hp, hcol⟩ }
  | mono => exact { h with counters := ⟨by simp only [Machine.advanceChunk]; omega, hoff, hcnt, hp, hcol⟩ }

theorem PartsSound.transferBegun (hx : s.xfer = none) {src : Source} {len : Nat} (hlen : 1 ≤ len)
    (hstg : src = .staging → ∀ k < len, (stagingByte s.stg k).isSome = true)
    (hmem : ∀ a, src = .mem a → a + len ≤ 2 ^ s.cfg.addrW) : PartsSound (transferBegun src len s) :=
  { h with
    flag := rfl
    transfer := fun f hf => by cases hf; exact ⟨Nat.zero_le _, hlen, hstg, hmem⟩
    serial := transferLog_begun (h.done_of_no_transfer hx ▸ h.serial) src len }

theorem PartsSound.xferComplete {f : InFlight} (hx : s.xfer = some f) : PartsSound (xferComplete s) :=
  { h with
    flag := rfl
    transfer := fun _ hf => nomatch hf
    serial := transferLog_completed (h.done_of_transfer hx ▸ h.serial) }

theorem PartsSound.xferEmit {src : Source} {len sent : Nat} (hx : s.xfer = some ⟨src, len, sent⟩)
    (hsent : sent < len) (b : Byte) (l : List Nat) : PartsSound (xferEmit ⟨src, len, sent⟩ b { s with reads := l }) :=
  { h with
    flag := h.done_of_transfer hx
    transfer := fun f hf => by
      obtain ⟨-, hlen, hstg, hmem⟩ := h.transfer _ hx
      cases hf; exact ⟨hsent, hlen, hstg, hmem⟩
    panel := receive_rising _ _ _ h.panel }

/-- One pixel unpacked, its source byte read (45 R168). -/
theorem PartsSound.unpacked (hx : s.xfer = none) (hcur : CursorInRow s.ops.w s.cursor)
    (hp : s.cursor.p < 2 ^ s.cfg.addrW) (i : Nat) (c : Half) (l : List Nat) :
    PartsSound { writeSlot i c { s with reads := l } with cursor := advanceCursor s.ops.w s.cursor } :=
  have ⟨hrem, hoff, hcnt, _, _⟩ := h.counters
  { h with
    sized := List.length_set.trans h.sized
    transfer := fun f hf => by rw [show s.xfer = some f from hf] at hx; cases hx
    counters := ⟨hrem, hoff, hcnt, Nat.le_trans (advanceCursor_p_le hcur) hp,
      Nat.lt_trans (advanceCursor_inRow hcur).2 s.ops.w.isLt⟩ }

end

/-! ### What each action does to the loop's state -/

theorem loopSound_prefill (s : State) : LoopSound .fill (prefill s.ops.c0 s) := rfl

theorem OperandsSound.loopSound {op : Stream} {s : State} (h : OperandsSound op s) (hop : op ≠ .fill) :
    LoopSound op (startCounters op s) := by
  cases op with
  | fill => exact absurd rfl hop
  | colour =>
    have bytes := totalBytes_lt s.ops.w s.ops.h
    unfold OperandsSound at h
    simp only [LoopSound, startCounters]
    exact ⟨by omega, by omega⟩
  | mono => exact ⟨⟨0, by decide, rfl⟩, h.2⟩

theorem LoopSound.advanceChunk {op : Stream} {s : State} (h : LoopSound op s) : LoopSound op (advanceChunk op s) := by
  cases op with
  | fill => exact h
  | colour =>
    obtain ⟨hspace, hbound⟩ := h
    simp only [LoopSound, Machine.advanceChunk]
    exact ⟨by omega, by omega⟩
  | mono => exact h

end Sys2Proof.Machine

namespace Sys2Proof.Machine

/-! ### One primitive of an operation in progress -/

/-- The answer is a next state with `P`, and the only fault is a read of a source byte HOST has not placed. -/
abbrev Proceeds (P : State → Prop) (o : Out) : Prop := Meets P (· = .unplacedSourceRead) (fun _ => True) o

/-- The primitives that reach `DC`, the wire and the panel alone. -/
def outward : Primitive → Bool
  | .drive _ => true
  | .transmit _ => true
  | .resetPanel => true
  | .driveFree => true
  | .tableSent => true
  | _ => false

theorem outward_of_plain {p : Primitive} (h : plain p = true) (hp : p ≠ .beginDirect) : outward p = true := by
  cases p with
  | beginDirect => exact absurd rfl hp
  | _ => exact h

theorem perform_outward {p : Primitive} {s : State} (hp : outward p = true) (hx : s.xfer = none)
    (hpanel : PanelCanonical s) : ∃ m, perform p s = .next m ∧ PanelCanonical m ∧
      m = { s with dc := m.dc, wire := m.wire, panel := m.panel, syncTimeout := m.syncTimeout, draws := m.draws } := by
  cases p with
  | drive m => unfold perform; exact ⟨_, onFreeBus_free hx _, hpanel, rfl⟩
  | transmit bs => unfold perform; exact ⟨_, onFreeBus_free hx _, foldl_receive_rising _ _ _ hpanel, rfl⟩
  | resetPanel => unfold perform; exact ⟨_, onFreeBus_free hx _, rfl, rfl⟩
  | driveFree => unfold perform; exact ⟨_, onFreeBus_free hx _, hpanel, rfl⟩
  | tableSent => exact ⟨_, rfl, rfl, rfl⟩
  | _ => cases hp

/-- After an outward primitive the rest of the line is still sound if it was before. -/
theorem perform_outward_meets {p : Primitive} {ps : List Primitive} {e : Ending} {s : State} (hp : outward p = true)
    (h : PartsSound s) (hx : s.xfer = none) (hline : LineSound ps e s) :
    Proceeds (SoundBefore ps e) (perform p s) := by
  obtain ⟨m, hm, hpanel, frame⟩ := perform_outward hp hx h.panel
  rw [hm]
  refine soundBefore_of_line ?_ (stagingFree_of_no_transfer ?_) ?_
  · rw [frame]; exact h.frame hpanel
  · rw [frame]; exact hx
  · rw [frame]; exact hline.frame

/-! #### The operations without a chunk loop -/

theorem perform_retireLine {p : Primitive} {ps : List Primitive} {s : State} (h : PartsSound s)
    (hline : LineSound (p :: ps) .retire s) : Proceeds (SoundBefore ps .retire) (perform p s) := by
  obtain ⟨free, hplain, hdirect⟩ := hline
  have hx : s.xfer = none := free (List.cons_ne_nil p ps)
  by_cases hp : p = .beginDirect
  · subst hp
    obtain ⟨htodo, hlen, hrange⟩ := hdirect List.mem_cons_self
    obtain ⟨-, rfl⟩ := List.cons.inj htodo
    rw [perform, beginTransfer_of_done (h.done_of_no_transfer hx)]
    show SoundBefore _ _ _
    refine ⟨h.transferBegun hx hlen (fun hsrc => nomatch hsrc) fun a ha => by cases ha; exact hrange, fun f hf => ?_⟩
    cases hf; exact fun hsrc => nomatch hsrc
  · refine perform_outward_meets (outward_of_plain (hplain p List.mem_cons_self) hp) h hx
      ⟨fun _ => hx, fun q hq => hplain q (List.mem_cons_of_mem p hq), fun hq => ?_⟩
    exact absurd (List.cons.inj (hdirect (List.mem_cons_of_mem p hq)).1).1 hp

/-! #### A streaming operation before its chunk loop -/

theorem OpeningSound.tail {op : Stream} {p : Primitive} {ps : List Primitive} {s : State}
    (h : OpeningSound op (p :: ps) s) (hfill : p ≠ .fillSlots) (hcount : p ≠ .setCounters op) :
    OpeningSound op ps s where
  opening q hq := h.opening q (List.mem_cons_of_mem p hq)
  operands := h.operands
  filled e hn := h.filled e fun hmem => (List.mem_cons.1 hmem).elim (fun eq => hfill eq.symm) hn
  counters e hn := h.counters e fun hmem => (List.mem_cons.1 hmem).elim (fun eq => hcount eq.symm) hn

theorem perform_loopLine {op : Stream} {p : Primitive} {ps : List Primitive} {s : State} (h : PartsSound s)
    (hline : LineSound (p :: ps) (.loop op) s) : Proceeds (SoundBefore ps (.loop op)) (perform p s) := by
  obtain ⟨hx, hopen⟩ := hline
  have hp : opens op p = true := hopen.opening p List.mem_cons_self
  have rest : ∀ q ∈ ps, opens op q = true := fun q hq => hopen.opening q (List.mem_cons_of_mem p hq)
  cases p with
  | drive m => exact perform_outward_meets rfl h hx ⟨hx, hopen.tail (by simp) (by simp)⟩
  | transmit bs => exact perform_outward_meets rfl h hx ⟨hx, hopen.tail (by simp) (by simp)⟩
  | fillSlots =>
    obtain rfl : op = .fill := by simpa [opens] using hp
    refine soundBefore_of_line (h.prefill hx _) (stagingFree_of_no_transfer hx) ⟨hx, ?_⟩
    exact { opening := rest, operands := trivial, filled := fun _ _ => loopSound_prefill s,
            counters := fun hop => absurd rfl hop }
  | setCounters o =>
    obtain rfl : o = op := by simpa [opens] using hp
    have hx' : (startCounters o s).xfer = none := by cases o <;> exact hx
    refine soundBefore_of_line (h.startCounters hopen.operands) (stagingFree_of_no_transfer hx') ⟨hx', ?_⟩
    exact {
      opening := rest
      operands := by cases o <;> exact hopen.operands
      filled := fun hop hn => by
        subst hop
        exact hopen.filled rfl (by simpa using hn)
      counters := fun hop _ => hopen.operands.loopSound hop }
  | _ => cases hp

/-! #### Inside a turn of the chunk loop -/

/-- A mono blit has counted and unpacked the pixels of the chunk (45 R167); the others have nothing to prepare. -/
def ChunkReady (op : Stream) (s : State) : Prop :=
  op = .mono → s.cnt = min s.rem s.cfg.n ∧ ∀ k < s.cnt, ∃ sl, s.stg[k]? = some sl ∧ sl.written = true

theorem one_le_chunkBytes {op : Stream} {s : State} (hn : 1 ≤ s.cfg.n) (hrem : s.rem ≠ 0) (hready : ChunkReady op s) :
    1 ≤ chunkBytes op s := by
  cases op with
  | fill => simp only [chunkBytes, Config.nb]; omega
  | colour => simp only [chunkBytes, Config.nb]; omega
  | mono =>
    obtain ⟨hcnt, -⟩ := hready rfl
    simp only [chunkBytes]; omega

theorem chunk_readable {op : Stream} {s : State} (hloop : LoopSound op s) (hready : ChunkReady op s)
    (hsrc : chunkSource op s = .staging) {k : Nat} (hk : k < chunkBytes op s) :
    (stagingByte s.stg k).isSome = true := by
  cases op with
  | colour => cases hsrc
  | fill =>
    simp only [chunkBytes, Config.nb] at hk
    have hslot : s.stg[k / 2]? = some (slotOf s.ops.c0) := by
      rw [show s.stg = List.replicate s.cfg.n (slotOf s.ops.c0) from hloop]
      exact List.getElem?_replicate_of_lt (by omega)
    exact stagingByte_isSome hslot rfl
  | mono =>
    obtain ⟨-, hwritten⟩ := hready rfl
    simp only [chunkBytes] at hk
    obtain ⟨sl, hslot, hw⟩ := hwritten (k / 2) (by omega)
    exact stagingByte_isSome hslot hw

theorem chunk_inside {op : Stream} {s : State} (hloop : LoopSound op s) {a : Nat} (hsrc : chunkSource op s = .mem a) :
    a + chunkBytes op s ≤ 2 ^ s.cfg.addrW := by
  cases op with
  | fill => cases hsrc
  | mono => cases hsrc
  | colour =>
    cases hsrc
    obtain ⟨hspace, -⟩ := hloop
    simp only [chunkBytes]; omega

theorem perform_beginChunk {op : Stream} {s : State} (h : PartsSound s) (hx : s.xfer = none) (hloop : LoopSound op s)
    (hrem : s.rem ≠ 0) (hready : ChunkReady op s) :
    Proceeds (SoundBefore [] (.awaitChunk op)) (perform (.beginChunk op) s) := by
  rw [perform, beginTransfer_of_done (h.done_of_no_transfer hx)]
  show SoundBefore _ _ _
  refine ⟨h.transferBegun hx (one_le_chunkBytes (one_le_n_of_wf h.config) hrem hready)
    (fun hsrc _ hk => chunk_readable hloop hready hsrc hk) (fun a hsrc => chunk_inside hloop hsrc), hloop.frame, ?_⟩
  rintro rfl f hf hsrc
  cases hf; cases hsrc

theorem perform_unpack {ps : List Primitive} {s : State} {i n : Nat} (h : PartsSound s) (hx : s.xfer = none)
    (hloop : LoopSound .mono s) (hrem : s.rem ≠ 0) (hcnt : s.cnt = min s.rem s.cfg.n) (hn : s.cnt = i + (n + 1))
    (hps : ps = (List.range' (i + 1) n).map .unpack ++ [.beginChunk .mono])
    (hwritten : ∀ k < i, ∃ sl, s.stg[k]? = some sl ∧ sl.written = true) :
    Proceeds (SoundBefore ps (.awaitChunk .mono)) (perform (.unpack i) s) := by
  have cursor : CursorInRow s.ops.w s.cursor := loopSound_mono_iff.1 hloop
  unfold perform unpackOne
  refine readSource_meets (fun b hp _ => ?_) rfl trivial
  refine soundBefore_of_line (h.unpacked hx cursor hp i _ _) (stagingFree_of_no_transfer hx)
    ⟨hx, loopSound_mono_iff.2 (advanceCursor_inRow cursor), hrem,
      .inr ⟨rfl, hcnt, i + 1, by simp only [writeSlot_cnt]; omega, ?_, fun k hk => ?_⟩⟩
  · simp only [writeSlot_cnt, show s.cnt - (i + 1) = n by omega, hps]
  · by_cases he : k = i
    · subst he
      have hlt : k < s.stg.length := by rw [h.sized]; omega
      exact ⟨_, List.getElem?_set_self hlt, rfl⟩
    · obtain ⟨sl, hslot, hw⟩ := hwritten k (by omega)
      exact ⟨sl, (List.getElem?_set_ne (Ne.symm he)).trans hslot, hw⟩

theorem perform_chunkLine {op : Stream} {p : Primitive} {ps : List Primitive} {s : State} (h : PartsSound s)
    (hline : LineSound (p :: ps) (.awaitChunk op) s) : Proceeds (SoundBefore ps (.awaitChunk op)) (perform p s) := by
  obtain ⟨hx, hloop, hrem, hstart | ⟨rfl, hcnt, i, hi, htodo, hwritten⟩⟩ := hline
  · cases op with
    | fill => cases hstart; exact perform_beginChunk h hx hloop hrem (fun e => nomatch e)
    | colour => cases hstart; exact perform_beginChunk h hx hloop hrem (fun e => nomatch e)
    | mono =>
      obtain ⟨rfl, rfl⟩ := List.cons.inj hstart
      refine soundBefore_of_line h.setCount (stagingFree_of_no_transfer hx)
        ⟨hx, hloop, hrem, .inr ⟨rfl, rfl, 0, Nat.zero_le _, ?_, fun k hk => absurd hk (Nat.not_lt_zero k)⟩⟩
      rw [List.range_eq_range']; rfl
  · rcases hn : s.cnt - i with _ | n
    · rw [hn] at htodo
      obtain ⟨rfl, rfl⟩ := List.cons.inj htodo
      have hi' : s.cnt = i := by omega
      exact perform_beginChunk h hx hloop hrem fun _ => ⟨hcnt, hi' ▸ hwritten⟩
    · rw [hn] at htodo
      obtain ⟨rfl, hps⟩ := List.cons.inj htodo
      exact perform_unpack h hx hloop hrem hcnt (by omega) hps hwritten

/-- The next primitive of a sound line leaves a sound rest of it. -/
theorem perform_sound {p : Primitive} {ps : List Primitive} {e : Ending} {s : State} (h : PartsSound s)
    (hline : LineSound (p :: ps) e s) : Proceeds (SoundBefore ps e) (perform p s) := by
  cases e with
  | retire => exact perform_retireLine h hline
  | loop op => exact perform_loopLine h hline
  | awaitDirect => cases hline
  | awaitChunk op => exact perform_chunkLine h hline

/-- ENGINE's primitive turn inside an operation. -/
theorem advance_keeps_inv {s : State} {pos : Position} (h : Inv s) (hq : s.seq = .busy pos) :
    Proceeds Inv (advance pos s) := by
  have hphase : PhaseSound (.busy pos) s := hq ▸ h.phase
  cases pos with
  | line todo e =>
    obtain ⟨hfree, hline⟩ := hphase
    cases todo with
    | nil => exact (soundBefore_of_line h.parts hfree hline).inv
    | cons p ps =>
      refine Meets.andThen ((perform_sound h.parts hline).weaken fun m hm => ?_)
      exact hm.inv
  | awaitDirect =>
    have retires : SoundBefore [] .retire s := ⟨h.parts, hphase⟩
    simp only [advance]
    split
    · exact retires.inv
    · exact h
  | awaitChunk op =>
    obtain ⟨hloop, -⟩ := hphase
    simp only [advance]
    split
    · have hx : (advanceChunk op s).xfer = none := (advanceChunk_xfer op s).trans (h.parts.no_transfer_of_done ‹_›)
      exact (soundBefore_loop (h.parts.advanceChunk hloop) hx hloop.advanceChunk).inv
    · exact h

end Sys2Proof.Machine

namespace Sys2Proof.Machine

/-! ### XFER's step -/

/-- Where a transfer is in flight, the place of the pseudocode asks for nothing. -/
theorem lineSound_of_transfer {todo : List Primitive} {e : Ending} {s t : State} (h : LineSound todo e s)
    (hx : s.xfer ≠ none) : LineSound todo e t := by
  cases e with
  | retire =>
    obtain rfl : todo = [] := by_contra fun hne => hx (h.1 hne)
    exact ⟨fun hne => absurd rfl hne, by simp, by simp⟩
  | awaitDirect => exact h
  | loop op => exact absurd h.1 hx
  | awaitChunk op => exact absurd h.1 hx

/-- A step of the transfer in flight keeps the clauses of the phase, if it leaves the loop's state alone. -/
theorem PhaseSound.of_transfer {q : Seq} {s t : State} (h : PhaseSound q s) (hx : s.xfer ≠ none)
    (hfree : StagingFree s → StagingFree t) (hloop : ∀ op, LoopSound op s → LoopSound op t) : PhaseSound q t := by
  rcases q with _ | (⟨todo, e⟩ | _ | op)
  · exact hfree h
  · exact ⟨hfree h.1, lineSound_of_transfer h.2 hx⟩
  · exact hfree h
  · exact ⟨hloop op h.1, fun hop => hfree (h.2 hop)⟩

/-- XFER's turn keeps the invariant, and its only fault is a source byte HOST has not placed. -/
theorem xferStep_keeps_inv {s : State} (h : Inv s) : Proceeds Inv (xferStep s) := by
  refine xferStep_meets (fun _ => h) ?emit ?complete ?unwritten rfl (fun _ _ _ _ _ _ => trivial)
  case emit =>
    intro src len sent b hx hsent _
    refine inv_of_parts_of_phase (h.parts.xferEmit hx hsent b _)
      (h.phase.of_transfer (by simp [hx]) (fun hfree f hf => ?_) fun _ hloop => hloop.frame)
    have same_source : src ≠ .staging := hfree _ hx
    cases hf; exact same_source
  case complete =>
    intro src len hx
    exact inv_of_parts_of_phase (h.parts.xferComplete hx)
      (h.phase.of_transfer (by simp [hx]) (fun _ => stagingFree_of_no_transfer rfl) fun _ hloop => hloop.frame)
  case unwritten =>
    intro len sent hx hsent hnone
    obtain ⟨-, -, hstg, -⟩ := h.transfer _ hx
    have := hstg rfl sent hsent
    rw [hnone] at this
    cases this

/-! ### Acceptance -/

theorem lineSound_retire {todo : List Primitive} {s : State} (hx : s.xfer = none)
    (h : ∀ p ∈ todo, outward p = true) : LineSound todo .retire s := by
  refine ⟨fun _ => hx, fun p hp => ?_, fun hp => nomatch h _ hp⟩
  have hout := h p hp
  cases p with
  | beginDirect => rfl
  | _ => exact hout

/-- The two primitives that bytes are sent with. -/
def sends : Primitive → Bool
  | .drive _ => true
  | .transmit _ => true
  | _ => false

theorem outward_of_sends {p : Primitive} (h : sends p = true) : outward p = true := by
  cases p with
  | drive | transmit => rfl
  | _ => cases h

theorem opens_of_sends {p : Primitive} (op : Stream) (h : sends p = true) : opens op p = true := by
  cases p with
  | drive | transmit => rfl
  | _ => cases h

theorem sends_of_mem_events {es : List Event} {p : Primitive} (h : p ∈ es.flatMap eventLine) : sends p = true := by
  obtain ⟨e, -, hp⟩ := List.mem_flatMap.1 h
  simp only [eventLine, List.mem_cons, List.not_mem_nil, or_false] at hp
  rcases hp with rfl | rfl <;> rfl

theorem sends_of_mem_windowLine {cfg : Config} {a b c d : Half} {p : Primitive} (h : p ∈ windowLine cfg a b c d) :
    sends p = true := by
  rw [windowLine_eq] at h
  rcases List.mem_append.1 h with h | h
  · exact sends_of_mem_events h
  · rw [List.mem_singleton.1 h]; rfl

/-- The primitives of a streaming operation before its chunk loop. -/
theorem openingSound_streamLine {op : Stream} {x y w h : Half} {s : State} (ho : OperandsSound op s) :
    OpeningSound op (streamLine op s.cfg x y w h) s where
  opening p hp := by
    rcases List.mem_append.1 hp with hp | hp
    · exact opens_of_sends op (sends_of_mem_windowLine hp)
    · cases op with
      | fill =>
        simp only [List.mem_cons, List.not_mem_nil, or_false] at hp
        rcases hp with rfl | rfl <;> rfl
      | colour | mono => rw [List.mem_singleton.1 hp]; rfl
  operands := ho
  filled hop hn := by subst hop; exact absurd (by simp [streamLine]) hn
  counters hop hn := by cases op <;> simp [streamLine] at hop hn

theorem rectangleFits_width {x y w h : Half} (hr : rectangleFits x y w h = true) : 1 ≤ w.toNat := by
  simp only [rectangleFits, Bool.and_eq_true, decide_eq_true_eq] at hr
  exact hr.1.1.1

/-- The acceptance of an operation keeps what its line, if it is sound, keeps; the faults of an acceptance read no
staging slot. -/
theorem acceptInstr_meets {P : State → Prop} {k : Begin} {s : State} (hflag : FlagAgrees s)
    (hk : ∀ todo e load, LineSound todo e (accept load s) →
      Meets P (· ≠ .unwrittenStagingRead) (fun _ => True) (k todo e (accept load s))) (i : Instr) :
    Meets P (· ≠ .unwrittenStagingRead) (fun _ => True) (acceptInstr i s k) := by
  have idle {f : State → Out} (hf : Meets P (· ≠ .unwrittenStagingRead) (fun _ => True) (f s)) :
      Meets P (· ≠ .unwrittenStagingRead) (fun _ => True) (whenIdle s f) :=
    whenIdle_meets (fun _ => hf) (by decide)
  have free (load : Latches → Latches) {f : State → Out}
      (hf : s.xfer = none → Meets P (· ≠ .unwrittenStagingRead) (fun _ => True) (f (accept load s))) :
      Meets P (· ≠ .unwrittenStagingRead) (fun _ => True) (onFreeBus (accept load s) f) :=
    onFreeBus_meets hf (fun _ => by decide)
  cases i with
  | reset =>
    simp only [acceptInstr, acceptReset]
    refine idle ?_
    split
    · trivial
    · exact free _ fun hx => hk _ _ _ (lineSound_retire hx (by simp [outward]))
  | init =>
    simp only [acceptInstr, acceptInit]
    refine idle ?_
    split
    · trivial
    · refine free _ fun hx => hk _ _ _ (lineSound_retire hx fun p hp => ?_)
      rw [tableLine_eq] at hp
      rcases List.mem_append.1 hp with hp | hp
      · exact outward_of_sends (sends_of_mem_events hp)
      · rw [List.mem_singleton.1 hp]; rfl
  | plotPixel x y c =>
    simp only [acceptInstr, acceptPlotPixel]
    refine idle ?_
    split
    · refine free _ fun hx => hk _ _ _ (lineSound_retire hx fun p hp => outward_of_sends ?_)
      rcases List.mem_append.1 hp with hp | hp
      · exact sends_of_mem_windowLine hp
      · rw [List.mem_singleton.1 hp]; rfl
    · exact hk _ _ _ ⟨fun hne => absurd rfl hne, by simp, by simp⟩
  | drawColourBitmap x y w h p =>
    simp only [acceptInstr, acceptDrawColourBitmap]
    refine idle (requireRectangle_meets (fun hr => requireRange_meets (fun hp => ?_) trivial) trivial)
    exact free _ fun hx => hk _ _ _ ⟨hx, openingSound_streamLine hp⟩
  | drawMonoBitmap x y w h p fg bg =>
    simp only [acceptInstr, acceptDrawMonoBitmap]
    refine idle (requireRectangle_meets (fun hr => requireRange_meets (fun hp => ?_) trivial) trivial)
    exact free _ fun hx => hk _ _ _ ⟨hx, openingSound_streamLine ⟨hp, rectangleFits_width hr⟩⟩
  | fillRectangle x y w h c =>
    simp only [acceptInstr, acceptFillRectangle]
    refine idle (requireRectangle_meets (fun hr => ?_) trivial)
    exact free _ fun hx => hk _ _ _ ⟨hx, openingSound_streamLine trivial⟩
  | sendCommand b =>
    simp only [acceptInstr, acceptSendCommand]
    refine idle (free _ fun hx => hk _ _ _ (lineSound_retire hx fun p hp => ?_))
    exact outward_of_sends (sends_of_mem_events (commandLine_eq b ▸ hp))
  | sendDataByte b =>
    simp only [acceptInstr, acceptSendDataByte]
    refine idle (free _ fun hx => hk _ _ _ (lineSound_retire hx fun p hp => ?_))
    exact outward_of_sends (sends_of_mem_events (dataLine_eq b ▸ hp))
  | setWindow a b c d =>
    simp only [acceptInstr, acceptSetWindow]
    refine idle (free _ fun hx => hk _ _ _ (lineSound_retire hx fun p hp => ?_))
    exact outward_of_sends (sends_of_mem_windowLine hp)
  | beginAsyncTransfer p len =>
    simp only [acceptInstr, acceptBeginAsyncTransfer]
    refine idle ?_
    split
    · trivial
    · refine requireRange_meets (fun hp => whenDone_meets (fun hd => hk _ _ _ ?_) (fun _ => by decide)) trivial
      have hx : s.xfer = none := Option.isNone_iff_eq_none.1 (hflag.symm.trans hd)
      have hlen : 1 ≤ len.toNat := by bv_omega
      exact ⟨fun _ => hx, by simp [plain], fun _ => ⟨rfl, hlen, hp⟩⟩
  | awaitCompletion =>
    simp only [acceptInstr, acceptAwaitCompletion]
    exact idle (hk [] .awaitDirect id rfl)

/-! ### Every turn -/

/-- The answer keeps the invariant, and is not the read of an unwritten staging slot. -/
abbrev Safe (o : Out) : Prop := Meets Inv (· ≠ .unwrittenStagingRead) (fun _ => True) o

theorem Proceeds.safe {o : Out} (h : Proceeds Inv o) : Safe o :=
  h.mono (fun _ => id) (fun r hr => by rw [hr]; decide) (fun _ => id)

theorem primitiveTurn_safe {s : State} (h : Inv s) : Safe (primitiveTurn s) := by
  rcases hq : s.seq with _ | pos
  · have hfree : StagingFree s := (hq ▸ h.phase : PhaseSound .idle s)
    rw [primitiveTurn_idle hq]
    refine acceptNext_meets h (fun d ds i => ?_) trivial
    have taken : PartsSound { s with requests := ds, ops := latchesOf d } := h.parts.frame h.panel
    refine acceptInstr_meets (k := begun) taken.flag (fun todo e load hline => ?_) i
    exact (soundBefore_of_line (taken.accept hfree load) hfree hline).inv
  · rw [primitiveTurn_busy hq]
    exact (advance_keeps_inv h hq).safe

/-- What every single action of a path keeps, the path keeps. -/
theorem Path.meets {I : State → Prop} {F : Fault → Prop} {R : Refusal → Prop}
    (hprim : ∀ s, I s → Meets I F R (primitiveTurn s))
    (hxfer : ∀ s ts, I s → Meets I F R (xferStep (withTurns ts s)))
    {s : State} {o : Out} (h : Path s o) (hs : I s) : Meets I F R o := by
  induction h with
  | here s => exact hs
  | primitive hm _ ih => exact ih ((hprim _ hs).of_next hm)
  | primitiveStops ho _ => exact ho ▸ hprim _ hs
  | xfer _ hm _ ih => exact ih ((hxfer _ _ hs).of_next hm)
  | xferStops _ ho _ => exact ho ▸ hxfer _ _ hs

theorem engineTurn_safe {s : State} (h : Inv s) : Safe (engineTurn s) := by
  rcases path_engineTurn s (one_le_n_of_wf h.config) with hpath | hrefused
  · exact hpath.meets (fun _ => primitiveTurn_safe) (fun _ ts hs => (xferStep_keeps_inv (hs.withTurns ts)).safe) h
  · rw [hrefused]; trivial

theorem hostWrite_safe {s : State} (h : Inv s) (a : Word) (b : Byte) : Safe (hostWrite a b s) := by
  have written : PartsSound { s with mem := Memory.write s.mem a.toNat b } :=
    { h.parts with memory := Memory.wf_write _ _ _ h.memory }
  exact hostWrite_meets (inv_of_parts_of_phase written h.phase.frame) (by decide) (by decide)

theorem step_safe {s : State} (h : Inv s) : Safe (step s) :=
  step_meets (fun ts => primitiveTurn_safe (h.withTurns ts)) (fun ts => engineTurn_safe (h.withTurns ts))
    (fun ts => (xferStep_keeps_inv (h.withTurns ts)).safe) fun a b ts => hostWrite_safe (h.withTurns ts) a b

/-- Settles O40: the invariant is kept by each turn, ENGINE's longer one being a path of single actions. -/
theorem stepKeepsTheInvariant : Obligations.StepKeepsTheInvariant :=
  fun _ _ h hstep => (step_safe h).of_next hstep

/-- Settles O41: under the invariant every byte of a transfer from the staging buffer has been written. -/
theorem noStepReadsAnUnwrittenSlot : Obligations.NoStepReadsAnUnwrittenSlot :=
  fun _ h hstep => (step_safe h).of_fault hstep rfl

/-! ### The staging buffer while a transfer drains it -/

theorem xferStep_keeps_stg (s : State) : Leads (fun t => t.stg = s.stg) (xferStep s) :=
  xferStep_meets (fun _ => rfl) (fun _ _ _ _ _ _ _ => rfl) (fun _ _ _ => rfl) (fun _ _ _ _ _ => trivial) trivial
    (fun _ _ _ _ _ _ => trivial)

/-- ENGINE holds at the `awaitCompletion` of a chunk while the flag is down. -/
theorem resume_awaitChunk_hold {op : Stream} {s : State} (hd : s.done = false) :
    resume (.awaitChunk op) s = .next s := by
  simp [resume, hd]

theorem advance_awaitChunk_hold {op : Stream} {s : State} (hd : s.done = false) :
    advance (.awaitChunk op) s = .next s := by
  simp [advance, hd]

/-- Settles O44: the operation that owns the buffer holds until the transfer completes, and no other agent writes it. -/
theorem stagingIsStableWhileDraining : Obligations.StagingIsStableWhileDraining := by
  intro s t f h hx hsrc hstep
  have hd : s.done = false := h.parts.done_of_transfer hx
  obtain ⟨op, hq⟩ : ∃ op, s.seq = .busy (.awaitChunk op) := (h.owned f hx hsrc).elim (⟨_, ·⟩) (⟨_, ·⟩)
  have primitive (ts : List Turn) : primitiveTurn (withTurns ts s) = .next (withTurns ts s) :=
    (primitiveTurn_busy (s := withTurns ts s) hq).trans (advance_awaitChunk_hold hd)
  have engine (ts : List Turn) : engineTurn (withTurns ts s) = .next (withTurns ts s) :=
    (engineTurn_busy (s := withTurns ts s) hq).trans (resume_awaitChunk_hold hd)
  have stays : Leads (fun t => t.stg = s.stg) (step s) :=
    step_meets (fun ts => by rw [primitive ts]; rfl) (fun ts => by rw [engine ts]; rfl)
      (fun ts => xferStep_keeps_stg (withTurns ts s)) fun _ _ _ => hostWrite_meets rfl trivial trivial
  exact stays.of_next hstep

end Sys2Proof.Machine

namespace Sys2Proof.Machine

/-! ### What one primitive can do -/

/-- All that one primitive can do: send bytes, write `DC`, begin a transfer, or touch nothing but the panel, the staging
buffer, the mono cursor, the counters and the list of reads. -/
theorem perform_leads {I : State → Prop} {s : State} (sent : ∀ bs, I (syncTx bs s))
    (driven : ∀ m, ∀ k ≤ s.draws + 1, I { writeDC m s with draws := k })
    (begun : ∀ src len, I (transferBegun src len s))
    (other : ∀ p stg c rem off cnt reads,
      I { s with panel := p, stg := stg, cursor := c, rem := rem, off := off, cnt := cnt, reads := reads })
    (p : Primitive) : Leads I (perform p s) := by
  have on_bus {f : State → State} (hf : I (f s)) : Leads I (onFreeBus s fun s => .next (f s)) :=
    onFreeBus_meets (fun _ => hf) fun _ => trivial
  have begins (src : Source) (len : Nat) : Leads I (beginTransfer src len s) :=
    whenDone_meets (fun _ => begun src len) fun _ => trivial
  cases p with
  | drive m => exact on_bus (driven m s.draws (Nat.le_succ _))
  | transmit bs => exact on_bus (sent bs)
  | resetPanel =>
    unfold perform
    refine on_bus ?_
    exact other ..
  | driveFree =>
    unfold perform
    refine on_bus ?_
    exact driven _ _ (Nat.le_refl _)
  | tableSent | fillSlots | setCount => exact other ..
  | setCounters op => cases op <;> exact other ..
  | unpack i =>
    unfold perform unpackOne
    exact readSource_meets (fun _ _ _ => other ..) trivial trivial
  | beginDirect | beginChunk => exact begins _ _

/-! ### Steps other than HOST's -/

section
variable {I : State → Prop} (h : ActionsKeep I)
include h

theorem ActionsKeep.exec (i : Instr) {s : State} (hs : I s) : Leads I (Machine.exec i s) := by
  rw [exec_eq_run]
  rcases acceptInstr_cases i s with ⟨todo, e, load, eq⟩ | ⟨o, ho, eq⟩
  · rw [eq]; exact h.run todo e (h.accept load hs)
  · rw [eq]; exact leads_of_stops ho

theorem ActionsKeep.step_of_not_hostWrite {s : State} (hs : I s) (hhost : ∀ a b ts, s.turns ≠ .hostWrite a b :: ts) :
    Leads I (Machine.step s) := by
  have turns (ts : List Turn) : I (withTurns ts s) := h.book s _ ts _ _ _ _ hs
  unfold Machine.step takeTurn
  split
  · exact h.primitiveTurn hs
  · exact h.engineTurn (turns _)
  · exact h.primitiveTurn (turns _)
  · exact h.xferStep _ (turns _)
  · exact absurd ‹_› (hhost _ _ _)

end

/-! ### Source memory -/

theorem actionsKeep_mem (m : List Host.Cell) : ActionsKeep fun t => t.mem = m where
  perform p _ hs := perform_leads (fun _ => hs) (fun _ _ _ => hs) (fun _ _ => hs) (fun _ _ _ _ _ _ _ => hs) p
  xferStep _ hs := xferStep_meets (fun _ => hs) (fun _ _ _ _ _ _ _ => hs) (fun _ _ _ => hs) (fun _ _ _ _ _ => trivial)
    trivial fun _ _ _ _ _ _ => trivial
  book _ _ _ _ _ _ _ hs := hs
  advanceChunk op _ hs := (advanceChunk_mem op _).trans hs

/-- Settles O45: no action of ENGINE or XFER writes source memory, so no operation and no step made of them does. -/
theorem onlyHostWritesSourceMemory : Obligations.OnlyHostWritesSourceMemory := by
  refine ⟨fun i s t hexec => ?_, fun s t hhost hstep => ?_⟩
  · have same : t.mem = s.mem := ((actionsKeep_mem s.mem).exec i rfl).of_next hexec
    exact ⟨same, fun a => by rw [same]⟩
  · exact ((actionsKeep_mem s.mem).step_of_not_hostWrite rfl hhost).of_next hstep

/-- An address lies in the range an operation in progress reads: a bitmap, or a transfer still to be begun (R72). -/
theorem inRange_readRange_iff (s : State) (a : Nat) : inRange (readRange s) a = true ↔
    ∃ pos, s.seq = .busy pos ∧ s.ops.ptr.toNat ≤ a ∧
      ((pos.stream = some .colour ∧ a < s.ops.ptr.toNat + totalBytes s.ops.w s.ops.h) ∨
       (pos.stream = some .mono ∧ a < s.ops.ptr.toNat + monoBytes s.ops.w s.ops.h) ∨
       (pos.stream = none ∧ pos.beginsDirect = true ∧ a < s.ops.ptr.toNat + s.ops.len.toNat)) := by
  rcases hq : s.seq with _ | pos
  · simp [readRange, hq, inRange]
  · rcases hp : pos.stream with _ | op
    · cases hb : pos.beginsDirect <;> simp [readRange, hq, hp, hb, inRange]
    · cases op <;> simp [readRange, hq, hp, inRange]

/-- An address lies in the range the transfer in flight reads (43 R139). -/
theorem inRange_transferRange_iff (s : State) (a : Nat) : inRange (transferRange s) a = true ↔
    ∃ p len sent, s.xfer = some ⟨.mem p, len, sent⟩ ∧ p ≤ a ∧ a < p + len := by
  rcases hx : s.xfer with _ | ⟨_ | p, len, sent⟩ <;> simp [transferRange, hx, inRange]

/-- Settles O46: the two ranges that `hostWrite` tests are the bytes in use, and its write is one of the memory's own. -/
theorem hostWritesAreKeptOutOfTheRangeInUse : Obligations.HostWritesAreKeptOutOfTheRangeInUse := by
  intro s a b ts hturns hspace used
  have in_use : used ↔ (inRange (readRange s) a.toNat || inRange (transferRange s) a.toNat) = true := by
    rw [Bool.or_eq_true, inRange_readRange_iff, inRange_transferRange_iff]
  have host : step s = hostWrite a b (withTurns ts s) := by simp only [step, takeTurn, hturns]
  have test : step s = if (inRange (readRange s) a.toNat || inRange (transferRange s) a.toNat) = true
      then .fault .inFlightMutation else .next { s with turns := ts, mem := Memory.write s.mem a.toNat b } :=
    host.trans (if_pos hspace)
  refine ⟨fun hused => ?_, fun hfree => ⟨?_, fun hmem => ?_⟩⟩
  · rw [test, if_pos (in_use.1 hused)]
  · rw [test, if_neg (mt in_use.2 hfree)]
  · exact ⟨Memory.read_write_same _ _ _ hmem, fun a' ne => Memory.read_write_other _ _ _ _ hmem ne⟩

/-! ### The trace, the mark and the parameters -/

/-- From `s` to `t` the wire trace grows at its end, the mark stays set and the parameters stay (20_memory R58, 10_state
R32, 00_scope R10). -/
def TraceGrows (s t : State) : Prop :=
  s.wire <+: t.wire ∧ (s.syncTimeout = true → t.syncTimeout = true) ∧ t.cfg = s.cfg

theorem TraceGrows.trans {s m t : State} (h : TraceGrows s m) (h' : TraceGrows m t) : TraceGrows s t := by
  obtain ⟨hwire, hmark, hcfg⟩ := h
  obtain ⟨hwire', hmark', hcfg'⟩ := h'
  exact ⟨hwire.trans hwire', hmark' ∘ hmark, hcfg'.trans hcfg⟩

theorem TraceGrows.of_same {s t : State} (hw : t.wire = s.wire) (hm : t.syncTimeout = s.syncTimeout)
    (hc : t.cfg = s.cfg) : TraceGrows s t := ⟨by rw [hw], by rw [hm]; exact id, hc⟩

theorem traceGrows_syncTx (bs : List Byte) (s : State) : TraceGrows s (syncTx bs s) :=
  ⟨List.prefix_append _ _, fun hm => by rw [syncTx_syncTimeout, hm, Bool.true_or], rfl⟩

theorem traceGrows_perform (p : Primitive) (s : State) : Leads (TraceGrows s) (perform p s) :=
  perform_leads (traceGrows_syncTx · s) (fun _ _ _ => .of_same rfl rfl rfl) (fun _ _ => .of_same rfl rfl rfl)
    (fun _ _ _ _ _ _ _ => .of_same rfl rfl rfl) p

theorem traceGrows_xferStep (s : State) : Leads (TraceGrows s) (xferStep s) :=
  xferStep_meets (fun _ => .of_same rfl rfl rfl) (fun _ _ _ _ _ _ _ => ⟨List.prefix_append _ _, id, rfl⟩)
    (fun _ _ _ => .of_same rfl rfl rfl) (fun _ _ _ _ _ => trivial) trivial fun _ _ _ _ _ _ => trivial

theorem actionsKeep_traceGrows (s : State) : ActionsKeep (TraceGrows s) where
  perform p _ hm := (traceGrows_perform p _).weaken fun _ => hm.trans
  xferStep _ hm := (traceGrows_xferStep _).weaken fun _ => hm.trans
  book _ _ _ _ _ _ _ hm := hm.trans (.of_same rfl rfl rfl)
  advanceChunk op _ hm :=
    hm.trans (.of_same (advanceChunk_wire op _) (advanceChunk_syncTimeout op _) (advanceChunk_cfg op _))

theorem step_traceGrows (s : State) : Leads (TraceGrows s) (step s) :=
  (actionsKeep_traceGrows s).step (fun _ _ hm => hm.trans (.of_same rfl rfl rfl)) (.of_same rfl rfl rfl)

/-! ### A primitive turn is one action -/

/-- From `s` to `t` at most one of `DC`, the wire and the flag has been written, the wire by one transmit in the mode
`DC` held (92 D1). -/
structure SingleAction (s t : State) : Prop where
  mode  : t.dc ≠ s.dc → t.wire = s.wire ∧ t.done = s.done
  flag  : t.done ≠ s.done → t.wire = s.wire ∧ t.dc = s.dc
  wire  : t.wire ≠ s.wire → t.draws = s.draws + 1 ∧ ∃ bs, t.wire = s.wire ++ tagged s.dc bs
  draws : t.draws ≤ s.draws + 1

theorem SingleAction.of_same {s t : State} (hdc : t.dc = s.dc) (hw : t.wire = s.wire) (hd : t.done = s.done)
    (hk : t.draws = s.draws) : SingleAction s t where
  mode ne := absurd hdc ne
  flag ne := absurd hd ne
  wire ne := absurd hw ne
  draws := hk ▸ Nat.le_succ _

theorem singleAction_syncTx (bs : List Byte) (s : State) : SingleAction s (syncTx bs s) where
  mode ne := absurd rfl ne
  flag ne := absurd rfl ne
  wire _ := ⟨rfl, _, rfl⟩
  draws := Nat.le_refl _

theorem singleAction_drive (m : Mode) {k : Nat} {s : State} (hk : k ≤ s.draws + 1) :
    SingleAction s { writeDC m s with draws := k } where
  mode _ := ⟨rfl, rfl⟩
  flag ne := absurd rfl ne
  wire ne := absurd rfl ne
  draws := hk

theorem singleAction_transferBegun (src : Source) (len : Nat) (s : State) : SingleAction s (transferBegun src len s) where
  mode ne := absurd rfl ne
  flag _ := ⟨rfl, rfl⟩
  wire ne := absurd rfl ne
  draws := Nat.le_succ _

/-- A primitive is one action, and retires nothing itself. -/
theorem perform_singleAction (p : Primitive) (s : State) :
    Leads (fun m => SingleAction s m ∧ m.retired = s.retired) (perform p s) :=
  perform_leads (fun bs => ⟨singleAction_syncTx bs s, rfl⟩) (fun m _ hk => ⟨singleAction_drive m hk, rfl⟩)
    (fun src len => ⟨singleAction_transferBegun src len s, rfl⟩)
    (fun _ _ _ _ _ _ _ => ⟨.of_same rfl rfl rfl rfl, rfl⟩) p

theorem place_retired_le (todo : List Primitive) (e : Ending) (s : State) :
    (place todo e s).retired ≤ s.retired + 1 := by
  cases todo with
  | cons p ps => exact Nat.le_succ _
  | nil =>
    cases e with
    | retire => exact Nat.le_refl _
    | awaitDirect | awaitChunk => exact Nat.le_succ _
    | loop op => simp only [place]; split <;> [exact Nat.le_refl _; exact Nat.le_succ _]

/-- What a primitive turn does after its action: it goes on to the next place, where the operation may retire. -/
theorem SingleAction.place {s m : State} (h : SingleAction s m) (hr : m.retired = s.retired) (todo : List Primitive)
    (e : Ending) : SingleAction s (Machine.place todo e m) ∧ (Machine.place todo e m).retired ≤ s.retired + 1 := by
  refine ⟨?_, hr ▸ place_retired_le todo e m⟩
  rw [place_frame]
  exact ⟨h.mode, h.flag, h.wire, h.draws⟩

theorem primitiveTurn_singleAction (s : State) :
    Leads (fun t => SingleAction s t ∧ t.retired ≤ s.retired + 1) (primitiveTurn s) := by
  have same : SingleAction s s := .of_same rfl rfl rfl rfl
  have stays : SingleAction s s ∧ s.retired ≤ s.retired + 1 := ⟨same, Nat.le_succ _⟩
  rcases hq : s.seq with _ | pos
  · rw [primitiveTurn_idle hq]
    refine acceptNext_meets stays (fun d ds i => ?_) trivial
    rcases acceptInstr_cases i { s with requests := ds, ops := latchesOf d } with ⟨todo, e, load, eq⟩ | ⟨o, ho, eq⟩
    · have accepted : SingleAction s (accept load { s with requests := ds, ops := latchesOf d }) :=
        .of_same rfl rfl rfl rfl
      rw [eq]; exact accepted.place rfl todo e
    · rw [eq]; exact leads_of_stops ho
  · rw [primitiveTurn_busy hq]
    cases pos with
    | line todo e =>
      cases todo with
      | nil => exact same.place rfl [] e
      | cons p ps =>
        refine Meets.andThen ((perform_singleAction p s).weaken fun m hm => ?_)
        exact hm.1.place hm.2 ps e
    | awaitDirect =>
      simp only [advance]
      split
      · exact same.place rfl [] .retire
      · exact stays
    | awaitChunk op =>
      have advanced : SingleAction s (advanceChunk op s) := .of_same (by simp) (by simp) (by simp) (by simp)
      simp only [advance]
      split
      · exact advanced.place (advanceChunk_retired op s) [] (.loop op)
      · exact stays

/-- Settles O47: every action lets the trace grow, so every step does; a primitive turn is one action and the move to the
next place. -/
theorem stepsGrowTheTraceAndPrimitivesAreSingleActions : Obligations.StepsGrowTheTraceAndPrimitivesAreSingleActions := by
  refine ⟨fun s t hstep => (step_traceGrows s).of_next hstep, fun s t hmoves hstep => ?_⟩
  rw [step_of_primitiveMoves hmoves] at hstep
  obtain ⟨⟨hmode, hflag, hwire, hdraws⟩, hretired⟩ := (primitiveTurn_singleAction _).of_next hstep
  exact ⟨hmode, hflag, hwire, hdraws, hretired⟩

end Sys2Proof.Machine

namespace Sys2Proof.Machine

/-! ### The frames of a ready panel -/

/-- The three command codes are pairwise distinct (92 D7). -/
theorem codesDistinct_iff (cfg : Config) : cfg.codesDistinct = true ↔
    cfg.cmdCaset ≠ cfg.cmdPaset ∧ cfg.cmdCaset ≠ cfg.cmdRamwr ∧ cfg.cmdPaset ≠ cfg.cmdRamwr := by
  simp [Config.codesDistinct, and_assoc]

@[simp] theorem joinBytes_hi8_lo8 (c : Half) : joinBytes (hi8 c) (lo8 c) = c := by
  unfold joinBytes hi8 lo8
  rw [BitVec.extractLsb'_append_extractLsb'_eq_extractLsb' (by rfl)]
  exact BitVec.extractLsb'_eq_self

section
variable {cfg : Config} {p : Panel} (hready : p.ready = true)
include hready

theorem receive_command (b : Byte) : p.receive cfg ⟨.command, b⟩ = p.onCommand cfg b := by
  simp [Panel.receive, hready]

theorem receive_data (b : Byte) : p.receive cfg ⟨.data, b⟩ = p.onData cfg b := by
  simp [Panel.receive, hready]

end

/-- The panel in the frame of a command, with these parameter bytes of it received; the frame before it settled. -/
def Panel.framed (cfg : Config) (command : Byte) (ps : List Byte) (p : Panel) : Panel :=
  { p.settled cfg with cmd := command, inFrame := true, params := ps }

/-- Where the frame before it was finished, nothing else of the panel changes. -/
theorem framed_of_not_midFrame {cfg : Config} {p : Panel} (h : p.midFrame cfg = false) (command : Byte)
    (ps : List Byte) : p.framed cfg command ps = { p with cmd := command, inFrame := true, params := ps } := by
  rw [Panel.framed, settled_of_not_midFrame h]

section
variable {cfg : Config} (hcodes : cfg.codesDistinct = true)
include hcodes

theorem onCommand_caset (p : Panel) : p.onCommand cfg cfg.cmdCaset = p.framed cfg cfg.cmdCaset [] := by
  simp [Panel.onCommand, hcodes, Panel.framed, Panel.settled]

theorem onCommand_paset (p : Panel) : p.onCommand cfg cfg.cmdPaset = p.framed cfg cfg.cmdPaset [] := by
  simp [Panel.onCommand, hcodes, Panel.framed, Panel.settled]

theorem onCommand_ramwr (p : Panel) : p.onCommand cfg cfg.cmdRamwr =
    { p.framed cfg cfg.cmdRamwr [] with
      cursor := ((p.settled cfg).xs.toNat, (p.settled cfg).ys.toNat), latch := none } := by
  obtain ⟨-, hcr, hpr⟩ := (codesDistinct_iff cfg).1 hcodes
  simp [Panel.onCommand, hcodes, Panel.framed, Panel.settled, hcr.symm, hpr.symm]

theorem onData_paset {p : Panel} (hf : p.inFrame = true) (hc : p.cmd = cfg.cmdPaset) (b : Byte) :
    p.onData cfg b = p.onRowByte cfg b := by
  obtain ⟨hcp, -, -⟩ := (codesDistinct_iff cfg).1 hcodes
  simp [Panel.onData, hf, hc, hcp.symm]

theorem onData_ramwr {p : Panel} (hf : p.inFrame = true) (hc : p.cmd = cfg.cmdRamwr) (b : Byte) :
    p.onData cfg b = p.onPixelByte cfg b := by
  obtain ⟨-, hcr, hpr⟩ := (codesDistinct_iff cfg).1 hcodes
  simp [Panel.onData, hf, hc, hcr.symm, hpr.symm]

end

theorem onData_caset {cfg : Config} {p : Panel} (hf : p.inFrame = true) (hc : p.cmd = cfg.cmdCaset) (b : Byte) :
    p.onData cfg b = p.onColumnByte cfg b := by
  simp [Panel.onData, hf, hc]

/-! #### The parameters of an address command -/

section
variable {size : Nat} {set : Half → Half → Panel → Panel} {p : Panel}

/-- The first three parameter bytes are collected. -/
theorem onAddressByte_collects {ps : List Byte} (hp : p.params = ps) (hl : ps.length < 3) (b : Byte) :
    p.onAddressByte size set b = { p with params := ps ++ [b] } := by
  subst hp
  unfold Panel.onAddressByte
  split
  · rename_i heq; rw [heq] at hl; exact absurd hl (by simp)
  · rw [if_pos hl]

/-- The fourth sets the registers where the window is on the panel. -/
theorem onAddressByte_sets {b0 b1 b2 b : Byte} (hp : p.params = [b0, b1, b2])
    (hle : (joinBytes b0 b1).toNat ≤ (joinBytes b2 b).toNat) (hlt : (joinBytes b2 b).toNat < size) :
    p.onAddressByte size set b = set (joinBytes b0 b1) (joinBytes b2 b) { p with params := [b0, b1, b2, b] } := by
  simp [Panel.onAddressByte, hp, hle, hlt]

/-- The fourth of a window that is inverted or off the panel loses the panel's state (20_memory R65). -/
theorem onAddressByte_off_panel {b0 b1 b2 b : Byte} (hp : p.params = [b0, b1, b2])
    (hoff : (joinBytes b2 b).toNat < (joinBytes b0 b1).toNat ∨ size ≤ (joinBytes b2 b).toNat) :
    p.onAddressByte size set b = p.lose := by
  have hinvalid : ¬ ((joinBytes b0 b1).toNat ≤ (joinBytes b2 b).toNat ∧ (joinBytes b2 b).toNat < size) := by omega
  simp only [Panel.onAddressByte, hp]
  exact if_neg hinvalid

/-- A fifth loses the panel's state (log 11). -/
theorem onAddressByte_fifth (hp : p.params.length = 4) (b : Byte) : p.onAddressByte size set b = p.lose := by
  unfold Panel.onAddressByte
  split
  · rename_i heq; rw [heq] at hp; exact absurd hp (by simp)
  · exact if_neg (by omega)

end

/-- A whole address frame, for a command whose bytes are `onAddressByte size set`. -/
theorem foldl_addressFrame {cfg : Config} {c : Byte} {size : Nat} {set : Half → Half → Panel → Panel}
    (hdata : ∀ (q : Panel) (b : Byte), q.ready = true → q.inFrame = true → q.cmd = c →
      q.receive cfg ⟨.data, b⟩ = q.onAddressByte size set b)
    {p : Panel} (hready : p.ready = true) {b0 b1 b2 b3 : Byte}
    (hle : (joinBytes b0 b1).toNat ≤ (joinBytes b2 b3).toNat) (hlt : (joinBytes b2 b3).toNat < size) :
    (tagged .data [b0, b1, b2, b3]).foldl (Panel.receive cfg) (p.framed cfg c []) =
      set (joinBytes b0 b1) (joinBytes b2 b3) (p.framed cfg c [b0, b1, b2, b3]) := by
  have hr (ps : List Byte) : (p.framed cfg c ps).ready = true := (settled_ready cfg p).trans hready
  have collects {ps : List Byte} (hl : ps.length < 3) (b : Byte) :
      (p.framed cfg c ps).receive cfg ⟨.data, b⟩ = p.framed cfg c (ps ++ [b]) :=
    (hdata _ b (hr _) rfl rfl).trans (onAddressByte_collects rfl hl b)
  have sets : (p.framed cfg c [b0, b1, b2]).receive cfg ⟨.data, b3⟩ =
      set (joinBytes b0 b1) (joinBytes b2 b3) (p.framed cfg c [b0, b1, b2, b3]) :=
    (hdata _ b3 (hr _) rfl rfl).trans (onAddressByte_sets rfl hle hlt)
  simp only [tagged_cons, tagged_nil, List.foldl_cons, List.foldl_nil]
  rw [collects (by decide), List.nil_append, collects (by simp), List.singleton_append, collects (by simp)]
  exact sets

section
variable {cfg : Config} {p : Panel} (hcodes : cfg.codesDistinct = true) (hready : p.ready = true)
include hcodes hready

/-- The column frame sets `XS` and `XE` (20_memory R61). -/
theorem receive_columnFrame {b0 b1 b2 b3 : Byte} {start stop : Half} (hstart : joinBytes b0 b1 = start)
    (hstop : joinBytes b2 b3 = stop) (hle : start.toNat ≤ stop.toNat) (hlt : stop.toNat < cfg.panelWidth) :
    (⟨.command, cfg.cmdCaset⟩ :: tagged .data [b0, b1, b2, b3]).foldl (Panel.receive cfg) p =
      { p.framed cfg cfg.cmdCaset [b0, b1, b2, b3] with xs := start, xe := stop } := by
  subst hstart hstop
  rw [List.foldl_cons, receive_command hready, onCommand_caset hcodes]
  have bytes (q : Panel) (b : Byte) (hr : q.ready = true) (hf : q.inFrame = true) (hc : q.cmd = cfg.cmdCaset) :
      q.receive cfg ⟨.data, b⟩ = q.onColumnByte cfg b := (receive_data hr b).trans (onData_caset hf hc b)
  exact foldl_addressFrame bytes hready hle hlt

/-- The row frame sets `YS` and `YE` (20_memory R62). -/
theorem receive_rowFrame {b0 b1 b2 b3 : Byte} {start stop : Half} (hstart : joinBytes b0 b1 = start)
    (hstop : joinBytes b2 b3 = stop) (hle : start.toNat ≤ stop.toNat) (hlt : stop.toNat < cfg.panelHeight) :
    (⟨.command, cfg.cmdPaset⟩ :: tagged .data [b0, b1, b2, b3]).foldl (Panel.receive cfg) p =
      { p.framed cfg cfg.cmdPaset [b0, b1, b2, b3] with ys := start, ye := stop } := by
  subst hstart hstop
  rw [List.foldl_cons, receive_command hready, onCommand_paset hcodes]
  have bytes (q : Panel) (b : Byte) (hr : q.ready = true) (hf : q.inFrame = true) (hc : q.cmd = cfg.cmdPaset) :
      q.receive cfg ⟨.data, b⟩ = q.onRowByte cfg b := (receive_data hr b).trans (onData_paset hcodes hf hc b)
  exact foldl_addressFrame bytes hready hle hlt

/-- The memory-write command opens the pixel stream (20_memory R63). -/
theorem receive_memoryWrite : p.receive cfg ⟨.command, cfg.cmdRamwr⟩ =
    { p.framed cfg cfg.cmdRamwr [] with
      cursor := ((p.settled cfg).xs.toNat, (p.settled cfg).ys.toNat), latch := none } := by
  rw [receive_command hready, onCommand_ramwr hcodes]

end

/-- Settles O59, from the rule of each of the three frames. -/
theorem panelTakesEachFrame : Obligations.PanelTakesEachFrame := by
  refine ⟨fun cfg p b => ⟨receive_command_cmd cfg p b, receive_data_cmd cfg p b⟩,
    fun cfg p b0 b1 b2 b3 hcodes hready => ⟨fun hle hlt => ?_, fun hle hlt => ?_, ?_⟩⟩
  · exact receive_columnFrame hcodes hready rfl rfl hle hlt
  · exact receive_rowFrame hcodes hready rfl rfl hle hlt
  · exact receive_memoryWrite hcodes hready

/-! ### The window -/

/-- After all four bytes of an address frame it is finished. -/
theorem midFrame_of_four_params {cfg : Config} {p : Panel} (hcmd : p.cmd ≠ cfg.cmdRamwr) (hp : p.params.length = 4) :
    p.midFrame cfg = false := by
  simp [Panel.midFrame, hcmd, hp]

/-- The panel whose window a whole `setWindow` has opened. -/
def Panel.opened (cfg : Config) (xs ys xe ye : Half) (p : Panel) : Panel :=
  { p.settled cfg with
    xs := xs, xe := xe, ys := ys, ye := ye
    cursor := (xs.toNat, ys.toNat)
    cmd := cfg.cmdRamwr
    inFrame := true
    params := []
    latch := none }

/-- The column frame, the row frame and the memory-write command, each finished before the next. -/
theorem receive_windowEvents {cfg : Config} {p : Panel} {xs ys xe ye : Half} (hcodes : cfg.codesDistinct = true)
    (hready : p.ready = true) (hx : xs.toNat ≤ xe.toNat) (hxe : xe.toNat < cfg.panelWidth) (hy : ys.toNat ≤ ye.toNat)
    (hye : ye.toNat < cfg.panelHeight) :
    (windowEvents cfg xs ys xe ye).foldl (Panel.receive cfg) p = p.opened cfg xs ys xe ye := by
  obtain ⟨-, hcr, hpr⟩ := (codesDistinct_iff cfg).1 hcodes
  have frames : windowEvents cfg xs ys xe ye =
      (⟨.command, cfg.cmdCaset⟩ :: tagged .data [hi8 xs, lo8 xs, hi8 xe, lo8 xe]) ++
      (⟨.command, cfg.cmdPaset⟩ :: tagged .data [hi8 ys, lo8 ys, hi8 ye, lo8 ye]) ++ [⟨.command, cfg.cmdRamwr⟩] := rfl
  have hsettled : (p.settled cfg).ready = true := (settled_ready cfg p).trans hready
  rw [frames, List.foldl_append, List.foldl_append,
    receive_columnFrame hcodes hready (joinBytes_hi8_lo8 xs) (joinBytes_hi8_lo8 xe) hx hxe,
    receive_rowFrame hcodes ?columns_ready (joinBytes_hi8_lo8 ys) (joinBytes_hi8_lo8 ye) hy hye,
    framed_of_not_midFrame ?columns_done cfg.cmdPaset, List.foldl_cons, List.foldl_nil,
    receive_memoryWrite hcodes ?rows_ready, framed_of_not_midFrame ?rows_done cfg.cmdRamwr,
    settled_of_not_midFrame ?rows_done]
  case columns_ready | rows_ready => exact hsettled
  case columns_done => exact midFrame_of_four_params hcr rfl
  case rows_done => exact midFrame_of_four_params hpr rfl
  rfl

/-- Settles O52, from the three frames of `setWindow`. -/
theorem panelTakesTheWindow : Obligations.PanelTakesTheWindow :=
  fun _ _ _ _ _ _ hcodes hready hx hxe hy hye => receive_windowEvents hcodes hready hx hxe hy hye

end Sys2Proof.Machine

namespace Sys2Proof.Machine

/-! ### The places of a pixel stream -/

/-- Pixels of different places on the panel have different keys. -/
theorem pixelKey_inj {col row col' row' : Nat} (hc : col < 65536) (hc' : col' < 65536)
    (h : pixelKey col row = pixelKey col' row') : col = col' ∧ row = row' := by
  unfold pixelKey at h; omega

/-- The width of the panel's window. -/
def Panel.width (p : Panel) : Nat := p.xe.toNat - p.xs.toNat + 1

/-- The height of the panel's window. -/
def Panel.height (p : Panel) : Nat := p.ye.toNat - p.ys.toNat + 1

/-- The place of pixel `k` of a stream, in row-major order (20_memory R64, 42 R123). -/
def Panel.place (p : Panel) (k : Nat) : Nat × Nat := (p.xs.toNat + k % p.width, p.ys.toNat + k / p.width)

/-- The key of that place. -/
def Panel.placeKey (p : Panel) (k : Nat) : Nat := pixelKey (p.place k).1 (p.place k).2

theorem windowValid_iff (cfg : Config) (p : Panel) : p.windowValid cfg = true ↔
    p.xs.toNat ≤ p.xe.toNat ∧ p.xe.toNat < cfg.panelWidth ∧ p.ys.toNat ≤ p.ye.toNat ∧ p.ye.toNat < cfg.panelHeight := by
  simp [Panel.windowValid, and_assoc]

section
variable {p : Panel} (hx : p.xs.toNat ≤ p.xe.toNat)
include hx

theorem place_column_lt (k : Nat) : (p.place k).1 < 65536 := by
  have hr : k % p.width < p.width := Nat.mod_lt _ (Nat.succ_pos _)
  have hxe := p.xe.isLt
  unfold Panel.width at hr
  simp only [Panel.place, Panel.width]
  omega

theorem placeKey_inj {j k : Nat} (h : p.placeKey j = p.placeKey k) : j = k := by
  obtain ⟨hcol, hrow⟩ := pixelKey_inj (place_column_lt hx j) (place_column_lt hx k) h
  have hmod : j % p.width = k % p.width := Nat.add_left_cancel hcol
  have hdiv : j / p.width = k / p.width := Nat.add_left_cancel hrow
  rw [← Nat.div_add_mod j p.width, ← Nat.div_add_mod k p.width, hmod, hdiv]

/-- The cursor goes from each place to the next (90 C6). -/
theorem nextCursor_place (k : Nat) : nextCursor p.xs.toNat p.xe.toNat (p.place k) = p.place (k + 1) := by
  have hw : 0 < p.width := Nat.succ_pos _
  have hr : k % p.width < p.width := Nat.mod_lt _ hw
  have hk : k + 1 = p.width * (k / p.width) + (k % p.width + 1) := by rw [← Nat.add_assoc, Nat.div_add_mod]
  have hlast : p.xs.toNat + k % p.width = p.xe.toNat ↔ k % p.width + 1 = p.width := by
    unfold Panel.width at hr ⊢; omega
  simp only [nextCursor, Panel.place, hlast]
  rw [hk, Nat.mul_add_mod, Nat.mul_add_div hw]
  by_cases hend : k % p.width + 1 = p.width
  · rw [if_pos hend, hend, Nat.mod_self, Nat.div_self hw]; rfl
  · have hlt : k % p.width + 1 < p.width := by omega
    rw [if_neg hend, Nat.mod_eq_of_lt hlt, Nat.div_eq_of_lt hlt]; rfl

end

/-! ### A pixel stream -/

/-- The panel is in the frame of the memory-write command, between two pixels, in a window on the panel. -/
structure StreamOpen (cfg : Config) (p : Panel) : Prop where
  ready   : p.ready = true
  inFrame : p.inFrame = true
  command : p.cmd = cfg.cmdRamwr
  latch   : p.latch = none
  valid   : p.windowValid cfg = true

/-- The first byte of a pixel is latched. -/
theorem onPixelByte_first {cfg : Config} {p : Panel} (hroom : p.hasRoom cfg = true) (hl : p.latch = none) (b : Byte) :
    p.onPixelByte cfg b = { p with latch := some b } := by
  rw [Panel.onPixelByte, if_pos hroom, hl]

/-- The second writes the pixel and moves the cursor. -/
theorem onPixelByte_second {cfg : Config} {p : Panel} {a : Byte} (hroom : p.hasRoom cfg = true) (hl : p.latch = some a)
    (b : Byte) : p.onPixelByte cfg b =
      { p with
        gram := insertAt (pixelKey p.cursor.1 p.cursor.2) (joinBytes a b) p.gram
        cursor := nextCursor p.xs.toNat p.xe.toNat p.cursor
        latch := none } := by
  rw [Panel.onPixelByte, if_pos hroom, hl]

theorem receive_pixelByte {cfg : Config} {p : Panel} (hcodes : cfg.codesDistinct = true) (hready : p.ready = true)
    (hf : p.inFrame = true) (hc : p.cmd = cfg.cmdRamwr) (b : Byte) :
    p.receive cfg ⟨.data, b⟩ = p.onPixelByte cfg b :=
  (receive_data hready b).trans (onData_ramwr hcodes hf hc b)

/-- One pixel where the window has room: its two bytes write it at the cursor (20_memory R64). -/
theorem receive_colourEvents {cfg : Config} {p : Panel} (hcodes : cfg.codesDistinct = true) (h : StreamOpen cfg p)
    (hroom : p.cursor.2 ≤ p.ye.toNat) (c : Half) :
    (colourEvents c).foldl (Panel.receive cfg) p =
      { p with
        gram := insertAt (pixelKey p.cursor.1 p.cursor.2) c p.gram
        cursor := nextCursor p.xs.toNat p.xe.toNat p.cursor } := by
  have room : p.hasRoom cfg = true := (Bool.and_eq_true _ _).mpr ⟨h.valid, decide_eq_true hroom⟩
  have first : p.receive cfg ⟨.data, hi8 c⟩ = { p with latch := some (hi8 c) } :=
    (receive_pixelByte hcodes h.ready h.inFrame h.command _).trans (onPixelByte_first room h.latch _)
  have second := onPixelByte_second (p := { p with latch := some (hi8 c) }) room rfl (lo8 c)
  rw [colourEvents, List.foldl_cons, List.foldl_cons, List.foldl_nil, first,
    receive_pixelByte (p := { p with latch := some (hi8 c) }) hcodes h.ready h.inFrame h.command, second,
    joinBytes_hi8_lo8, ← h.latch]

/-- `q` is `p` after the pixels `cs` of a stream: the cursor is at the next place, each pixel is at its place, and every
other is as before. -/
structure Streamed (p : Panel) (cs : List Half) (q : Panel) : Prop where
  frame  : q = { p with gram := q.gram, cursor := p.place cs.length }
  rising : rising q.gram = true
  placed : ∀ k (hk : k < cs.length), lookupAt (p.placeKey k) q.gram = some cs[k]
  others : ∀ key, (∀ k < cs.length, key ≠ p.placeKey k) → lookupAt key q.gram = lookupAt key p.gram

theorem Streamed.streamOpen {cfg : Config} {p q : Panel} {cs : List Half} (hs : Streamed p cs q)
    (h : StreamOpen cfg p) : StreamOpen cfg q := by
  rw [hs.frame]
  exact ⟨h.ready, h.inFrame, h.command, h.latch, h.valid⟩

/-- One more pixel, if the window holds it. -/
theorem Streamed.snoc {cfg : Config} {p q : Panel} {cs : List Half} (hcodes : cfg.codesDistinct = true)
    (h : StreamOpen cfg p) (hs : Streamed p cs q) (c : Half) (hlen : cs.length < p.width * p.height) :
    Streamed p (cs ++ [c]) ((colourEvents c).foldl (Panel.receive cfg) q) := by
  obtain ⟨hx, -, hy, -⟩ := (windowValid_iff cfg p).1 h.valid
  have hcur : q.cursor = p.place cs.length := by rw [hs.frame]
  have hxs : q.xs = p.xs := by rw [hs.frame]
  have hxe : q.xe = p.xe := by rw [hs.frame]
  have hye : q.ye = p.ye := by rw [hs.frame]
  have hrow : cs.length / p.width < p.height := Nat.div_lt_of_lt_mul hlen
  have hroom : (p.place cs.length).2 ≤ p.ye.toNat := by
    unfold Panel.height at hrow; simp only [Panel.place]; omega
  have pixel : (colourEvents c).foldl (Panel.receive cfg) q =
      { q with gram := insertAt (p.placeKey cs.length) c q.gram, cursor := p.place (cs.length + 1) } := by
    rw [receive_colourEvents hcodes (hs.streamOpen h) (by rwa [hcur, hye]), hcur, hxs, hxe, nextCursor_place hx]
    rfl
  have written (key : Nat) : lookupAt key (insertAt (p.placeKey cs.length) c q.gram) =
      if key = p.placeKey cs.length then some c else lookupAt key q.gram := lookupAt_insertAt _ _ _ _ hs.rising
  have length_succ : (cs ++ [c]).length = cs.length + 1 := by rw [List.length_append, List.length_singleton]
  rw [pixel]
  refine ⟨?_, rising_insertAt _ _ _ hs.rising, fun k hk => ?_, fun key hkey => ?_⟩
  · rw [length_succ, hs.frame]
  · rw [written]
    by_cases hlast : k = cs.length
    · subst hlast
      rw [if_pos rfl, List.getElem_concat_length rfl]
    · have hk' : k < cs.length := by omega
      rw [if_neg (mt (placeKey_inj hx) hlast), hs.placed k hk', List.getElem_append_left hk']
  · rw [length_succ] at hkey
    rw [written, if_neg (hkey _ (Nat.lt_succ_self _)), hs.others key fun k hk => hkey k (Nat.lt_succ_of_lt hk)]

/-- As many pixels as the window holds. -/
theorem streamed_pixelEvents {cfg : Config} {p : Panel} (hcodes : cfg.codesDistinct = true) (h : StreamOpen cfg p)
    (hcur : p.cursor = p.place 0) (hrising : rising p.gram = true) (cs : List Half)
    (hlen : cs.length ≤ p.width * p.height) : Streamed p cs ((pixelEvents cs).foldl (Panel.receive cfg) p) := by
  induction cs using List.reverseRecOn with
  | nil =>
    have same : p = { p with gram := p.gram, cursor := p.place 0 } := by rw [← hcur]
    exact ⟨same, hrising, fun _ hk => absurd hk (Nat.not_lt_zero _), fun _ _ => rfl⟩
  | append_singleton cs c ih =>
    rw [List.length_append, List.length_singleton] at hlen
    have events : pixelEvents (cs ++ [c]) = pixelEvents cs ++ colourEvents c := by simp [pixelEvents]
    rw [events, List.foldl_append]
    exact (ih (Nat.le_of_succ_le hlen)).snoc hcodes h c hlen

theorem StreamOpen.midFrame {cfg : Config} {p : Panel} (hcodes : cfg.codesDistinct = true) (h : StreamOpen cfg p) :
    p.midFrame cfg = false := by
  obtain ⟨-, hcr, hpr⟩ := (codesDistinct_iff cfg).1 hcodes
  simp [Panel.midFrame, h.command, h.latch, hcr.symm, hpr.symm]

theorem Streamed.pixel_of_placed {p q : Panel} {cs : List Half} (h : Streamed p cs q) {k : Nat} (hk : k < cs.length) :
    q.pixel (p.place k).1 (p.place k).2 = cs[k] := by
  have := h.placed k hk
  unfold Panel.placeKey at this
  rw [Panel.pixel, this, Option.getD_some]

theorem Streamed.pixel_of_other {p q : Panel} {cs : List Half} (h : Streamed p cs q) (hx : p.xs.toNat ≤ p.xe.toNat)
    {col row : Nat} (hcol : col < 65536)
    (hother : ∀ k < cs.length, ¬ (col = (p.place k).1 ∧ row = (p.place k).2)) : q.pixel col row = p.pixel col row := by
  have hdraw : q.draw = p.draw := by rw [h.frame]
  have hkey := h.others (pixelKey col row) fun k hk eq => hother k hk (pixelKey_inj hcol (place_column_lt hx k) eq)
  rw [Panel.pixel, Panel.pixel, hkey, hdraw]

theorem settled_rising {cfg : Config} {p : Panel} (h : rising p.gram = true) : rising (p.settled cfg).gram = true := by
  unfold Panel.settled
  split
  · rfl
  · exact h

/-- Settles O53: `setWindow` opens the stream at the window's first pixel, and each pixel goes to the next place. -/
theorem panelPlacesTheStreamInRowMajorOrder : Obligations.PanelPlacesTheStreamInRowMajorOrder := by
  intro cfg p xs ys xe ye cs hcodes hready hrising hx hxe hy hye width height hlen q
  have stream_open : StreamOpen cfg (p.opened cfg xs ys xe ye) :=
    ⟨(settled_ready cfg p).trans hready, rfl, rfl, rfl, (windowValid_iff _ _).2 ⟨hx, hxe, hy, hye⟩⟩
  have first : (p.opened cfg xs ys xe ye).cursor = (p.opened cfg xs ys xe ye).place 0 := by
    simp [Panel.place, Panel.opened]
  have hq : q = (pixelEvents cs).foldl (Panel.receive cfg) (p.opened cfg xs ys xe ye) := by
    rw [← receive_windowEvents hcodes hready hx hxe hy hye, ← List.foldl_append]
  have streamed : Streamed (p.opened cfg xs ys xe ye) cs q :=
    hq ▸ streamed_pixelEvents hcodes stream_open first (settled_rising hrising) cs hlen
  have q_open : StreamOpen cfg q := streamed.streamOpen stream_open
  refine ⟨q_open.ready, q_open.midFrame hcodes, fun k hk => streamed.pixel_of_placed hk, fun hmid col row hcol hother => ?_⟩
  have opened_pixel : (p.opened cfg xs ys xe ye).pixel col row = p.pixel col row := by
    rw [Panel.opened, settled_of_not_midFrame hmid]; rfl
  exact (streamed.pixel_of_other hx hcol hother).trans opened_pixel

end Sys2Proof.Machine

namespace Sys2Proof.Machine

/-! ### Events outside the contract -/

/-- A panel that loses its state later than `p` has lost `p`'s. -/
theorem lostTo_lose_of {p q : Panel} (hreset : q.wasReset = p.wasReset) (hready : q.ready = p.ready)
    (hdraw : p.draw ≤ q.draw) : LostTo p q.lose := by
  refine ⟨?_, Nat.lt_succ_of_le hdraw⟩
  rw [← hreset, ← hready]; rfl

/-- Settling keeps what no event of the wire changes, and draws no earlier values. -/
theorem settled_keeps (cfg : Config) (p : Panel) : (p.settled cfg).wasReset = p.wasReset ∧ p.draw ≤ (p.settled cfg).draw := by
  unfold Panel.settled
  split
  · exact ⟨rfl, Nat.le_succ _⟩
  · exact ⟨rfl, Nat.le_refl _⟩

/-- A command the contract does not know (20_memory R66). -/
theorem onCommand_unknown {cfg : Config} {p : Panel} {b : Byte} (hc : b ≠ cfg.cmdCaset) (hp : b ≠ cfg.cmdPaset)
    (hr : b ≠ cfg.cmdRamwr) : p.onCommand cfg b = (p.framed cfg b []).lose := by
  simp only [Panel.onCommand, hc, hp, hr, or_self, if_false, ite_self]
  rfl

/-- A command in mid frame finds a panel that has lost its values (log 11). -/
theorem onCommand_midFrame {cfg : Config} {p : Panel} (h : p.midFrame cfg = true) (b : Byte) :
    p.onCommand cfg b = p.lose.onCommand cfg b := by
  simp only [Panel.onCommand, h, lose_midFrame, if_true, Bool.false_eq_true, if_false]

/-- Whatever a panel that is not ready receives (93 U21). -/
theorem lostTo_receive_of_not_ready {p : Panel} (h : p.ready = false) (cfg : Config) (e : Event) :
    LostTo p (p.receive cfg e) := by
  simp only [Panel.receive, h, Bool.false_eq_true, if_false]
  cases e.mode <;> exact ⟨rfl, Nat.lt_succ_self _⟩

/-- No room past the window, and none where there is no window. -/
theorem hasRoom_eq_false {cfg : Config} {p : Panel} (h : p.ye.toNat < p.cursor.2 ∨ p.windowValid cfg = false) :
    p.hasRoom cfg = false := by
  rcases h with h | h
  · simp [Panel.hasRoom, h]
  · simp [Panel.hasRoom, h]

/-- Settles O54: each of these events is one in which the panel loses its state, or is not ready. -/
theorem panelIsUnspecifiedOutsideTheContract : Obligations.PanelIsUnspecifiedOutsideTheContract := by
  intro cfg p b
  have lost_of_data (hready : p.ready = true) (h : p.onData cfg b = p.lose) : LostTo p (p.receive cfg ⟨.data, b⟩) := by
    rw [receive_data hready, h]; exact lostTo_lose p
  refine ⟨fun hready hc hp hr => ?unknown, fun hready hmid => ?mid_frame, fun hready hf => ?no_frame,
    fun hready hcodes hf => ⟨fun b0 b1 b2 hps => ⟨fun hcmd hoff => ?columns, fun hcmd hoff => ?rows⟩,
      fun hcmd hps => ?fifth, fun hcmd hpast => ?pixel⟩, fun hready m => lostTo_receive_of_not_ready hready cfg _⟩
  case unknown =>
    obtain ⟨hreset, hdraw⟩ := settled_keeps cfg p
    rw [receive_command hready, onCommand_unknown hc hp hr]
    exact lostTo_lose_of hreset (settled_ready cfg p) hdraw
  case mid_frame =>
    have lost_ready : p.lose.ready = true := hready
    rw [receive_command hready, receive_command lost_ready, onCommand_midFrame hmid]
  case no_frame => exact lost_of_data hready (by simp [Panel.onData, hf])
  case columns => exact lost_of_data hready ((onData_caset hf hcmd b).trans (onAddressByte_off_panel hps hoff))
  case rows => exact lost_of_data hready ((onData_paset hcodes hf hcmd b).trans (onAddressByte_off_panel hps hoff))
  case fifth =>
    rcases hcmd with hcmd | hcmd
    · exact lost_of_data hready ((onData_caset hf hcmd b).trans (onAddressByte_fifth hps b))
    · exact lost_of_data hready ((onData_paset hcodes hf hcmd b).trans (onAddressByte_fifth hps b))
  case pixel =>
    exact lost_of_data hready ((onData_ramwr hcodes hf hcmd b).trans (onPixelByte_no_room (hasRoom_eq_false hpast) b))

end Sys2Proof.Machine

namespace Sys2Proof

open Laws.EncodeFixedBits (code)
open Machine (operandMask)

/-! ### What a descriptor decodes to -/

/-- The operation of `i` with the operands that the opcode map lists for it read from `d` (30_encoding R83). -/
def readOperands (d : Descriptor) : Instr → Instr
  | .reset => .reset
  | .init => .init
  | .plotPixel _ _ _ => .plotPixel (xField d) (yField d) (c0Field d)
  | .drawColourBitmap _ _ _ _ _ => .drawColourBitmap (xField d) (yField d) (wField d) (hField d) (ptrField d)
  | .drawMonoBitmap _ _ _ _ _ _ _ =>
    .drawMonoBitmap (xField d) (yField d) (wField d) (hField d) (ptrField d) (c0Field d) (c1Field d)
  | .fillRectangle _ _ _ _ _ => .fillRectangle (xField d) (yField d) (wField d) (hField d) (c0Field d)
  | .sendCommand _ => .sendCommand (argField d)
  | .sendDataByte _ => .sendDataByte (argField d)
  | .setWindow _ _ _ _ => .setWindow (xField d) (yField d) (wField d) (hField d)
  | .beginAsyncTransfer _ _ => .beginAsyncTransfer (ptrField d) (lenField d)
  | .awaitCompletion => .awaitCompletion

theorem selectOperation_code (d : Descriptor) (i : Instr) : selectOperation (code i) d = .ok (readOperands d i) := by
  cases i <;> rfl

/-- A code that selects an operation is that operation's code, and the operands are the descriptor's. -/
theorem selectOperation_eq_ok_iff {opc : Byte} {d : Descriptor} {i : Instr} :
    selectOperation opc d = .ok i ↔ opc = code i ∧ readOperands d i = i := by
  refine ⟨fun h => ?_, fun ⟨hopc, hread⟩ => by rw [hopc, selectOperation_code, hread]⟩
  unfold selectOperation at h
  split at h <;> cases h <;> exact ⟨BitVec.eq_of_toNat_eq ‹_›, rfl⟩

theorem pointerFits_iff {addrW : Nat} {p : Word} : pointerFits addrW p = true ↔ p.toNat < 2 ^ addrW :=
  decide_eq_true_iff

theorem pointerFits_zero (addrW : Nat) : pointerFits addrW 0 = true := pointerFits_iff.2 (Nat.two_pow_pos addrW)

/-- All that the decoder accepts (30_encoding R83, R84). -/
theorem decode_eq_ok_iff {addrW : Nat} {d : Descriptor} {i : Instr} :
    decode addrW d = .ok i ↔
      rsvField d = 0 ∧ (ptrField d).toNat < 2 ^ addrW ∧ opcField d = code i ∧ readOperands d i = i := by
  rw [← selectOperation_eq_ok_iff, ← pointerFits_iff]
  unfold decode
  split
  · simp_all
  · split <;> simp_all

/-! ### The encoder -/

theorem encode_fixed_bits (i : Instr) : opcField (encode i) = code i ∧ rsvField (encode i) = 0 := by
  cases i with
  | reset => exact Laws.EncodeFixedBits.reset
  | init => exact Laws.EncodeFixedBits.init
  | plotPixel x y c => exact Laws.EncodeFixedBits.plotPixel x y c
  | drawColourBitmap x y w h p => exact Laws.EncodeFixedBits.drawColourBitmap x y w h p
  | drawMonoBitmap x y w h p fg bg => exact Laws.EncodeFixedBits.drawMonoBitmap x y w h p fg bg
  | fillRectangle x y w h c => exact Laws.EncodeFixedBits.fillRectangle x y w h c
  | sendCommand c => exact Laws.EncodeFixedBits.sendCommand c
  | sendDataByte v => exact Laws.EncodeFixedBits.sendDataByte v
  | setWindow xs ys xe ye => exact Laws.EncodeFixedBits.setWindow xs ys xe ye
  | beginAsyncTransfer p len => exact Laws.EncodeFixedBits.beginAsyncTransfer p len
  | awaitCompletion => exact Laws.EncodeFixedBits.awaitCompletion

/-- The encoder puts every operand into the field it is read from. -/
theorem readOperands_encode (i : Instr) : readOperands (encode i) i = i := by
  cases i <;> simp [readOperands, encode]

/-- A well-formed operation's pointer, or the zero in its place, lies in the address space. -/
theorem pointerFits_encode {addrW : Nat} {i : Instr} (h : i.wf addrW = true) :
    pointerFits addrW (ptrField (encode i)) = true := by
  cases i with
  | drawColourBitmap | drawMonoBitmap | beginAsyncTransfer => simpa [encode, Instr.wf] using h
  | _ => simpa [encode] using pointerFits_zero addrW

/-- Settles O1: the encoder's descriptor meets each condition of the decoder. -/
theorem decodeOfEncode : Obligations.DecodeOfEncode := by
  intro addrW i hwf
  obtain ⟨hopc, hrsv⟩ := encode_fixed_bits i
  exact decode_eq_ok_iff.2 ⟨hrsv, pointerFits_iff.1 (pointerFits_encode hwf), hopc, readOperands_encode i⟩

/-! ### The bits the opcode map lists -/

theorem and_pack (opc opc' arg arg' : Byte) (x x' y y' w w' h h' : Half) (ptr ptr' top top' : Word) :
    pack opc arg x y w h ptr top &&& pack opc' arg' x' y' w' h' ptr' top' =
      pack (opc &&& opc') (arg &&& arg') (x &&& x') (y &&& y') (w &&& w') (h &&& h') (ptr &&& ptr') (top &&& top') := by
  refine BitVec.eq_of_getLsbD_eq fun i _ => ?_
  simp only [BitVec.getLsbD_and, getLsbD_pack]
  split_ifs <;> simp

theorem and_halves (a a' b b' : Half) : (a ++ b : Word) &&& (a' ++ b' : Word) = (a &&& a') ++ (b &&& b') :=
  BitVec.and_append

/-- The mask of an operation laid out field by field (30_encoding R82, R83). -/
def packedMask : Instr → Descriptor
  | .reset => pack (.allOnes 8) 0 0 0 0 0 0 0
  | .init => pack (.allOnes 8) 0 0 0 0 0 0 0
  | .plotPixel _ _ _ => pack (.allOnes 8) 0 (.allOnes 16) (.allOnes 16) 0 0 0 ((0 : Half) ++ BitVec.allOnes 16)
  | .drawColourBitmap _ _ _ _ _ =>
    pack (.allOnes 8) 0 (.allOnes 16) (.allOnes 16) (.allOnes 16) (.allOnes 16) (.allOnes 32) 0
  | .drawMonoBitmap _ _ _ _ _ _ _ =>
    pack (.allOnes 8) 0 (.allOnes 16) (.allOnes 16) (.allOnes 16) (.allOnes 16) (.allOnes 32)
      (BitVec.allOnes 16 ++ BitVec.allOnes 16)
  | .fillRectangle _ _ _ _ _ =>
    pack (.allOnes 8) 0 (.allOnes 16) (.allOnes 16) (.allOnes 16) (.allOnes 16) 0 ((0 : Half) ++ BitVec.allOnes 16)
  | .sendCommand _ => pack (.allOnes 8) (.allOnes 8) 0 0 0 0 0 0
  | .sendDataByte _ => pack (.allOnes 8) (.allOnes 8) 0 0 0 0 0 0
  | .setWindow _ _ _ _ => pack (.allOnes 8) 0 (.allOnes 16) (.allOnes 16) (.allOnes 16) (.allOnes 16) 0 0
  | .beginAsyncTransfer _ _ => pack (.allOnes 8) 0 0 0 0 0 (.allOnes 32) (.allOnes 32)
  | .awaitCompletion => pack (.allOnes 8) 0 0 0 0 0 0 0

theorem operandMask_eq_packedMask (i : Instr) : operandMask i = packedMask i := by
  cases i <;> rfl

theorem opcField_packedMask (i : Instr) : opcField (packedMask i) = .allOnes 8 := by
  cases i <;> exact opcField_pack ..

/-- The encoder writes no bit outside the mask. -/
theorem encode_and_operandMask (i : Instr) : encode i &&& operandMask i = encode i := by
  rw [operandMask_eq_packedMask]
  cases i <;>
    simp only [encode, packedMask, and_pack, and_halves, BitVec.and_allOnes, BitVec.and_self]

/-- Descriptors that agree in the bits of a mask agree in every field that lies in it. -/
theorem extractLsb'_congr_of_mask {d d' m : Descriptor} (h : d' &&& m = d &&& m) (lo n : Nat)
    (hm : m.extractLsb' lo n = .allOnes n) : d'.extractLsb' lo n = d.extractLsb' lo n := by
  have extracted := congrArg (BitVec.extractLsb' lo n) h
  rwa [BitVec.extractLsb'_and, BitVec.extractLsb'_and, hm, BitVec.and_allOnes, BitVec.and_allOnes] at extracted

/-- The operands are read from the bits of the mask alone. -/
theorem readOperands_congr {d d' : Descriptor} {i : Instr} (agree : d' &&& packedMask i = d &&& packedMask i) :
    readOperands d' i = readOperands d i := by
  have field := extractLsb'_congr_of_mask agree
  have arg : argField (packedMask i) = .allOnes 8 → argField d' = argField d := field 8 8
  have x : xField (packedMask i) = .allOnes 16 → xField d' = xField d := field 32 16
  have y : yField (packedMask i) = .allOnes 16 → yField d' = yField d := field 48 16
  have w : wField (packedMask i) = .allOnes 16 → wField d' = wField d := field 64 16
  have h : hField (packedMask i) = .allOnes 16 → hField d' = hField d := field 80 16
  have ptr : ptrField (packedMask i) = .allOnes 32 → ptrField d' = ptrField d := field 96 32
  have c0 : c0Field (packedMask i) = .allOnes 16 → c0Field d' = c0Field d := field 128 16
  have c1 : c1Field (packedMask i) = .allOnes 16 → c1Field d' = c1Field d := field 144 16
  have len : lenField (packedMask i) = .allOnes 32 → lenField d' = lenField d := field 128 32
  cases i with
  | reset | init | awaitCompletion => rfl
  | plotPixel =>
    simp only [readOperands, x (xField_pack ..), y (yField_pack ..), c0 ((c0Field_pack ..).trans (low_half ..))]
  | drawColourBitmap =>
    simp only [readOperands, x (xField_pack ..), y (yField_pack ..), w (wField_pack ..), h (hField_pack ..),
      ptr (ptrField_pack ..)]
  | drawMonoBitmap =>
    simp only [readOperands, x (xField_pack ..), y (yField_pack ..), w (wField_pack ..), h (hField_pack ..),
      ptr (ptrField_pack ..), c0 ((c0Field_pack ..).trans (low_half ..)), c1 ((c1Field_pack ..).trans (high_half ..))]
  | fillRectangle =>
    simp only [readOperands, x (xField_pack ..), y (yField_pack ..), w (wField_pack ..), h (hField_pack ..),
      c0 ((c0Field_pack ..).trans (low_half ..))]
  | sendCommand | sendDataByte => simp only [readOperands, arg (argField_pack ..)]
  | setWindow =>
    simp only [readOperands, x (xField_pack ..), y (yField_pack ..), w (wField_pack ..), h (hField_pack ..)]
  | beginAsyncTransfer => simp only [readOperands, ptr (ptrField_pack ..), len (lenField_pack ..)]

/-- Settles O2: what `decode` reads besides `RSV` and `PTR` lies in the mask, and the encoder writes nowhere else. -/
theorem unlistedFieldsAreIgnored : Obligations.UnlistedFieldsAreIgnored := by
  refine ⟨fun addrW d d' i hdec hrsv hptr hmask => ?_, fun i => ?_⟩
  · obtain ⟨-, -, hopc, hread⟩ := decode_eq_ok_iff.1 hdec
    rw [operandMask_eq_packedMask] at hmask
    have same_code : opcField d' = opcField d := extractLsb'_congr_of_mask hmask 0 8 (opcField_packedMask i)
    exact decode_eq_ok_iff.2 ⟨hrsv, hptr, same_code.trans hopc, (readOperands_congr hmask).trans hread⟩
  · rw [← encode_and_operandMask, BitVec.and_assoc, BitVec.and_not_self]
    exact BitVec.and_zero

/-! ### Illegal descriptors -/

/-- The assigned codes (30_encoding R83). -/
theorem code_assigned (i : Instr) : (code i).toNat ≤ 0x05 ∨ (0x10 ≤ (code i).toNat ∧ (code i).toNat ≤ 0x14) := by
  cases i <;> simp [code]

theorem selectOperation_assigned {opc : Byte} (d : Descriptor)
    (h : opc.toNat ≤ 0x05 ∨ (0x10 ≤ opc.toNat ∧ opc.toNat ≤ 0x14)) : ∃ i, selectOperation opc d = .ok i := by
  unfold selectOperation
  generalize opc.toNat = n at h ⊢
  rcases h with low | ⟨high, bound⟩
  · interval_cases n <;> exact ⟨_, rfl⟩
  · interval_cases n <;> exact ⟨_, rfl⟩

open Machine in
/-- A request that decodes to nothing is refused, on either turn of ENGINE (30_encoding R84). -/
theorem step_illegal {s : State} {d : Descriptor} {ds : List Descriptor} (hidle : s.seq = .idle) (hacts : EngineActs s)
    (hreq : s.requests = d :: ds) (hdec : ∀ i, decode s.cfg.addrW d ≠ .ok i) :
    step s = .refused .illegalDescriptor := by
  have idle : (withTurns s.turns.tail s).seq = .idle := hidle
  have refused (k : Instr → State → Out) : acceptNext (withTurns s.turns.tail s) k = .refused .illegalDescriptor := by
    unfold acceptNext nextRequest
    simp only [hreq]
    split
    · rfl
    · exact absurd ‹_› (hdec _)
  rcases hacts with hmoves | hmoves
  · rw [step_of_engineMoves hmoves, engineTurn_idle idle, refused]
  · rw [step_of_primitiveMoves hmoves, primitiveTurn_idle idle, refused]

/-- Settles O4: each of these fields fails a condition of `decode`, and a descriptor none of whose fields does, decodes
to the operation of its code. -/
theorem illegalDescriptorsAreRefused : Obligations.IllegalDescriptorsAreRefused := by
  refine ⟨fun s d ds hidle hacts hreq hbad => step_illegal hidle hacts hreq fun i hdec => ?_,
    fun addrW d hopc hrsv hptr => ?_⟩
  · obtain ⟨hrsv, hptr, hopc, -⟩ := decode_eq_ok_iff.1 hdec
    have assigned := hopc ▸ code_assigned i
    rcases hbad with hgap | hhigh | hreserved | hwide
    · omega
    · omega
    · exact hreserved hrsv
    · omega
  · obtain ⟨i, hsel⟩ := selectOperation_assigned d hopc
    obtain ⟨hcode, hread⟩ := selectOperation_eq_ok_iff.1 hsel
    exact ⟨i, decode_eq_ok_iff.2 ⟨hrsv, hptr, hcode, hread⟩⟩

/-- Settles O3, by evaluating the decoder on the eleven words. -/
theorem specDescriptorsDecode : Obligations.SpecDescriptorsDecode := by
  unfold Obligations.SpecDescriptorsDecode
  decide

end Sys2Proof

namespace Sys2Proof.Machine

/-! ### An operation in progress -/

/-- Each single action inside an operation keeps `I`: ENGINE's primitives, XFER's step, and what goes with them, which
is the phase, the turns, the count of retirements and the counters of the chunk loop. Unlike `ActionsKeep` it leaves out
acceptance, which takes a request and writes the latches. -/
structure ProgressKeeps (I : State → Prop) : Prop where
  perform : ∀ p s, I s → Leads I (perform p s)
  xferStep : ∀ s, I s → Leads I (xferStep s)
  book : ∀ s q ts r, I s → I { s with seq := q, turns := ts, retired := r }
  advanceChunk : ∀ op s, I s → I (advanceChunk op s)

section
variable {I : State → Prop} (h : ProgressKeeps I)
include h

theorem ProgressKeeps.place (todo : List Primitive) (e : Ending) {s : State} (hs : I s) : I (place todo e s) := by
  rw [place_frame]; exact h.book s _ _ _ hs

theorem ProgressKeeps.performAll (todo : List Primitive) {s : State} (hs : I s) : Leads I (performAll todo s) := by
  induction todo generalizing s with
  | nil => exact hs
  | cons p ps ih => exact ((h.perform p s hs).weaken fun _ hm => ih hm).andThen

theorem ProgressKeeps.xferTurns (ts : List Turn) {s : State} (hs : I s) : Leads I (xferTurns ts s) :=
  xferTurns_meets (fun s ts hs _ => h.xferStep _ (h.book s _ ts _ hs)) ts s hs

theorem ProgressKeeps.stream (op : Stream) {s : State} (hs : I s) : Leads I (stream op s) := by
  refine streamLoop_meets op (fun s hs _ => ?_) (fun s hs => h.place [] .retire hs) s.rem s hs
  refine ((h.performAll _ hs).weaken fun m hm => (h.xferTurns _ hm).weaken fun t ht => ?_).andThen
  split
  · exact h.advanceChunk op t ht
  · exact h.place [] (.awaitChunk op) ht

theorem ProgressKeeps.run (todo : List Primitive) (e : Ending) {s : State} (hs : I s) : Leads I (run todo e s) := by
  refine ((h.performAll todo hs).weaken fun m hm => ?_).andThen
  cases e with
  | retire => exact h.place [] .retire hm
  | loop op => exact h.stream op hm
  | awaitDirect =>
    refine ((h.xferTurns m.turns hm).weaken fun t ht => ?_).andThen
    split
    · exact h.place [] .retire ht
    · exact h.place [] .awaitDirect ht
  | awaitChunk op =>
    refine ((h.xferTurns m.turns hm).weaken fun t ht => ?_).andThen
    split
    · exact h.stream op (h.advanceChunk op t ht)
    · exact h.place [] (.awaitChunk op) ht

theorem ProgressKeeps.resume (pos : Position) {s : State} (hs : I s) : Leads I (resume pos s) := by
  cases pos with
  | line todo e => exact h.run todo e hs
  | awaitDirect =>
    simp only [Machine.resume]
    split
    · exact h.place [] .retire hs
    · exact hs
  | awaitChunk op =>
    simp only [Machine.resume]
    split
    · exact h.stream op (h.advanceChunk op s hs)
    · exact hs

theorem ProgressKeeps.advance (pos : Position) {s : State} (hs : I s) : Leads I (advance pos s) := by
  cases pos with
  | line todo e =>
    cases todo with
    | nil => exact h.place [] e hs
    | cons p ps => exact Meets.andThen ((h.perform p s hs).weaken fun m hm => h.place ps e hm)
  | awaitDirect =>
    simp only [Machine.advance]
    split
    · exact h.place [] .retire hs
    · exact hs
  | awaitChunk op =>
    simp only [Machine.advance]
    split
    · exact h.place [] (.loop op) (h.advanceChunk op s hs)
    · exact hs

end

/-! ### The latches at acceptance -/

/-- The latches with the operands of an operation in theirs (30_encoding R86). -/
def loadOperands (i : Instr) (o : Latches) : Latches :=
  match i with
  | .reset => o
  | .init => o
  | .plotPixel x y c => { o with x := x, y := y, c0 := c }
  | .drawColourBitmap x y w h p => { o with x := x, y := y, w := w, h := h, ptr := p }
  | .drawMonoBitmap x y w h p fg bg => { o with x := x, y := y, w := w, h := h, ptr := p, c0 := fg, c1 := bg }
  | .fillRectangle x y w h c => { o with x := x, y := y, w := w, h := h, c0 := c }
  | .sendCommand b => { o with arg := b }
  | .sendDataByte b => { o with arg := b }
  | .setWindow xs ys xe ye => { o with x := xs, y := ys, w := xe, h := ye }
  | .beginAsyncTransfer p len => { o with ptr := p, len := len }
  | .awaitCompletion => o

/-- Latches loaded from a descriptor already hold the operands it decodes to. -/
theorem loadOperands_latchesOf {d : Descriptor} {i : Instr} (h : readOperands d i = i) :
    loadOperands i (latchesOf d) = latchesOf d := by
  rw [← h]; cases i <;> rfl

/-- An operation that is accepted is handed on with its operands latched. -/
theorem acceptInstr_leads {P : State → Prop} {k : Begin} {i : Instr} {s : State}
    (hk : ∀ todo e, Leads P (k todo e (accept (loadOperands i) s))) : Leads P (acceptInstr i s k) := by
  have idle {f : State → Out} (hf : Leads P (f s)) : Leads P (whenIdle s f) := whenIdle_meets (fun _ => hf) trivial
  have free {f : State → Out} (hf : Leads P (f (accept (loadOperands i) s))) :
      Leads P (onFreeBus (accept (loadOperands i) s) f) := onFreeBus_meets (fun _ => hf) fun _ => trivial
  cases i with
  | reset | init =>
    simp only [acceptInstr, acceptReset, acceptInit]
    refine idle ?_
    split
    · trivial
    · exact free (hk _ _)
  | plotPixel =>
    simp only [acceptInstr, acceptPlotPixel]
    refine idle ?_
    split
    · exact free (hk _ _)
    · exact hk _ _
  | drawColourBitmap | drawMonoBitmap =>
    simp only [acceptInstr, acceptDrawColourBitmap, acceptDrawMonoBitmap]
    exact idle (requireRectangle_meets (fun _ => requireRange_meets (fun _ => free (hk _ _)) trivial) trivial)
  | fillRectangle =>
    simp only [acceptInstr, acceptFillRectangle]
    exact idle (requireRectangle_meets (fun _ => free (hk _ _)) trivial)
  | sendCommand | sendDataByte | setWindow =>
    simp only [acceptInstr, acceptSendCommand, acceptSendDataByte, acceptSetWindow]
    exact idle (free (hk _ _))
  | beginAsyncTransfer =>
    simp only [acceptInstr, acceptBeginAsyncTransfer]
    refine idle ?_
    split
    · trivial
    · exact requireRange_meets (fun _ => whenDone_meets (fun _ => hk _ _) fun _ => trivial) trivial
  | awaitCompletion =>
    simp only [acceptInstr, acceptAwaitCompletion]
    exact idle (hk _ _)

/-- The latches and the requests. -/
def Latched (o : Latches) (ds : List Descriptor) (t : State) : Prop := t.ops = o ∧ t.requests = ds

theorem progressKeeps_latched (o : Latches) (ds : List Descriptor) : ProgressKeeps (Latched o ds) where
  perform p _ hs := perform_leads (fun _ => hs) (fun _ _ _ => hs) (fun _ _ => hs) (fun _ _ _ _ _ _ _ => hs) p
  xferStep _ hs := xferStep_meets (fun _ => hs) (fun _ _ _ _ _ _ _ => hs) (fun _ _ _ => hs) (fun _ _ _ _ _ => trivial)
    trivial fun _ _ _ _ _ _ => trivial
  book _ _ _ _ hs := hs
  advanceChunk op s hs := ⟨(advanceChunk_ops op s).trans hs.1, (advanceChunk_requests op s).trans hs.2⟩

/-- What an accepted operation is handed on to leaves the latches and the requests alone. -/
def KeepsLatches (k : Begin) : Prop := ∀ o ds todo e s, Latched o ds s → Leads (Latched o ds) (k todo e s)

theorem keepsLatches_run : KeepsLatches run := fun o ds todo e _ hs => (progressKeeps_latched o ds).run todo e hs

theorem keepsLatches_begun : KeepsLatches begun := fun o ds todo e _ hs => (progressKeeps_latched o ds).place todo e hs

/-- The acceptance of the request `d` latches its fields (30_encoding R86). -/
theorem acceptNext_latches {k : Begin} (hk : KeepsLatches k) {s : State} {d : Descriptor} {ds : List Descriptor}
    (hreq : s.requests = d :: ds) : Leads (Latched (latchesOf d) ds) (acceptNext s fun i s => acceptInstr i s k) := by
  rcases hdec : decode s.cfg.addrW d with _ | i
  · simp only [acceptNext, nextRequest, hreq, hdec]; trivial
  · obtain ⟨-, -, -, hread⟩ := decode_eq_ok_iff.1 hdec
    rw [acceptNext_of_decode hreq hdec]
    exact acceptInstr_leads fun todo e => hk _ _ todo e _ ⟨loadOperands_latchesOf hread, rfl⟩

/-- From `s` to `t` the latches change only where a request is taken (10_state R21). -/
def LatchesFollow (s t : State) : Prop := t.requests = s.requests → t.ops = s.ops

theorem latchesFollow_of_idle {k : Begin} (hk : KeepsLatches k) (s : State) :
    Leads (LatchesFollow s) (acceptNext s fun i s => acceptInstr i s k) := by
  rcases hreq : s.requests with _ | ⟨d, ds⟩
  · rw [acceptNext, nextRequest, hreq]
    exact fun _ => rfl
  · refine (acceptNext_latches hk hreq).weaken fun t ht same => ?_
    rw [ht.2, hreq] at same
    exact absurd same.symm (List.cons_ne_self d ds)

theorem engineTurn_accepts {s : State} (hidle : s.seq = .idle) :
    engineTurn s = acceptNext s fun i s => acceptInstr i s run := by
  rw [engineTurn_idle hidle, ← funext₂ exec_eq_run]

theorem latchesFollow_of_busy {s : State} {o : Out} (h : Leads (Latched s.ops s.requests) o) :
    Leads (LatchesFollow s) o := h.weaken fun _ ht _ => ht.1

theorem step_latchesFollow (s : State) : Leads (LatchesFollow s) (step s) := by
  have keeps := progressKeeps_latched s.ops s.requests
  have same : Latched s.ops s.requests s := ⟨rfl, rfl⟩
  refine step_meets (fun ts => ?primitive) (fun ts => ?engine)
    (fun ts => latchesFollow_of_busy (keeps.xferStep _ same)) fun a b ts => hostWrite_meets (fun _ => rfl) trivial trivial
  case primitive =>
    rcases hq : s.seq with _ | pos
    · rw [primitiveTurn_idle (s := withTurns ts s) hq]
      exact latchesFollow_of_idle keepsLatches_begun (withTurns ts s)
    · rw [primitiveTurn_busy (s := withTurns ts s) hq]
      exact latchesFollow_of_busy (keeps.advance pos same)
  case engine =>
    rcases hq : s.seq with _ | pos
    · rw [engineTurn_accepts (s := withTurns ts s) hq]
      exact latchesFollow_of_idle keepsLatches_run (withTurns ts s)
    · rw [engineTurn_busy (s := withTurns ts s) hq]
      exact latchesFollow_of_busy (keeps.resume pos same)

/-- The step that accepts `d`, on either turn of ENGINE. -/
theorem step_latches {s : State} {d : Descriptor} {ds : List Descriptor} (hidle : s.seq = .idle)
    (hacts : EngineActs s) (hreq : s.requests = d :: ds) : Leads (Latched (latchesOf d) ds) (step s) := by
  have idle : (withTurns s.turns.tail s).seq = .idle := hidle
  have pending : (withTurns s.turns.tail s).requests = d :: ds := hreq
  rcases hacts with hmoves | hmoves
  · rw [step_of_engineMoves hmoves, engineTurn_accepts idle]
    exact acceptNext_latches keepsLatches_run pending
  · rw [step_of_primitiveMoves hmoves, primitiveTurn_idle idle]
    exact acceptNext_latches keepsLatches_begun pending

/-- Settles O6: acceptance latches what it decodes, nothing after it writes a latch, and a step that takes no request
accepts none. -/
theorem acceptanceLatchesOperands : Obligations.AcceptanceLatchesOperands := by
  refine ⟨fun s t d ds hidle hacts hreq hstep => ?_, fun s t hstep => (step_latchesFollow s).of_next hstep⟩
  obtain ⟨hops, -⟩ := (step_latches hidle hacts hreq).of_next hstep
  rw [hops]
  exact ⟨rfl, rfl, rfl, rfl, rfl, rfl, rfl, rfl, rfl⟩

end Sys2Proof.Machine

namespace Sys2Proof.Machine

/-! ### The chunks of a stream -/

/-- The chunks hold the total. -/
theorem le_chunkCount_mul {nb : Nat} (hnb : 1 ≤ nb) (total : Nat) : total ≤ chunkCount nb total * nb := by
  have hmod := Nat.mod_lt (total + nb - 1) hnb
  have hdiv := Nat.div_add_mod' (total + nb - 1) nb
  unfold chunkCount
  omega

/-- One chunk fewer does not. -/
theorem chunkCount_pred_mul_lt {nb total : Nat} (htotal : 1 ≤ total) : (chunkCount nb total - 1) * nb < total := by
  have hmul := Nat.div_mul_le_self (total + nb - 1) nb
  rw [Nat.sub_one_mul]
  unfold chunkCount
  omega

/-- What comes before a chunk is less than the total. -/
theorem mul_lt_of_lt_chunkCount {nb total j : Nat} (htotal : 1 ≤ total) (hj : j < chunkCount nb total) :
    j * nb < total :=
  calc j * nb ≤ (chunkCount nb total - 1) * nb := Nat.mul_le_mul_right _ (by omega)
    _ < total := chunkCount_pred_mul_lt htotal

theorem chunkLength_full {nb total j : Nat} (htotal : 1 ≤ total) (hj : j < chunkCount nb total - 1) :
    chunkLength nb total j = nb := by
  have next : (j + 1) * nb < total := mul_lt_of_lt_chunkCount htotal (by omega)
  rw [Nat.succ_mul] at next
  exact Nat.min_eq_left (by omega)

/-- The chunk of a stream of whole pixels, of two bytes each, holds whole pixels. -/
theorem chunkLength_pixels (n pixels j : Nat) : chunkLength (2 * n) (2 * pixels) j = 2 * min n (pixels - j * n) := by
  have offset : j * (2 * n) = 2 * (j * n) := Nat.mul_left_comm j 2 n
  unfold chunkLength
  omega

theorem sum_chunkLength {nb : Nat} (hnb : 1 ≤ nb) (total : Nat) :
    ((List.range (chunkCount nb total)).map (chunkLength nb total)).sum = total := by
  induction total using Nat.strong_induction_on with
  | _ total ih =>
    rcases Nat.eq_zero_or_pos total with rfl | htotal
    · simp [chunkCount_zero hnb]
    · have rest : chunkLength nb total ∘ Nat.succ = chunkLength nb (total - nb) := funext (chunkLength_succ nb total)
      have first : chunkLength nb total 0 = min nb total := by simp [chunkLength]
      rw [chunkCount_step hnb htotal, List.range_succ_eq_map, List.map_cons, List.map_map, List.sum_cons, rest, first,
        ih (total - nb) (by omega)]
      omega

/-- Settles O35: the count is the least that holds the total; the lengths are those of whole pixels. -/
theorem chunksCoverTheTotal : Obligations.ChunksCoverTheTotal := by
  intro n pixels hn hpixels nb total
  have hnb : 1 ≤ nb := by omega
  have htotal : 1 ≤ total := by omega
  refine ⟨le_chunkCount_mul hnb total, chunkCount_pred_mul_lt htotal, fun j hj => chunkLength_full htotal hj,
    fun j hj => ?_, sum_chunkLength hnb total⟩
  have before : j * nb < total := mul_lt_of_lt_chunkCount htotal hj
  have offset : j * nb = 2 * (j * n) := Nat.mul_left_comm j 2 n
  rw [chunkLength_pixels n pixels j]
  omega

/-! ### The two bytes of a Colour -/

theorem hi8_joinBytes (a b : Byte) : hi8 (joinBytes a b) = a := by
  unfold hi8 joinBytes
  exact BitVec.extractLsb'_append_eq_left

theorem lo8_joinBytes (a b : Byte) : lo8 (joinBytes a b) = b := BitVec.extractLsb'_append_eq_right

/-- Settles O36: swapping joins the two bytes the other way round. -/
theorem colourRoundTrip : Obligations.ColourRoundTrip := by
  intro c
  have swapped (v : Half) : bswap16 v = joinBytes (lo8 v) (hi8 v) := rfl
  refine ⟨rfl, joinBytes_hi8_lo8 c, ?_⟩
  rw [swapped (bswap16 c), swapped c, hi8_joinBytes, lo8_joinBytes, joinBytes_hi8_lo8]

/-! ### The whole mono blit -/

/-- The operands of a mono blit in their latches (30_encoding R86). -/
def loadMono (x y w h : Half) (p : Word) (fg bg : Half) (o : Latches) : Latches :=
  { o with x := x, y := y, w := w, h := h, ptr := p, c0 := fg, c1 := bg }

/-- The state of a mono blit before its chunk loop: operands latched, its window open, its counters set (45 R167). -/
def monoOpened (x y w h : Half) (p : Word) (fg bg : Half) (s : State) : State :=
  { openWindow x y w h (accept (loadMono x y w h p fg bg) s) with
    cursor := ⟨p.toNat, 0x80, 0⟩
    rem := totalPixels w h }

/-- A mono blit on a free bus is its chunk loop (45 R167). -/
theorem execDrawMonoBitmap_of_ready {s : State} {x y w h : Half} {p : Word} (fg bg : Half) (hready : Ready s)
    (hrect : rectangleFits x y w h = true) (hrange : p.toNat + monoBytes w h ≤ 2 ^ s.cfg.addrW) :
    exec (.drawMonoBitmap x y w h p fg bg) s = stream .mono (monoOpened x y w h p fg bg s) := by
  obtain ⟨hidle, hfree, -⟩ := hready
  have fits : rangeFits s.cfg p (monoBytes w h) = true := decide_eq_true hrange
  have free : (accept (loadMono x y w h p fg bg) s).xfer = none := hfree
  rw [exec, execDrawMonoBitmap_eq, whenIdle, hidle]
  simp only [requireRectangle, hrect, requireRange, fits, if_true]
  rw [onFreeBus_free (by exact free), monoOpened]
  rfl

section
variable (x y w h : Half) (p : Word) (fg bg : Half) (s : State)

@[simp] theorem monoOpened_ops : (monoOpened x y w h p fg bg s).ops = loadMono x y w h p fg bg s.ops := by
  simp [monoOpened]
@[simp] theorem monoOpened_done : (monoOpened x y w h p fg bg s).done = s.done := by simp [monoOpened]
@[simp] theorem monoOpened_dc : (monoOpened x y w h p fg bg s).dc = .data := by simp [monoOpened]
@[simp] theorem monoOpened_xfer : (monoOpened x y w h p fg bg s).xfer = s.xfer := by simp [monoOpened]
@[simp] theorem monoOpened_stg : (monoOpened x y w h p fg bg s).stg = s.stg.map Slot.unwritten := by
  simp [monoOpened]
@[simp] theorem monoOpened_cursor : (monoOpened x y w h p fg bg s).cursor = ⟨p.toNat, 0x80, 0⟩ := rfl
@[simp] theorem monoOpened_rem : (monoOpened x y w h p fg bg s).rem = totalPixels w h := rfl
@[simp] theorem monoOpened_mem : (monoOpened x y w h p fg bg s).mem = s.mem := by simp [monoOpened]
@[simp] theorem monoOpened_cfg : (monoOpened x y w h p fg bg s).cfg = s.cfg := by simp [monoOpened]
@[simp] theorem monoOpened_turns : (monoOpened x y w h p fg bg s).turns = s.turns := by simp [monoOpened]

end

/-- With XFER's turns the whole mono blit goes out as the closed form says (45 R167, R173). -/
theorem exists_execDrawMonoBitmap {s : State} {x y w h : Half} {p : Word} {fg bg : Half} {img : List Byte}
    {rest : List Turn} (hwf : s.cfg.wf = true) (hready : Ready s) (hsized : StagingSized s)
    (hrect : rectangleFits x y w h = true) (hlen : img.length = monoBytes w h)
    (hrange : p.toNat + img.length ≤ 2 ^ s.cfg.addrW) (himg : Holds s.mem p.toNat img)
    (hturns : XferTakes (streamTurns s.cfg.nb (totalBytes w h)) rest s) :
    ∃ stg cnt, exec (.drawMonoBitmap x y w h p fg bg) s =
      .next (retire (monoSent p.toNat img 0 (totalPixels w h) rest stg cnt (monoOpened x y w h p fg bg s))) := by
  rw [execDrawMonoBitmap_of_ready fg bg hready hrect (hlen ▸ hrange)]
  obtain ⟨-, hfree, hdone⟩ := hready
  have bytes : totalBytes w h = 2 * totalPixels w h := Nat.mul_comm _ 2
  have width : (loadMono x y w h p fg bg s.ops).w = w := rfl
  refine streamLoop_mono _ p.toNat 0 (totalPixels w h) img h rest _ ?capacity (monoOpened_rem ..)
    (Nat.le_of_eq (monoOpened_rem ..).symm) ?done ?xfer (monoOpened_dc ..) ?sized ?width ?cursor ?pixels ?length ?range
    ?image ?turns
  case capacity => rw [monoOpened_cfg]; exact one_le_n_of_wf hwf
  case done => rw [monoOpened_done]; exact hdone
  case xfer => rw [monoOpened_xfer]; exact hfree
  case sized => rw [monoOpened_stg, monoOpened_cfg, List.length_map]; exact hsized
  case width => rw [monoOpened_ops, width]; exact rectangleFits_width hrect
  case cursor => rw [monoOpened_cursor, cursorAt_zero]
  case pixels => rw [monoOpened_ops, width, Nat.zero_add]
  case length => rw [monoOpened_ops, width]; exact hlen
  case range => rw [monoOpened_cfg]; exact hrange
  case image => rw [monoOpened_mem]; exact himg
  case turns => rw [monoOpened_turns, monoOpened_cfg, ← bytes]; exact hturns

/-- The window of a mono blit whose transmits all complete (42 R120). -/
theorem monoOpened_sends (x y w h : Half) (p : Word) (fg bg : Half) {s : State} (hok : NoSyncTimeout 11 s) :
    (monoOpened x y w h p fg bg s).wire = s.wire ++ windowEvents s.cfg x y (endCoord x w) (endCoord y h) ∧
    (monoOpened x y w h p fg bg s).panel =
      (windowEvents s.cfg x y (endCoord x w) (endCoord y h)).foldl (Panel.receive s.cfg) s.panel := by
  have window := setWindow_ok x y (endCoord x w) (endCoord y h) (accept (loadMono x y w h p fg bg) s) hok
  exact ⟨congrArg State.wire window, congrArg State.panel window⟩

/-- What a mono blit puts on the wire: its window, and the colours of its pixels (45 R167, R173). -/
def monoEvents (cfg : Config) (x y w h fg bg : Half) (img : List Byte) : List Event :=
  windowEvents cfg x y (endCoord x w) (endCoord y h) ++ pixelEvents (monoColours w fg bg img 0 (totalPixels w h))

/-- The wire and the panel after a mono blit. -/
theorem sent_monoOpened (x y w h : Half) (p : Word) (fg bg : Half) (img : List Byte) (rest : List Turn)
    (stg : List Slot) (cnt : Nat) {s : State} (hok : NoSyncTimeout 11 s) :
    let t := retire (monoSent p.toNat img 0 (totalPixels w h) rest stg cnt (monoOpened x y w h p fg bg s))
    t.wire = s.wire ++ monoEvents s.cfg x y w h fg bg img ∧
    t.panel = (monoEvents s.cfg x y w h fg bg img).foldl (Panel.receive s.cfg) s.panel := by
  obtain ⟨wire, panel⟩ := monoOpened_sends x y w h p fg bg hok
  simp only [monoSent, retire_wire, retire_panel, monoOpened_ops, monoOpened_cfg, wire, panel, monoEvents, loadMono,
    List.append_assoc, List.foldl_append, and_self]

/-! ### Padding bits -/

/-- The colour of a pixel comes from the one bit of the bitmap that is this pixel (30_encoding R94, 45 R173). -/
theorem monoColour_congr {w h : Half} {img img' : List Byte} (fg bg : Half) (same : SamePixels w h img img') {k : Nat}
    (hk : k < totalPixels w h) : monoColour w fg bg img k = monoColour w fg bg img' k := by
  unfold totalPixels at hk
  have width : 0 < w.toNat := Nat.pos_of_mul_pos_right (Nat.zero_lt_of_lt hk)
  have row : k / w.toNat < h.toNat := Nat.div_lt_of_lt_mul hk
  exact congrArg (pickColour fg bg) (same _ _ row (Nat.mod_lt k width))

theorem monoEvents_congr (cfg : Config) (x y : Half) {w h : Half} (fg bg : Half) {img img' : List Byte}
    (same : SamePixels w h img img') : monoEvents cfg x y w h fg bg img' = monoEvents cfg x y w h fg bg img := by
  have colours : monoColours w fg bg img' 0 (totalPixels w h) = monoColours w fg bg img 0 (totalPixels w h) :=
    List.map_congr_left fun k hk => (monoColour_congr fg bg same (by simpa using hk)).symm
  rw [monoEvents, colours, monoEvents]

/-- Settles O32: both runs send the colours of the pixels, and no colour comes from a padding bit. -/
theorem paddingBitsAreNeverSeen : Obligations.PaddingBitsAreNeverSeen := by
  intro s m' x y w h p fg bg img img' rest hwf hready hsized hrect hlen hlen' hrange himg himg' same hok hturns
  have hrange' : p.toNat + img'.length ≤ 2 ^ s.cfg.addrW := hlen'.trans hlen.symm ▸ hrange
  obtain ⟨stg, cnt, run⟩ := exists_execDrawMonoBitmap (fg := fg) (bg := bg) hwf hready hsized hrect hlen hrange himg
    hturns
  obtain ⟨stg', cnt', run'⟩ := exists_execDrawMonoBitmap (s := { s with mem := m' }) (fg := fg) (bg := bg) hwf hready
    hsized hrect hlen' hrange' himg' hturns
  obtain ⟨wire, panel⟩ := sent_monoOpened x y w h p fg bg img rest stg cnt hok
  obtain ⟨wire', panel'⟩ := sent_monoOpened x y w h p fg bg img' rest stg' cnt' (s := { s with mem := m' }) hok
  rw [monoEvents_congr _ _ _ _ _ same] at wire' panel'
  exact ⟨_, _, run, run', wire'.trans wire.symm, panel'.trans panel.symm⟩

end Sys2Proof.Machine

namespace Sys2Proof.Machine

/-! ### Acceptance on a free and on a busy bus -/

theorem whenIdle_idle {s : State} (hidle : s.seq = .idle) (k : State → Out) : whenIdle s k = k s := by
  rw [whenIdle, hidle]

section
variable {s : State} (load : Latches → Latches) (k : State → Out)

/-- On a free bus an idle engine goes on with its operands latched. -/
theorem accepted_of_free (hidle : s.seq = .idle) (hfree : s.xfer = none) :
    (whenIdle s fun s => onFreeBus (accept load s) k) = k (accept load s) := by
  rw [whenIdle_idle hidle, onFreeBus_free (by exact hfree)]

/-- With a transfer in flight a bus-using request is the conflict (41 R115). -/
theorem accepted_of_inFlight {f : InFlight} (hidle : s.seq = .idle) (hbusy : s.xfer = some f) :
    (whenIdle s fun s => onFreeBus (accept load s) k) = .fault .busConflict := by
  rw [whenIdle_idle hidle, onFreeBus_busy (by exact hbusy)]

end

/-- Settles O12: each of the four tests the bus once its operands are latched. -/
theorem synchronousTransmitInFlightIsBusConflict : Obligations.SynchronousTransmitInFlightIsBusConflict := by
  intro s f hidle hbusy
  refine ⟨fun code => ?_, fun value => ?_, fun xs ys xe ye => ?_, fun x y c hx hy => ?_⟩
  · exact (execSendCommand_eq code s).trans (accepted_of_inFlight _ _ hidle hbusy)
  · exact (execSendDataByte_eq value s).trans (accepted_of_inFlight _ _ hidle hbusy)
  · exact (execSetWindow_eq xs ys xe ye s).trans (accepted_of_inFlight _ _ hidle hbusy)
  · refine (execPlotPixel_eq x y c s).trans ((whenIdle_idle hidle _).trans ((if_pos ⟨hx, hy⟩).trans ?_))
    exact onFreeBus_busy (by exact hbusy) _

/-! ### The operations that only transmit, on a free bus -/

section
variable {s : State} (hidle : s.seq = .idle) (hfree : s.xfer = none)
include hidle hfree

theorem exec_sendCommand_of_free (code : Byte) :
    exec (.sendCommand code) s =
      .next (retire (sendEvents [⟨.command, code⟩] (accept (loadOperands (.sendCommand code)) s))) :=
  (execSendCommand_eq code s).trans (accepted_of_free _ _ hidle hfree)

theorem exec_sendDataByte_of_free (value : Byte) :
    exec (.sendDataByte value) s =
      .next (retire (sendEvents [⟨.data, value⟩] (accept (loadOperands (.sendDataByte value)) s))) :=
  (execSendDataByte_eq value s).trans (accepted_of_free _ _ hidle hfree)

theorem exec_setWindow_of_free (xs ys xe ye : Half) :
    exec (.setWindow xs ys xe ye) s =
      .next (retire (setWindow xs ys xe ye (accept (loadOperands (.setWindow xs ys xe ye)) s))) :=
  (execSetWindow_eq xs ys xe ye s).trans (accepted_of_free _ _ hidle hfree)

theorem exec_plotPixel_of_free {x y : Half} (hx : x.toNat < s.cfg.panelWidth) (hy : y.toNat < s.cfg.panelHeight)
    (c : Half) :
    exec (.plotPixel x y c) s = .next (retire (syncTx [hi8 c, lo8 c]
      (setWindow x y x y (accept (loadOperands (.plotPixel x y c)) s)))) := by
  refine (execPlotPixel_eq x y c s).trans ((whenIdle_idle hidle _).trans ((if_pos ⟨hx, hy⟩).trans ?_))
  exact onFreeBus_free (by exact hfree) _

theorem exec_init_of_free {table : List InitEntry} (htable : s.cfg.initSeq = some table) :
    let t := sendEvents (tableEvents table) (accept (loadOperands .init) s)
    exec .init s = .next (retire { t with panel := t.panel.afterInit (!t.syncTimeout) }) := by
  refine (execInit_eq s).trans ((whenIdle_idle hidle _).trans ?_)
  simp only [htable]
  exact onFreeBus_free (by exact hfree) _

end

/-- The state after an operation that sent one byte, which the bus completed. -/
theorem retire_sendEvents_ok {s : State} (load : Latches → Latches) (e : Event) (hidle : s.seq = .idle)
    (hok : NoSyncTimeout 1 s) :
    retire (sendEvents [e] (accept load s)) = { s with
      ops := load s.ops
      stg := s.stg.map Slot.unwritten
      dc := e.mode
      wire := s.wire ++ [e]
      panel := s.panel.receive s.cfg e
      draws := s.draws + 1
      retired := s.retired + 1 } := by
  rw [sendEvents_ok [e] (accept load s) (by exact hok), retire, ← hidle]
  rfl

/-- Settles O7: the one byte of the operation is sent in its mode. -/
theorem sendCommandResult : Obligations.SendCommandResult := fun _ code hidle hfree hok =>
  (exec_sendCommand_of_free hidle hfree code).trans (congrArg _ (retire_sendEvents_ok _ _ hidle hok))

/-- Settles O8: the one byte of the operation is sent in its mode. -/
theorem sendDataByteResult : Obligations.SendDataByteResult := fun _ value hidle hfree hok =>
  (exec_sendDataByte_of_free hidle hfree value).trans (congrArg _ (retire_sendEvents_ok _ _ hidle hok))

/-! ### Synchronous transmits whatever the bus answers -/

/-- Whether one of the next `k` synchronous transmits times out (41 R114). -/
def anyTimeout (k : Nat) (s : State) : Bool := (List.range k).any fun j => timedOut (syncAnswer s (s.draws + j))

theorem anyTimeout_succ (k : Nat) (s : State) :
    anyTimeout (k + 1) s = (anyTimeout k s || timedOut (syncAnswer s (s.draws + k))) := by
  simp [anyTimeout, List.range_succ]

/-- What `k` synchronous transmits leave (41 R112, R114): `DC` at `m`, `es` added to the wire, the draws counted, the
mark set if one of them timed out; no transfer begun, no operation retired, no turn used. -/
structure Transmitted (s : State) (m : Mode) (k : Nat) (es : List Event) (t : State) : Prop where
  dc        : t.dc = m
  draws     : t.draws = s.draws + k
  wire      : t.wire = s.wire ++ es
  mark      : t.syncTimeout = (s.syncTimeout || anyTimeout k s)
  sync      : t.sync = s.sync
  done      : t.done = s.done
  xfer      : t.xfer = s.xfer
  transfers : t.transfers = s.transfers
  retired   : t.retired = s.retired
  turns     : t.turns = s.turns

section
variable {s t : State} {m : Mode} {k : Nat} {es : List Event}

/-- Events sent after an acceptance, which leaves the wire alone. -/
theorem transmitted_sendEvents (load : Latches → Latches) (es : List Event) (s : State) :
    Transmitted s (lastMode s.dc es) es.length (arrived s es) (sendEvents es (accept load s)) := by
  rw [sendEvents_eq]
  constructor <;> rfl

/-- A window sent after an acceptance. -/
theorem transmitted_setWindow (load : Latches → Latches) (xs ys xe ye : Half) (s : State) :
    Transmitted s .data 11 (arrived s (windowEvents s.cfg xs ys xe ye)) (setWindow xs ys xe ye (accept load s)) := by
  rw [setWindow_eq]
  constructor <;> rfl

/-- The window of a rectangle (30_encoding R100). -/
theorem transmitted_openWindow (load : Latches → Latches) (x y w h : Half) (s : State) :
    Transmitted s .data 11 (arrived s (windowEvents s.cfg x y (endCoord x w) (endCoord y h)))
      (openWindow x y w h (accept load s)) :=
  transmitted_setWindow load x y (endCoord x w) (endCoord y h) s

/-- One transmit more, in the mode `DC` holds. -/
theorem Transmitted.syncTx (h : Transmitted s m k es t) (bs : List Byte) :
    Transmitted s m (k + 1) (es ++ tagged m (sentPrefix (syncAnswer s (s.draws + k)) bs)) (syncTx bs t) where
  dc := h.dc
  draws := by rw [syncTx_draws, h.draws, Nat.add_assoc]
  wire := by rw [syncTx_wire, h.wire, h.dc, h.draws, syncAnswer_congr h.sync, List.append_assoc]
  mark := by rw [syncTx_syncTimeout, h.mark, h.draws, syncAnswer_congr h.sync, anyTimeout_succ, Bool.or_assoc]
  sync := h.sync
  done := h.done
  xfer := h.xfer
  transfers := h.transfers
  retired := h.retired
  turns := h.turns

/-- What was transmitted does not depend on the panel. -/
theorem Transmitted.withPanel (h : Transmitted s m k es t) (p : Panel) : Transmitted s m k es { t with panel := p } :=
  { h with }

/-- The operation that only transmits answers `o` (41 R112, R114): it retires after `k` transmits, with `DC` at `m` and
`es` added to the wire. -/
def CompletesWith (s : State) (o : Out) (m : Mode) (k : Nat) (es : List Event) : Prop :=
  ∃ t, o = .next t ∧ t.seq = .idle ∧ t.retired = s.retired + 1 ∧ t.dc = m ∧ t.draws = s.draws + k ∧
    t.wire = s.wire ++ es ∧ t.syncTimeout = (s.syncTimeout || anyTimeout k s) ∧ t.done = s.done ∧ t.xfer = none

theorem Transmitted.completesWith (h : Transmitted s m k es t) (hfree : s.xfer = none) {o : Out}
    (ho : o = .next (retire t)) : CompletesWith s o m k es :=
  ⟨retire t, ho, rfl, congrArg (· + 1) h.retired, h.dc, h.draws, h.wire, h.mark, h.done, h.xfer.trans hfree⟩

end

section
variable {s : State} (hidle : s.seq = .idle) (hfree : s.xfer = none)
include hidle hfree

theorem sendCommand_completesWith (code : Byte) :
    CompletesWith s (exec (.sendCommand code) s) .command 1 (arrived s [⟨.command, code⟩]) :=
  (transmitted_sendEvents _ [⟨.command, code⟩] s).completesWith hfree (exec_sendCommand_of_free hidle hfree code)

theorem sendDataByte_completesWith (value : Byte) :
    CompletesWith s (exec (.sendDataByte value) s) .data 1 (arrived s [⟨.data, value⟩]) :=
  (transmitted_sendEvents _ [⟨.data, value⟩] s).completesWith hfree (exec_sendDataByte_of_free hidle hfree value)

theorem setWindow_completesWith (xs ys xe ye : Half) :
    CompletesWith s (exec (.setWindow xs ys xe ye) s) .data 11 (arrived s (windowEvents s.cfg xs ys xe ye)) :=
  (transmitted_setWindow _ xs ys xe ye s).completesWith hfree (exec_setWindow_of_free hidle hfree xs ys xe ye)

theorem plotPixel_completesWith {x y : Half} (hx : x.toNat < s.cfg.panelWidth) (hy : y.toNat < s.cfg.panelHeight)
    (c : Half) :
    CompletesWith s (exec (.plotPixel x y c) s) .data 12 (arrived s (windowEvents s.cfg x y x y) ++
      tagged .data (sentPrefix (syncAnswer s (s.draws + 11)) [hi8 c, lo8 c])) :=
  ((transmitted_setWindow _ x y x y s).syncTx [hi8 c, lo8 c]).completesWith hfree
    (exec_plotPixel_of_free hidle hfree hx hy c)

theorem init_completesWith {table : List InitEntry} (htable : s.cfg.initSeq = some table) :
    CompletesWith s (exec .init s) (lastMode s.dc (tableEvents table)) (tableEvents table).length
      (arrived s (tableEvents table)) := by
  have sent := transmitted_sendEvents (loadOperands .init) (tableEvents table) s
  exact (sent.withPanel _).completesWith hfree (exec_init_of_free hidle hfree htable)

end

/-- A timed-out byte leaves what was sent of it on the wire and sets the mark (41 R114). -/
theorem CompletesWith.of_timeout {s : State} {o : Out} {m : Mode} {b : Byte} {k : Nat}
    (h : CompletesWith s o m 1 (arrived s [⟨m, b⟩])) (hanswer : syncAnswer s s.draws = .timeout k) :
    ∃ t, o = .next t ∧ t.seq = .idle ∧ t.dc = m ∧ t.syncTimeout = true ∧
      t.wire = s.wire ++ tagged m ([b].take k) ∧ t.retired = s.retired + 1 := by
  obtain ⟨t, ho, hseq, hretired, hdc, -, hwire, hmark, -, -⟩ := h
  have marked : anyTimeout 1 s = true := by simp [anyTimeout, hanswer, timedOut]
  have sent : arrived s [⟨m, b⟩] = tagged m ([b].take k) := by
    rw [arrived_cons, hanswer, arrived_nil, List.append_nil, sentPrefix]
  exact ⟨t, ho, hseq, hdc, by rw [hmark, marked, Bool.or_true], sent ▸ hwire, hretired⟩

/-- Settles O10: both operations complete whatever the bus answers, here with a timeout of their one byte. -/
theorem timedOutByteIsMarkedAndTheEngineContinues : Obligations.TimedOutByteIsMarkedAndTheEngineContinues :=
  fun _ b _ hidle hfree hanswer =>
    ⟨(sendCommand_completesWith hidle hfree b).of_timeout hanswer,
      (sendDataByte_completesWith hidle hfree b).of_timeout hanswer⟩

end Sys2Proof.Machine

namespace Sys2Proof.Machine

/-! ### The first hold of a stream -/

/-- Where the next turn is not XFER's, ENGINE holds with nothing done. -/
theorem xferTurns_of_waits {ts : List Turn} (hwaits : ∀ us, ts ≠ .xfer :: us) (s : State) :
    xferTurns ts s = .next s := by
  cases ts with
  | nil => rfl
  | cons t us =>
    cases t with
    | xfer => exact absurd rfl (hwaits us)
    | engine | primitive | hostWrite => rfl

theorem beginTransfer_done {s : State} (hdone : s.done = true) (src : Source) (len : Nat) :
    beginTransfer src len s = .next { clearDone s with
      xfer := some ⟨src, len, 0⟩
      transfers := s.transfers ++ [.begun src len] } := whenDone_true hdone _

/-- Without a turn for XFER a stream holds in the `awaitCompletion` of its next chunk, prepared and begun (43 R131). -/
theorem stream_of_waits {op : Stream} {s t : State} (hrem : s.rem ≠ 0) (hprepared : prepareChunk op s = .next t)
    (hdone : t.done = true) (hwaits : XferWaits t) :
    stream op s = .next (hold (.awaitChunk op) { clearDone t with
      xfer := some ⟨chunkSource op t, chunkBytes op t, 0⟩
      transfers := t.transfers ++ [.begun (chunkSource op t) (chunkBytes op t)] }) := by
  obtain ⟨fuel, hfuel⟩ := Nat.exists_eq_succ_of_ne_zero hrem
  rw [stream, hfuel, streamLoop, if_neg hrem, chunkTurn_eq, hprepared, andThen_next, beginTransfer_done hdone,
    andThen_next, xferTurns_of_waits (by exact hwaits), andThen_next]
  rfl

/-- The stream answers `o`: it holds in its first `awaitCompletion`, its chunk begun, behind `k` transmits of which `es`
reached the wire (43 R131, 41 R114). -/
def HoldsWith (s : State) (k : Nat) (es : List Event) (o : Out) (op : Stream) (src : Source) (len : Nat) : Prop :=
  ∃ t, o = .next t ∧ t.seq = .busy (.awaitChunk op) ∧ t.done = false ∧ t.xfer = some ⟨src, len, 0⟩ ∧
    t.transfers = s.transfers ++ [.begun src len] ∧ t.dc = .data ∧ t.draws = s.draws + k ∧
    t.wire = s.wire ++ es ∧ t.syncTimeout = (s.syncTimeout || anyTimeout k s) ∧ t.retired = s.retired

theorem Transmitted.holdsWith {s s₀ t : State} {k : Nat} {es : List Event} {op : Stream} {o : Out} {src : Source}
    {len : Nat} (h : Transmitted s .data k es t) (hdone : s.done = true) (hwaits : XferWaits s)
    (ho : o = stream op s₀) (hrem : s₀.rem ≠ 0) (hprepared : prepareChunk op s₀ = .next t)
    (hsrc : chunkSource op t = src) (hlen : chunkBytes op t = len) : HoldsWith s k es o op src len := by
  have held := stream_of_waits hrem hprepared (h.done.trans hdone) fun us => h.turns ▸ hwaits us
  rw [hsrc, hlen] at held
  exact ⟨_, ho.trans held, rfl, rfl, rfl, congrArg (· ++ _) h.transfers, h.dc, h.draws, h.wire, h.mark, h.retired⟩

/-! ### The streams behind their window -/

/-- The state of a fill before its chunk loop: window open, every slot filled, its counter set (44 R152). -/
def fillOpened (x y w h c : Half) (s : State) : State :=
  { prefill c (openWindow x y w h (accept (loadOperands (.fillRectangle x y w h c)) s)) with rem := totalBytes w h }

/-- The state of a colour blit before its chunk loop: window open, its counters set (45 R165). -/
def colourOpened (x y w h : Half) (p : Word) (s : State) : State :=
  { openWindow x y w h (accept (loadOperands (.drawColourBitmap x y w h p)) s) with off := 0, rem := totalBytes w h }

section
variable {s : State} {x y w h : Half} (hidle : s.seq = .idle) (hfree : s.xfer = none)
  (hrect : rectangleFits x y w h = true)
include hidle hfree hrect

theorem exec_fillRectangle_of_free (c : Half) :
    exec (.fillRectangle x y w h c) s = stream .fill (fillOpened x y w h c s) := by
  refine (execFillRectangle_eq x y w h c s).trans ((whenIdle_idle hidle _).trans ((if_pos hrect).trans ?_))
  exact onFreeBus_free (by exact hfree) _

theorem exec_drawColourBitmap_of_free {p : Word} (hrange : p.toNat + totalBytes w h ≤ 2 ^ s.cfg.addrW) :
    exec (.drawColourBitmap x y w h p) s = stream .colour (colourOpened x y w h p s) := by
  refine (execDrawColourBitmap_eq x y w h p s).trans ((whenIdle_idle hidle _).trans ((if_pos hrect).trans
    ((if_pos (decide_eq_true hrange)).trans ?_)))
  exact onFreeBus_free (by exact hfree) _

end

theorem rectangleFits_height {x y w h : Half} (hrect : rectangleFits x y w h = true) : 1 ≤ h.toNat := by
  simp only [rectangleFits, Bool.and_eq_true, decide_eq_true_eq] at hrect
  obtain ⟨⟨⟨-, height⟩, -⟩, -⟩ := hrect
  exact height

theorem totalPixels_ne_zero {x y w h : Half} (hrect : rectangleFits x y w h = true) : totalPixels w h ≠ 0 :=
  Nat.mul_ne_zero (Nat.ne_of_gt (rectangleFits_width hrect)) (Nat.ne_of_gt (rectangleFits_height hrect))

theorem totalBytes_ne_zero {x y w h : Half} (hrect : rectangleFits x y w h = true) : totalBytes w h ≠ 0 :=
  Nat.mul_ne_zero (totalPixels_ne_zero hrect) two_ne_zero

/-- The state of a mono blit whose first chunk is prepared: `n` pixels unpacked (45 R167, R173). -/
def monoPrepared (x y w h : Half) (p : Word) (fg bg : Half) (img : List Byte) (n : Nat) (s : State) : State :=
  { monoOpened x y w h p fg bg s with
    cnt := n
    stg := setSlots (monoColours w fg bg img 0 n) 0 (s.stg.map Slot.unwritten)
    cursor := cursorAt w p.toNat n
    reads := s.reads ++ (List.range' 0 n).map fun j => p.toNat + monoOffset w j }

theorem prepareChunk_monoOpened {s : State} {x y w h : Half} {p : Word} (fg bg : Half) {img : List Byte}
    (hrect : rectangleFits x y w h = true) (hlen : img.length = monoBytes w h)
    (hrange : p.toNat + img.length ≤ 2 ^ s.cfg.addrW) (himg : Holds s.mem p.toNat img) :
    prepareChunk .mono (monoOpened x y w h p fg bg s) =
      .next (monoPrepared x y w h p fg bg img (min (totalPixels w h) s.cfg.n) s) := by
  have width : (loadMono x y w h p fg bg s.ops).w = w := rfl
  have reads : (monoOpened x y w h p fg bg s).reads = s.reads := by simp [monoOpened]
  refine (unpackFrom_eq _ 0 0 p.toNat img h _ ?width ?cursor ?pixels ?length ?range ?image).trans ?_
  case width => rw [monoOpened_ops, width]; exact rectangleFits_width hrect
  case cursor => rw [monoOpened_ops, width, cursorAt_zero]; rfl
  case pixels => rw [monoOpened_ops, width, monoOpened_rem, Nat.zero_add]; exact Nat.min_le_left _ _
  case length => rw [monoOpened_ops, width]; exact hlen
  case range => rw [monoOpened_cfg]; exact hrange
  case image => rw [monoOpened_mem]; exact himg
  simp [monoPrepared, loadMono, reads]

theorem two_mul_min_totalPixels (w h : Half) (cfg : Config) :
    2 * min (totalPixels w h) cfg.n = min (totalBytes w h) cfg.nb := by
  unfold totalBytes totalPixels Config.nb
  omega

/-! ### The first hold of each stream -/

section
variable {s : State} {x y w h : Half} (hready : Ready s) (hrect : rectangleFits x y w h = true) (hwaits : XferWaits s)
include hready hrect hwaits

theorem fillRectangle_holdsWith (c : Half) :
    HoldsWith s 11 (arrived s (windowEvents s.cfg x y (endCoord x w) (endCoord y h)))
      (exec (.fillRectangle x y w h c) s) .fill .staging (min (totalBytes w h) s.cfg.nb) := by
  obtain ⟨hidle, hfree, hdone⟩ := hready
  have window := transmitted_openWindow (loadOperands (.fillRectangle x y w h c)) x y w h s
  have opened : Transmitted s .data 11 _ (fillOpened x y w h c s) := { window with }
  exact opened.holdsWith hdone hwaits (exec_fillRectangle_of_free hidle hfree hrect c) (totalBytes_ne_zero hrect) rfl
    rfl (by simp [chunkBytes, fillOpened])

theorem drawColourBitmap_holdsWith {p : Word} (hrange : p.toNat + totalBytes w h ≤ 2 ^ s.cfg.addrW) :
    HoldsWith s 11 (arrived s (windowEvents s.cfg x y (endCoord x w) (endCoord y h)))
      (exec (.drawColourBitmap x y w h p) s) .colour (.mem p.toNat) (min (totalBytes w h) s.cfg.nb) := by
  obtain ⟨hidle, hfree, hdone⟩ := hready
  have window := transmitted_openWindow (loadOperands (.drawColourBitmap x y w h p)) x y w h s
  have opened : Transmitted s .data 11 _ (colourOpened x y w h p s) := { window with }
  exact opened.holdsWith hdone hwaits (exec_drawColourBitmap_of_free hidle hfree hrect hrange)
    (totalBytes_ne_zero hrect) rfl (by simp [chunkSource, colourOpened, loadOperands])
    (by simp [chunkBytes, colourOpened])

theorem drawMonoBitmap_holdsWith {p : Word} (fg bg : Half) {img : List Byte} (hlen : img.length = monoBytes w h)
    (hrange : p.toNat + img.length ≤ 2 ^ s.cfg.addrW) (himg : Holds s.mem p.toNat img) :
    HoldsWith s 11 (arrived s (windowEvents s.cfg x y (endCoord x w) (endCoord y h)))
      (exec (.drawMonoBitmap x y w h p fg bg) s) .mono .staging (min (totalBytes w h) s.cfg.nb) := by
  have ⟨_, _, hdone⟩ := hready
  have window := transmitted_openWindow (loadMono x y w h p fg bg) x y w h s
  have prepared : Transmitted s .data 11 _
      (monoPrepared x y w h p fg bg img (min (totalPixels w h) s.cfg.n) s) := { window with }
  exact prepared.holdsWith hdone hwaits (execDrawMonoBitmap_of_ready fg bg hready hrect (hlen ▸ hrange))
    (totalPixels_ne_zero hrect) (prepareChunk_monoOpened fg bg hrect hlen hrange himg) rfl
    (two_mul_min_totalPixels w h s.cfg)

end

/-- Settles O11: an operation's line does not depend on the answers, and each of its transmits adds the bytes that were
sent; a stream then prepares and begins its first chunk. -/
theorem synchronousOperationsCompleteWhateverTheBusAnswers :
    Obligations.SynchronousOperationsCompleteWhateverTheBusAnswers := by
  intro s hidle hfree
  refine ⟨sendCommand_completesWith hidle hfree, sendDataByte_completesWith hidle hfree,
    setWindow_completesWith hidle hfree, fun x y c hx hy => plotPixel_completesWith hidle hfree hx hy c,
    fun table htable => init_completesWith hidle hfree htable, fun x y w h hdone hrect hwaits => ?_⟩
  have hready : Ready s := ⟨hidle, hfree, hdone⟩
  exact ⟨fillRectangle_holdsWith hready hrect hwaits,
    fun p hrange => drawColourBitmap_holdsWith hready hrect hwaits hrange,
    fun p fg bg img hlen hrange himg => drawMonoBitmap_holdsWith hready hrect hwaits fg bg hlen hrange himg⟩

end Sys2Proof.Machine

namespace Sys2Proof.Machine

/-! ### The window under `NoSyncTimeout` -/

/-- The state after the window of an operation just accepted, its eleven transmits completed by the bus. -/
theorem retire_setWindow_ok {s : State} (load : Latches → Latches) (xs ys xe ye : Half) (hidle : s.seq = .idle)
    (hok : NoSyncTimeout 11 s) :
    retire (setWindow xs ys xe ye (accept load s)) = { s with
      ops := load s.ops
      stg := s.stg.map Slot.unwritten
      dc := .data
      wire := s.wire ++ windowEvents s.cfg xs ys xe ye
      panel := (windowEvents s.cfg xs ys xe ye).foldl (Panel.receive s.cfg) s.panel
      draws := s.draws + 11
      retired := s.retired + 1 } := by
  rw [setWindow_ok xs ys xe ye (accept load s) (by exact hok), retire, ← hidle]
  rfl

/-- Settles O9: on a free bus the operation is its window and retires; acceptance took the marks of the slots. -/
theorem setWindowResult : Obligations.SetWindowResult := fun _ xs ys xe ye hidle hfree hok =>
  (exec_setWindow_of_free hidle hfree xs ys xe ye).trans (congrArg _ (retire_setWindow_ok _ xs ys xe ye hidle hok))

end Sys2Proof.Machine

namespace Sys2Proof.Machine

/-! ### XFER's turns -/

/-- The turn of XFER that stands next is the step of the machine. -/
theorem step_xferTurn {s : State} {ts : List Turn} (hturns : s.turns = .xfer :: ts) :
    step s = xferStep (withTurns ts s) := by
  simp only [step, takeTurn, hturns]

/-- While the flag is down XFER takes the turn that stands next, and then those behind it. -/
theorem xferTurns_cons {s : State} (hdone : s.done = false) (ts : List Turn) :
    xferTurns (.xfer :: ts) s = andThen (xferStep (withTurns ts s)) (xferTurns ts) :=
  if_neg (by rw [hdone]; simp)

/-- The turns XFER takes while ENGINE holds, as a run of single steps (log 9). -/
theorem exists_run_of_xferTurns {ts : List Turn} {s t : State} (hturns : s.turns = ts)
    (hrun : xferTurns ts s = .next t) :
    ∃ k, ts = List.replicate k .xfer ++ t.turns ∧ Host.Core.run core k s = .next t ∧
      (t.done = true ∨ XferWaits t) := by
  induction ts generalizing s with
  | nil =>
    rw [xferTurns_of_waits (by simp)] at hrun
    cases hrun
    exact ⟨0, hturns.symm, rfl, .inr fun us => by simp [hturns]⟩
  | cons turn ts ih =>
    by_cases hnext : s.done = false ∧ turn = .xfer
    · obtain ⟨hdone, rfl⟩ := hnext
      rw [xferTurns_cons hdone, andThen_eq_next] at hrun
      obtain ⟨m, hm, hrest⟩ := hrun
      obtain ⟨k, hk, hsteps, hend⟩ := ih (xferStep_keeps_place hm).2 hrest
      refine ⟨k + 1, by rw [List.replicate_succ, List.cons_append, ← hk], ?_, hend⟩
      exact (run_succ_of_step ((step_xferTurn hturns).trans hm)).trans hsteps
    · have stays : t = s ∧ (s.done = true ∨ turn ≠ .xfer) := by
        rcases hdone : s.done with _ | _
        · have other : turn ≠ .xfer := fun h => hnext ⟨hdone, h⟩
          rw [xferTurns_of_waits fun us h => other (List.cons.inj h).1] at hrun
          cases hrun; exact ⟨rfl, .inr other⟩
        · rw [xferTurns_done _ _ hdone] at hrun
          cases hrun; exact ⟨rfl, .inl rfl⟩
      obtain ⟨rfl, hend⟩ := stays
      refine ⟨0, hturns.symm, rfl, hend.imp_right fun other us h => ?_⟩
      exact other (List.cons.inj (hturns.symm.trans h)).1

/-- Settles O24: each of these turns is the step of the machine while it stands next, and the merging ends where the flag
is up or another turn stands next. -/
theorem mergedXferTurnsAreSingleSteps : Obligations.MergedXferTurnsAreSingleSteps :=
  fun _ _ hrun => exists_run_of_xferTurns rfl hrun

/-- Settles O22: the turn is the emit step, for each kind of source. -/
theorem xferEmitsOneByte : Obligations.XferEmitsOneByte := by
  intro s ts len sent hturns hsent
  refine ⟨fun b hx hb => ?staging, fun a b hx hspace hb => ?mem, fun a hx hspace hnone => ?unplaced⟩
  case staging =>
    rw [step_xferTurn hturns, xferStep_emit (by exact hx) hsent (by exact hb)]
    simp [xferEmit, put, sourceReads]
  case mem =>
    have byte : sourceByte (withTurns ts s) (.mem a) sent = some b := (if_pos hspace).trans hb
    rw [step_xferTurn hturns, xferStep_emit (by exact hx) hsent byte]
    rfl
  case unplaced =>
    rw [step_xferTurn hturns, xferStep]
    simp only [hx, hsent, if_true, readSource, hspace, hnone]

/-- Settles O23: the turn is the completion step, or no step where no transfer is in flight. -/
theorem xferCompletesOnceAfterTheLastByte : Obligations.XferCompletesOnceAfterTheLastByte := by
  refine ⟨fun s ts src len hturns hx => ?_, fun s ts hturns hx => ?_⟩
  · rw [step_xferTurn hturns, xferStep_complete (by exact hx)]
    rfl
  · exact (step_xferTurn hturns).trans (xferStep_idle (by exact hx))

/-! ### beginAsyncTransfer -/

section
variable {s : State} {p len : Word} (hidle : s.seq = .idle)
include hidle

theorem exec_beginAsyncTransfer_empty : exec (.beginAsyncTransfer p 0) s = .refused .emptyTransfer :=
  (execBeginAsyncTransfer_eq p 0 s).trans ((whenIdle_idle hidle _).trans (if_pos rfl))

theorem exec_beginAsyncTransfer_wrap (hlen : len ≠ 0) (hrange : ¬ p.toNat + len.toNat ≤ 2 ^ s.cfg.addrW) :
    exec (.beginAsyncTransfer p len) s = .refused .addressWrap := by
  refine (execBeginAsyncTransfer_eq p len s).trans ((whenIdle_idle hidle _).trans ((if_neg hlen).trans (if_neg ?_)))
  simpa [rangeFits] using hrange

/-- With operands that are not refused the transfer is begun, if the flag is up, and the operation retires. -/
theorem exec_beginAsyncTransfer_of_fits (hlen : len ≠ 0) (hrange : p.toNat + len.toNat ≤ 2 ^ s.cfg.addrW) :
    exec (.beginAsyncTransfer p len) s =
      andThen (beginTransfer (.mem p.toNat) len.toNat (accept (loadOperands (.beginAsyncTransfer p len)) s)) fun s =>
        .next (retire s) :=
  (execBeginAsyncTransfer_eq p len s).trans ((whenIdle_idle hidle _).trans ((if_neg hlen).trans
    (if_pos (decide_eq_true hrange))))

end

/-- Settles O17: with the flag up the transfer is begun and the operation retires. -/
theorem beginAsyncTransferResult : Obligations.BeginAsyncTransferResult := by
  intro s p len hidle hdone hlen hrange
  rw [exec_beginAsyncTransfer_of_fits hidle hlen hrange, beginTransfer_of_done (by exact hdone), andThen_next, retire,
    ← hidle]
  rfl

/-- Settles O18: with the flag down the transfer is not begun. -/
theorem beginWhileFlagIsFalseIsXferOverlap : Obligations.BeginWhileFlagIsFalseIsXferOverlap := by
  intro s p len hidle hdone hlen hrange
  rw [exec_beginAsyncTransfer_of_fits hidle hlen hrange, beginTransfer, whenDone_false (by exact hdone), andThen_fault]

/-- Settles O19: length and range are tested before the flag. -/
theorem emptyAndWrappingTransfersAreRefused : Obligations.EmptyAndWrappingTransfersAreRefused := by
  intro s p len hidle
  refine ⟨fun hlen => hlen ▸ exec_beginAsyncTransfer_empty hidle, fun hlen hwrap => ?_⟩
  have positive : len.toNat ≠ 0 := by bv_omega
  exact exec_beginAsyncTransfer_wrap hidle hlen (by omega)

/-! ### awaitCompletion -/

theorem exec_awaitCompletion_of_idle {s : State} (hidle : s.seq = .idle) :
    exec .awaitCompletion s = awaitDirect (accept id s) :=
  (execAwaitCompletion_eq s).trans (whenIdle_idle hidle _)

/-- `awaitCompletion` once XFER's turns are taken (43 R131). -/
theorem awaitDirect_of_xferTurns {s t : State} (h : xferTurns s.turns s = .next t) :
    awaitDirect s = if t.done then .next (retire t) else .next (hold .awaitDirect t) := by
  rw [awaitDirect, h, andThen_next]

/-- What a busy engine does on either of its turns, where the two answer the same. -/
theorem step_of_busy {s : State} {pos : Position} {o : Out} (hseq : s.seq = .busy pos) (hacts : EngineActs s)
    (hengine : resume pos (withTurns s.turns.tail s) = o) (hprimitive : advance pos (withTurns s.turns.tail s) = o) :
    step s = o := by
  have busy : (withTurns s.turns.tail s).seq = .busy pos := hseq
  rcases hacts with hmoves | hmoves
  · rw [step_of_engineMoves hmoves, engineTurn_busy busy, hengine]
  · rw [step_of_primitiveMoves hmoves, primitiveTurn_busy busy, hprimitive]

/-- Settles O20: the flag decides at the request and on each later turn of ENGINE. -/
theorem awaitCompletionReturnsExactlyWhenDone : Obligations.AwaitCompletionReturnsExactlyWhenDone := by
  refine ⟨fun s hidle hdone => ?_, fun s hidle hdone hwaits => ?_, fun s hseq hdone hacts => ?_,
    fun s hseq hdone hacts => step_of_busy hseq hacts (if_pos hdone) (if_pos hdone)⟩
  · rw [exec_awaitCompletion_of_idle hidle, awaitDirect_of_xferTurns (xferTurns_done _ _ (by exact hdone)),
      if_pos (by exact hdone), retire, ← hidle]
    rfl
  · rw [exec_awaitCompletion_of_idle hidle, awaitDirect_of_xferTurns (xferTurns_of_waits (by exact hwaits) _),
      if_neg (by simp [hdone])]
    rfl
  · have down : ¬ (withTurns s.turns.tail s).done = true := by simp [hdone]
    rcases hseq with hseq | ⟨op, hseq⟩
    · exact step_of_busy hseq hacts (if_neg down) (if_neg down)
    · exact step_of_busy hseq hacts (if_neg down) (if_neg down)

/-- Settles O21: XFER's turns carry the transfer to its end, and the flag that its completion leaves lets the operation
retire. -/
theorem awaitCompletionCarriesTheTransferToItsEnd : Obligations.AwaitCompletionCarriesTheTransferToItsEnd := by
  intro s a sent img rest hidle hdone hx hrange himg hturns
  have bytes (j : Nat) (hj : j < img.length) : sourceByte (accept id s) (.mem a) (sent + j) = some img[j] := by
    have placed := himg j hj
    rw [Nat.add_assoc] at placed
    exact (if_pos (show a + (sent + j) < 2 ^ s.cfg.addrW by omega)).trans placed
  have carried := xferTurns_carry (.mem a) sent img rest (accept id s) hx hdone bytes
  have reads : (List.range img.length).flatMap (fun j => sourceReads (.mem a) (sent + j)) =
      (List.range img.length).map (a + sent + ·) := by
    simp only [sourceReads, ← Nat.add_assoc]
    exact List.flatMap_pure_eq_map _ _
  rw [← hturns, reads] at carried
  rw [exec_awaitCompletion_of_idle hidle, awaitDirect_of_xferTurns carried, if_pos rfl, retire, ← hidle]
  rfl

end Sys2Proof.Machine

namespace Sys2Proof.Machine

/-! ### The state in which each stream first holds -/

/-- The window of a rectangle, opened by an operation just accepted whose eleven transmits the bus completes. -/
theorem openWindow_accept_ok (load : Latches → Latches) (x y w h : Half) {s : State} (hok : NoSyncTimeout 11 s) :
    openWindow x y w h (accept load s) = { s with
      ops := load s.ops
      stg := s.stg.map Slot.unwritten
      dc := .data
      wire := s.wire ++ windowEvents s.cfg x y (endCoord x w) (endCoord y h)
      panel := (windowEvents s.cfg x y (endCoord x w) (endCoord y h)).foldl (Panel.receive s.cfg) s.panel
      draws := s.draws + 11 } :=
  setWindow_ok x y (endCoord x w) (endCoord y h) (accept load s) hok

/-- In a buffer marked unwritten the first `n` slots come to hold the colours of the bitmap's first `n` pixels. -/
theorem setSlots_monoColours_unwritten (w fg bg : Half) (img : List Byte) (n : Nat) (stg : List Slot) :
    setSlots (monoColours w fg bg img 0 n) 0 (stg.map Slot.unwritten) =
      stg.mapIdx fun j sl => if j < n then slotOf (monoColour w fg bg img j) else sl.unwritten := by
  rw [setSlots_eq_mapIdx]
  refine List.ext_getElem (by simp) fun j _ _ => ?_
  by_cases hj : j < n <;> simp [monoColours, hj]

/-- Settles O33: each stream opens its window, prepares and begins its first chunk, and has no turn of XFER's to go on. -/
theorem streamingOperationsHoldWithoutXfer : Obligations.StreamingOperationsHoldWithoutXfer := by
  intro s x y w h _ hready hrect hok hwaits
  have ⟨hidle, hfree, hdone⟩ := hready
  refine ⟨fun c => ?fill, fun p hrange => ?colour, fun p fg bg img hlen hrange himg => ?mono⟩
  case fill =>
    have held := stream_of_waits (op := .fill) (s := fillOpened x y w h c s) (totalBytes_ne_zero hrect) rfl
      (by simpa [fillOpened] using hdone) (by simpa [fillOpened] using hwaits)
    rw [exec_fillRectangle_of_free hidle hfree hrect c, held, fillOpened, openWindow_accept_ok _ x y w h hok]
    rfl
  case colour =>
    have held := stream_of_waits (op := .colour) (s := colourOpened x y w h p s) (totalBytes_ne_zero hrect) rfl
      (by simpa [colourOpened] using hdone) (by simpa [colourOpened] using hwaits)
    rw [exec_drawColourBitmap_of_free hidle hfree hrect hrange, held, colourOpened,
      openWindow_accept_ok _ x y w h hok]
    rfl
  case mono =>
    have held := stream_of_waits (by exact totalPixels_ne_zero hrect)
      (prepareChunk_monoOpened fg bg hrect hlen hrange himg) (by simpa [monoPrepared] using hdone)
      (by simpa [monoPrepared] using hwaits)
    rw [execDrawMonoBitmap_of_ready fg bg hready hrect (hlen ▸ hrange), held, monoPrepared,
      setSlots_monoColours_unwritten, ← List.range_eq_range', monoOpened, openWindow_accept_ok _ x y w h hok]
    rfl

end Sys2Proof.Machine

namespace Sys2Proof.Machine

/-! ### An accepted operation meets no misuse of the bus -/

theorem meets_mapNext {P : State → Prop} {F : Fault → Prop} {R : Refusal → Prop} {f : State → State} {o : Out} :
    Meets P F R (mapNext f o) ↔ Meets (fun s => P (f s)) F R o := by
  cases o <;> rfl

/-- XFER's turns while ENGINE holds at a place keep the invariant there. -/
theorem xferTurns_proceeds {pos : Position} (ts : List Turn) {s : State} (h : Inv (hold pos s)) :
    Proceeds (fun t => Inv (hold pos t)) (xferTurns ts s) := by
  refine xferTurns_meets (fun u us hu _ => ?_) ts s h
  have moved : xferStep (withTurns us (hold pos u)) = mapNext (at' (.busy pos) us) (xferStep (withTurns us u)) :=
    xferStep_at' (.busy pos) us (withTurns us u)
  have kept : Proceeds Inv (mapNext (at' (.busy pos) us) (xferStep (withTurns us u))) :=
    moved ▸ xferStep_keeps_inv (hu.withTurns us)
  exact (meets_mapNext.1 kept).weaken fun t ht => ht.withTurns t.turns

theorem soundBefore_of_inv {todo : List Primitive} {e : Ending} {s : State} (h : Inv (place todo e s)) :
    SoundBefore todo e s := by
  have parts := h.parts
  have phase := h.phase
  have frame := place_frame todo e s
  have back : s = { place todo e s with seq := s.seq, retired := s.retired } := by rw [frame]
  refine ⟨?_, ?_⟩
  · rw [back]; exact parts.frame parts.panel
  · generalize (place todo e s).seq = q at phase ⊢
    rw [back]; exact phase.frame

/-- A line from a sound place on leads to a sound end of it. -/
theorem performAll_proceeds (todo : List Primitive) {e : Ending} {s : State} (h : SoundBefore todo e s) :
    Proceeds (SoundBefore [] e) (performAll todo s) := by
  induction todo generalizing s with
  | nil => exact h
  | cons p ps ih =>
    obtain ⟨hparts, -, hline⟩ := h
    exact ((perform_sound hparts hline).weaken fun m hm => ih hm).andThen

/-- The test of the chunk loop, in a state that holds at the `awaitCompletion` of a chunk that is done. -/
theorem soundBefore_advanceChunk {op : Stream} {s : State} (h : Inv (hold (.awaitChunk op) s)) (hdone : s.done = true) :
    SoundBefore [] (.loop op) (advanceChunk op s) := by
  obtain ⟨hparts, hloop, -⟩ : SoundBefore [] (.awaitChunk op) s := soundBefore_of_inv h
  exact soundBefore_loop (hparts.advanceChunk hloop)
    ((advanceChunk_xfer op s).trans (hparts.no_transfer_of_done hdone)) hloop.advanceChunk

theorem inv_retire_of_loop {op : Stream} {s : State} (h : SoundBefore [] (.loop op) s) : Inv (retire s) := by
  obtain ⟨hparts, hphase⟩ := h
  have free : StagingFree s := by
    simp only [place] at hphase
    split at hphase
    · exact hphase
    · exact hphase.1
  have retires : SoundBefore [] .retire s := ⟨hparts, free⟩
  exact retires.inv

theorem stream_proceeds {op : Stream} {s : State} (h : SoundBefore [] (.loop op) s) : Proceeds Inv (stream op s) := by
  refine streamLoop_meets (I := SoundBefore [] (.loop op)) op (fun u hu hrem => ?_)
    (fun u hu => inv_retire_of_loop hu) s.rem s h
  have line : SoundBefore (chunkLine op u) (.awaitChunk op) u := by
    unfold SoundBefore at hu
    rwa [chunkLine_place op u hrem] at hu
  refine ((performAll_proceeds _ line).weaken fun m hm => ?_).andThen
  refine (xferTurns_proceeds m.turns (pos := .awaitChunk op) hm.inv).weaken fun t ht => ?_
  split
  · exact soundBefore_advanceChunk ht ‹_›
  · exact ht

/-- ENGINE goes on from a sound place to its next hold or its retirement without a misuse of the bus. -/
theorem run_proceeds {todo : List Primitive} {e : Ending} {s : State} (h : SoundBefore todo e s) :
    Proceeds Inv (run todo e s) := by
  refine ((performAll_proceeds todo h).weaken fun m hm => ?_).andThen
  cases e with
  | retire => exact hm.inv
  | loop op => exact stream_proceeds hm
  | awaitDirect =>
    refine ((xferTurns_proceeds m.turns (pos := .awaitDirect) hm.inv).weaken fun t ht => ?_).andThen
    split
    · have retires : SoundBefore [] .retire t := soundBefore_of_inv (todo := []) (e := .awaitDirect) ht
      exact retires.inv
    · exact ht
  | awaitChunk op =>
    refine ((xferTurns_proceeds m.turns (pos := .awaitChunk op) hm.inv).weaken fun t ht => ?_).andThen
    split
    · exact stream_proceeds (soundBefore_advanceChunk ht ‹_›)
    · exact ht

theorem resume_proceeds {pos : Position} {s : State} (h : Inv s) (hseq : s.seq = .busy pos) :
    Proceeds Inv (resume pos s) := by
  have held : Inv (hold pos s) := by rwa [hold, ← hseq]
  cases pos with
  | line todo e =>
    obtain ⟨hfree, hline⟩ : PhaseSound (.busy (.line todo e)) s := hseq ▸ h.phase
    exact run_proceeds (soundBefore_of_line h.parts hfree hline)
  | awaitDirect =>
    have same : advance .awaitDirect s = resume .awaitDirect s := rfl
    exact same ▸ advance_keeps_inv h hseq
  | awaitChunk op =>
    simp only [resume]
    split
    · exact stream_proceeds (soundBefore_advanceChunk held ‹_›)
    · exact h

/-! ### The misuses at acceptance -/

/-- What lets the acceptance of `i` be the fault: a begin with the flag down, or a use of the bus with a transfer in
flight (43 R133, 41 R115). -/
def AcceptFault (i : Instr) (s : State) : Fault → Prop
  | .xferOverlap => s.done = false ∧ ∃ p len, i = .beginAsyncTransfer p len ∧ len ≠ 0 ∧
      p.toNat + len.toNat ≤ 2 ^ s.cfg.addrW
  | .busConflict => s.xfer ≠ none ∧ UsesBus s.cfg i
  | _ => True

theorem requireRectangle_of_fits {x y w h : Half} (hrect : rectangleFits x y w h = true) (o : Out) :
    requireRectangle x y w h o = o := if_pos hrect

theorem requireRange_of_fits {cfg : Config} {p : Word} {n : Nat} (hrange : p.toNat + n ≤ 2 ^ cfg.addrW) (o : Out) :
    requireRange cfg p n o = o := if_pos (decide_eq_true hrange)

/-- If the answer is a fault, it has `F`. -/
abbrev FaultsIn (F : Fault → Prop) (o : Out) : Prop := Meets (fun _ => True) F (fun _ => True) o

section
variable {k : Begin} {s : State}

/-- The faults of an acceptance whose line is taken over by what meets none. -/
theorem acceptInstr_faults (i : Instr) : FaultsIn (AcceptFault i s) (acceptInstr i s begun) := by
  have idle {f : State → Out} (hf : FaultsIn (AcceptFault i s) (f s)) :
      FaultsIn (AcceptFault i s) (whenIdle s f) := whenIdle_meets (fun _ => hf) trivial
  have free (load : Latches → Latches) (todo : State → List Primitive) (e : Ending) (huses : UsesBus s.cfg i) :
      FaultsIn (AcceptFault i s) (onFreeBus (accept load s) fun s => begun (todo s) e s) :=
    onFreeBus_meets (fun _ => trivial) fun hbusy => ⟨hbusy, huses⟩
  cases i with
  | reset | init =>
    simp only [acceptInstr, acceptReset, acceptInit]
    refine idle ?_
    split
    · trivial
    · rename_i hseq
      exact free _ _ _ (by simp [UsesBus, hseq])
  | plotPixel x y c =>
    simp only [acceptInstr, acceptPlotPixel]
    refine idle ?_
    split
    · exact free _ _ _ ‹_›
    · trivial
  | drawColourBitmap | drawMonoBitmap =>
    simp only [acceptInstr, acceptDrawColourBitmap, acceptDrawMonoBitmap]
    exact idle (requireRectangle_meets (fun hr => requireRange_meets (fun hp => free _ _ _ ⟨hr, hp⟩) trivial) trivial)
  | fillRectangle x y w h c =>
    simp only [acceptInstr, acceptFillRectangle]
    exact idle (requireRectangle_meets (fun hr => free _ _ _ hr) trivial)
  | sendCommand | sendDataByte | setWindow =>
    simp only [acceptInstr, acceptSendCommand, acceptSendDataByte, acceptSetWindow]
    exact idle (free _ _ _ trivial)
  | beginAsyncTransfer p len =>
    simp only [acceptInstr, acceptBeginAsyncTransfer]
    refine idle ?_
    split
    · trivial
    · rename_i hlen
      refine requireRange_meets (fun hp => whenDone_meets (fun _ => trivial) fun hd => ?_) trivial
      exact ⟨hd, p, len, rfl, hlen, hp⟩
  | awaitCompletion =>
    simp only [acceptInstr, acceptAwaitCompletion]
    exact idle trivial

/-- With a transfer in flight the acceptance of a request that uses the bus is the conflict. -/
theorem acceptInstr_of_inFlight {i : Instr} (hidle : s.seq = .idle) (hbusy : s.xfer ≠ none) (huses : UsesBus s.cfg i) :
    acceptInstr i s k = .fault .busConflict := by
  obtain ⟨f, hf⟩ := Option.ne_none_iff_exists'.1 hbusy
  have taken (load : Latches → Latches) (g : State → Out) : onFreeBus (accept load s) g = .fault .busConflict :=
    onFreeBus_busy (by exact hf) g
  cases i with
  | reset | init =>
    obtain ⟨q, hq⟩ := Option.ne_none_iff_exists'.1 huses
    simp only [acceptInstr, acceptReset, acceptInit, whenIdle_idle hidle, hq, taken]
  | plotPixel x y c =>
    simp only [acceptInstr, acceptPlotPixel, whenIdle_idle hidle]
    exact (if_pos huses).trans (taken _ _)
  | drawColourBitmap | drawMonoBitmap =>
    obtain ⟨hrect, hrange⟩ := huses
    simp only [acceptInstr, acceptDrawColourBitmap, acceptDrawMonoBitmap, whenIdle_idle hidle,
      requireRectangle_of_fits hrect, requireRange_of_fits hrange, taken]
  | fillRectangle =>
    simp only [acceptInstr, acceptFillRectangle, whenIdle_idle hidle, requireRectangle_of_fits huses, taken]
  | sendCommand | sendDataByte | setWindow =>
    simp only [acceptInstr, acceptSendCommand, acceptSendDataByte, acceptSetWindow, whenIdle_idle hidle, taken]
  | beginAsyncTransfer | awaitCompletion => exact huses.elim

/-- With the flag down the acceptance of a transfer that R134 allows is the overlap. -/
theorem acceptInstr_of_overlap {p len : Word} (hidle : s.seq = .idle) (hdone : s.done = false) (hlen : len ≠ 0)
    (hrange : p.toNat + len.toNat ≤ 2 ^ s.cfg.addrW) :
    acceptInstr (.beginAsyncTransfer p len) s k = .fault .xferOverlap := by
  simp only [acceptInstr, acceptBeginAsyncTransfer, whenIdle_idle hidle, if_neg hlen, requireRange_of_fits hrange]
  exact whenDone_false (by exact hdone) _

/-- The faults of a request that is accepted under the invariant and then runs to its next hold or its retirement are
those of its acceptance and the read of a source byte HOST has not placed. -/
theorem acceptInstr_run_faults (hs : PartsSound s) (hfree : StagingFree s) (i : Instr) :
    FaultsIn (AcceptFault i s) (acceptInstr i s run) := by
  have begins : Safe (acceptInstr i s begun) := acceptInstr_meets (k := begun) hs.flag
    (fun _ _ load hline => (soundBefore_of_line (hs.accept hfree load) hfree hline).inv) i
  have faults := acceptInstr_faults (s := s) i
  rcases acceptInstr_cases i s with ⟨todo, e, load, line⟩ | ⟨o, -, stop⟩
  · rw [line] at begins ⊢
    exact (run_proceeds (soundBefore_of_inv begins)).mono (fun _ _ => trivial) (fun r hr => hr ▸ trivial) fun _ => id
  · rw [stop] at faults ⊢
    exact faults

end

/-! ### The misuses of a step -/

/-- What lets a step be a misuse of the bus: the request that it accepts. -/
def StepFault (s : State) (r : Fault) : Prop :=
  r = .xferOverlap ∨ r = .busConflict → ∃ i, Requests s i ∧ AcceptFault i s r

theorem stepFault_of_ne {s : State} {r : Fault} (hover : r ≠ .xferOverlap) (hbus : r ≠ .busConflict) : StepFault s r :=
  fun misuse => (misuse.elim hover hbus).elim

theorem stepFault_of_proceeds {s : State} {o : Out} (h : Proceeds Inv o) : FaultsIn (StepFault s) o :=
  h.mono (fun _ _ => trivial) (fun _ hr => hr ▸ stepFault_of_ne (by decide) (by decide)) fun _ => id

/-- A step that accepts a request has the faults of that acceptance. -/
theorem acceptNext_stepFault {k : Begin} {s : State} (h : Inv s) (hidle : s.seq = .idle) (hacts : EngineActs s)
    (hk : ∀ i u, PartsSound u → StagingFree u → FaultsIn (AcceptFault i u) (acceptInstr i u k)) :
    FaultsIn (StepFault s) (acceptNext (withTurns s.turns.tail s) fun i u => acceptInstr i u k) := by
  have hfree : StagingFree s := (hidle ▸ h.phase : PhaseSound .idle s)
  rcases hreq : s.requests with _ | ⟨d, ds⟩
  · simp only [acceptNext, nextRequest, hreq]; trivial
  · rcases hdec : decode s.cfg.addrW d with _ | i
    · simp only [acceptNext, nextRequest, hreq, hdec]; trivial
    · rw [acceptNext_of_decode (s := withTurns s.turns.tail s) hreq hdec]
      have taken : PartsSound { withTurns s.turns.tail s with requests := ds, ops := latchesOf d } :=
        h.parts.frame h.panel
      refine Meets.mono (hk i _ taken hfree) (fun _ => id) (fun r hr => ?_) fun _ => id
      have cause : AcceptFault i s r := by cases r <;> exact hr
      exact fun _ => ⟨i, ⟨hidle, hacts, d, ds, hreq, hdec⟩, cause⟩

theorem step_stepFault_of_engineActs {s : State} (h : Inv s) (hacts : EngineActs s) :
    FaultsIn (StepFault s) (step s) := by
  have moved : Inv (withTurns s.turns.tail s) := h.withTurns _
  rcases hseq : s.seq with _ | pos
  · have idle : (withTurns s.turns.tail s).seq = .idle := hseq
    rcases hacts with hmoves | hmoves
    · rw [step_of_engineMoves hmoves, engineTurn_accepts idle]
      exact acceptNext_stepFault h hseq (.inl hmoves) fun i _ hs hfree => acceptInstr_run_faults hs hfree i
    · rw [step_of_primitiveMoves hmoves, primitiveTurn_idle idle]
      exact acceptNext_stepFault h hseq (.inr hmoves) fun i _ _ _ => acceptInstr_faults i
  · have busy : (withTurns s.turns.tail s).seq = .busy pos := hseq
    rcases hacts with hmoves | hmoves
    · rw [step_of_engineMoves hmoves, engineTurn_busy busy]
      exact stepFault_of_proceeds (resume_proceeds moved busy)
    · rw [step_of_primitiveMoves hmoves, primitiveTurn_busy busy]
      exact stepFault_of_proceeds (advance_keeps_inv moved busy)

/-- Under the invariant a step is a misuse of the bus only by the request that it accepts. -/
theorem step_stepFault {s : State} (h : Inv s) : FaultsIn (StepFault s) (step s) := by
  rcases hturns : s.turns with _ | ⟨_ | _ | _ | ⟨a, b⟩, ts⟩
  · exact step_stepFault_of_engineActs h (.inr (.inl hturns))
  · exact step_stepFault_of_engineActs h (.inl ⟨ts, hturns⟩)
  · exact step_stepFault_of_engineActs h (.inr (.inr ⟨ts, hturns⟩))
  · simp only [step, takeTurn, hturns]
    exact stepFault_of_proceeds (xferStep_keeps_inv (h.withTurns ts))
  · simp only [step, takeTurn, hturns]
    exact hostWrite_meets trivial (stepFault_of_ne (by decide) (by decide)) (stepFault_of_ne (by decide) (by decide))

/-- A step that accepts a request answers what its acceptance answers whoever takes its line over. -/
theorem step_of_requests {s : State} {i : Instr} {o : Out} (hreq : Requests s i)
    (h : ∀ d ds k, acceptInstr i { withTurns s.turns.tail s with requests := ds, ops := latchesOf d } k = o) :
    step s = o := by
  obtain ⟨hidle, hacts, d, ds, hpending, hdec⟩ := hreq
  have idle : (withTurns s.turns.tail s).seq = .idle := hidle
  have accepted (k : Begin) : acceptNext (withTurns s.turns.tail s) (fun i u => acceptInstr i u k) = o :=
    (acceptNext_of_decode (s := withTurns s.turns.tail s) hpending hdec _).trans (h d ds k)
  rcases hacts with hmoves | hmoves
  · rw [step_of_engineMoves hmoves, engineTurn_accepts idle, accepted]
  · rw [step_of_primitiveMoves hmoves, primitiveTurn_idle idle, accepted]

/-- Settles O42: under the invariant no operation meets a misuse after its acceptance, and the acceptance tests the flag
and the bus whatever the state. -/
theorem misuseOfTheBusFaultsAtTheRequest : Obligations.MisuseOfTheBusFaultsAtTheRequest := by
  refine ⟨fun s h hstep => ?_, fun s h hstep => ?_, ?_, ?_⟩
  · obtain ⟨i, hreq, hdone, p, len, rfl, hlen, hrange⟩ := (step_stepFault h).of_fault hstep (.inl rfl)
    exact ⟨hdone, p, len, hreq, hlen, hrange⟩
  · obtain ⟨i, hreq, hbusy, huses⟩ := (step_stepFault h).of_fault hstep (.inr rfl)
    exact ⟨hbusy, i, hreq, huses⟩
  · rintro s ⟨hdone, p, len, hreq, hlen, hrange⟩
    have ⟨hidle, _⟩ := hreq
    exact step_of_requests hreq fun _ _ _ => acceptInstr_of_overlap hidle hdone hlen hrange
  · rintro s ⟨hbusy, i, hreq, huses⟩
    have ⟨hidle, _⟩ := hreq
    exact step_of_requests hreq fun _ _ _ => acceptInstr_of_inFlight hidle hbusy huses

end Sys2Proof.Machine

namespace Sys2Proof.Machine

/-! ### Requests that are not taken up -/

/-- Settles O13: the acceptance of each of these requests finds the bus taken. -/
theorem drawingAndPanelControlInFlightIsBusConflict : Obligations.DrawingAndPanelControlInFlightIsBusConflict := by
  intro s f hidle hbusy
  have conflict {i : Instr} (huses : UsesBus s.cfg i) : exec i s = .fault .busConflict :=
    (exec_eq_run i s).trans (acceptInstr_of_inFlight hidle (by simp [hbusy]) huses)
  exact ⟨fun _ _ _ _ _ hrect => conflict hrect, fun _ _ _ _ _ hrect hrange => conflict ⟨hrect, hrange⟩,
    fun _ _ _ _ _ _ _ hrect hrange => conflict ⟨hrect, hrange⟩, fun hsequence => conflict hsequence,
    fun htable => conflict htable⟩

/-- Conditions (i) and (ii) of 44 R155, spelled out. -/
theorem rectangleFits_iff {x y w h : Half} : rectangleFits x y w h = true ↔
    1 ≤ w.toNat ∧ 1 ≤ h.toNat ∧ x.toNat + w.toNat - 1 ≤ 65535 ∧ y.toNat + h.toNat - 1 ≤ 65535 := by
  simp [rectangleFits, and_assoc]

theorem requireRectangle_of_not_fits {x y w h : Half} (hrect : ¬ rectangleFits x y w h = true) (o : Out) :
    requireRectangle x y w h o = .refused .badRectangle := if_neg hrect

theorem requireRange_of_not_fits {cfg : Config} {p : Word} {n : Nat} (hrange : ¬ p.toNat + n ≤ 2 ^ cfg.addrW)
    (o : Out) : requireRange cfg p n o = .refused .addressWrap := if_neg fun fits => hrange (of_decide_eq_true fits)

/-- Settles O25: the rectangle is tested before the range, and both before the bus. -/
theorem degenerateRectanglesAndRangesAreRefused : Obligations.DegenerateRectanglesAndRangesAreRefused := by
  intro s x y w h p c fg bg hidle
  have fill := (execFillRectangle_eq x y w h c s).trans (whenIdle_idle hidle _)
  have colour := (execDrawColourBitmap_eq x y w h p s).trans (whenIdle_idle hidle _)
  have mono := (execDrawMonoBitmap_eq x y w h p fg bg s).trans (whenIdle_idle hidle _)
  refine ⟨fun hbad => ?_, fun hw hh hx hy => ?_⟩
  · have unfit : ¬ rectangleFits x y w h = true := fun hrect => by
      have := rectangleFits_iff.1 hrect
      omega
    have refused := requireRectangle_of_not_fits unfit
    exact ⟨fill.trans (refused _), colour.trans (refused _), mono.trans (refused _)⟩
  · have fits := requireRectangle_of_fits (rectangleFits_iff.2 ⟨hw, hh, hx, hy⟩)
    have pixels : 1 ≤ w.toNat * h.toNat := Nat.mul_pos hw hh
    have bytes : 1 ≤ h.toNat * ((w.toNat + 7) / 8) := Nat.mul_pos hh (by omega)
    refine ⟨fun hwrap => colour.trans ((fits _).trans (requireRange_of_not_fits ?_ _)),
      fun hwrap => mono.trans ((fits _).trans (requireRange_of_not_fits ?_ _))⟩
    · unfold totalBytes
      omega
    · unfold monoBytes rowStride
      omega

end Sys2Proof.Machine

namespace Sys2Proof.Machine

/-! ### plotPixel -/

theorem exec_plotPixel_out_of_range {s : State} {x y : Half} (hidle : s.seq = .idle)
    (hout : s.cfg.panelWidth ≤ x.toNat ∨ s.cfg.panelHeight ≤ y.toNat) (c : Half) :
    exec (.plotPixel x y c) s = .next (retire (accept (loadOperands (.plotPixel x y c)) s)) := by
  have outside : ¬ (x.toNat < s.cfg.panelWidth ∧ y.toNat < s.cfg.panelHeight) := by omega
  exact (execPlotPixel_eq x y c s).trans ((whenIdle_idle hidle _).trans (if_neg outside))

/-- The twelfth transmit of a plot, behind its window of eleven, whose answers are all `OK`. -/
theorem syncTx_setWindow_ok {s : State} (xs ys xe ye : Half) (bs : List Byte) (hok : NoSyncTimeout 12 s) :
    syncTx bs (setWindow xs ys xe ye s) = { put (windowEvents s.cfg xs ys xe ye ++ tagged .data bs) s with
      dc := .data, draws := s.draws + 12 } := by
  rw [setWindow_ok xs ys xe ye s fun j hj => hok j (by omega), syncTx_ok bs _ (hok 11 (by omega)), ← put_put]
  rfl

/-- Settles O14: in range the plot is its window and one transmit of two bytes, out of range nothing but acceptance and
retirement. -/
theorem plotPixelResult : Obligations.PlotPixelResult := by
  intro s x y c hidle
  refine ⟨fun hx hy hfree hok => ?_, fun hout => ?_⟩
  · have accepted : NoSyncTimeout 12 (accept (loadOperands (.plotPixel x y c)) s) := hok
    rw [exec_plotPixel_of_free hidle hfree hx hy c, syncTx_setWindow_ok x y x y _ accepted, retire, ← hidle]
    rfl
  · rw [exec_plotPixel_out_of_range hidle hout c, retire, ← hidle]
    rfl

/-- Settles O55: the thirteen events of the plot are a window of one pixel and a stream of one. -/
theorem plotPixelDrawsItsPixel : Obligations.PlotPixelDrawsItsPixel := by
  intro s x y c _ hidle hfree hok hcodes hready hrising hx hy
  obtain ⟨in_range, -⟩ := plotPixelResult s x y c hidle
  obtain ⟨-, -, drawn, others⟩ := panelPlacesTheStreamInRowMajorOrder s.cfg s.panel x y x y [c] hcodes hready
    hrising (Nat.le_refl _) hx (Nat.le_refl _) hy (by simp)
  have pixel := drawn 0 Nat.zero_lt_one
  rw [Nat.zero_mod, Nat.zero_div] at pixel
  refine ⟨_, in_range hx hy hfree hok, pixel, fun hmid col row hcol hother => ?_⟩
  refine others hmid col row hcol fun k hk => ?_
  obtain rfl : k = 0 := by simpa using hk
  simpa using hother

end Sys2Proof.Machine

namespace Sys2Proof.Machine

/-! ### fillRectangle -/

theorem totalBytes_eq (w h : Half) : totalBytes w h = 2 * totalPixels w h := Nat.mul_comm _ 2

/-- The state of a fill before its chunk loop, the eleven transmits of its window completed (44 R152). -/
theorem fillOpened_ok (x y w h c : Half) {s : State} (hok : NoSyncTimeout 11 s) :
    fillOpened x y w h c s = { s with
      ops := { s.ops with x := x, y := y, w := w, h := h, c0 := c }
      stg := List.replicate s.cfg.n (slotOf c)
      rem := totalBytes w h
      dc := .data
      wire := s.wire ++ windowEvents s.cfg x y (endCoord x w) (endCoord y h)
      panel := (windowEvents s.cfg x y (endCoord x w) (endCoord y h)).foldl (Panel.receive s.cfg) s.panel
      draws := s.draws + 11 } := by
  rw [fillOpened, openWindow_accept_ok _ x y w h hok]
  rfl

/-- Settles O26: behind its window the fill is its chunk loop, which XFER's turns carry to the end. -/
theorem fillRectangleResult : Obligations.FillRectangleResult := by
  intro s x y w h c rest hwf hready hrect hok hturns
  obtain ⟨hidle, hfree, hdone⟩ := hready
  rw [totalBytes_eq] at hturns
  have fuel : totalPixels w h ≤ totalBytes w h := Nat.le_mul_of_pos_right _ two_pos
  rw [exec_fillRectangle_of_free hidle hfree hrect c, fillOpened_ok x y w h c hok]
  refine Eq.trans (streamLoop_fill c _ (totalPixels w h) rest _ (one_le_n_of_wf (by exact hwf))
    (by exact totalBytes_eq w h) fuel (by exact hdone) (by exact hfree) rfl rfl (by exact hturns)) ?_
  simp only [retire, totalBytes_eq, ← hidle, List.append_assoc, List.foldl_append]

/-- The last coordinate of a rectangle whose extent is positive and ends inside 16 bits (30_encoding R100). -/
theorem endCoord_toNat {origin size : Half} (hend : origin.toNat + size.toNat - 1 ≤ 65535) :
    (endCoord origin size).toNat = origin.toNat + size.toNat - 1 := by
  rw [endCoord, BitVec.toNat_ofNat, Nat.mod_eq_of_lt (by omega)]

/-- The pixels of a rectangle `w` wide and `h` high are its places in row-major order (20_memory R64). -/
theorem exists_rowMajor_iff {w h i j : Nat} (hw : 1 ≤ w) :
    (∃ k < w * h, i = k % w ∧ j = k / w) ↔ i < w ∧ j < h := by
  constructor
  · rintro ⟨k, hk, rfl, rfl⟩
    exact ⟨Nat.mod_lt k hw, Nat.div_lt_of_lt_mul hk⟩
  · rintro ⟨hi, hj⟩
    have mod : (i + w * j) % w = i := by rw [Nat.add_mul_mod_self_left, Nat.mod_eq_of_lt hi]
    have div : (i + w * j) / w = j := by rw [Nat.add_mul_div_left _ _ hw, Nat.div_eq_of_lt hi, Nat.zero_add]
    have bound : w * (j + 1) ≤ w * h := Nat.mul_le_mul_left w hj
    rw [Nat.mul_succ] at bound
    exact ⟨i + w * j, by omega, mod.symm, div.symm⟩

/-- Settles O56: the fill's events are the window of the rectangle and a stream of as many pixels as it holds. -/
theorem fillRectangleFillsItsRectangle : Obligations.FillRectangleFillsItsRectangle := by
  intro s x y w h c rest hwf hready hrect hok hturns hcodes hpanel hrising hwidth hheight
  obtain ⟨hw, hh, hxend, hyend⟩ := rectangleFits_iff.1 hrect
  have xe := endCoord_toNat hxend
  have ye := endCoord_toNat hyend
  have columns : (endCoord x w).toNat - x.toNat + 1 = w.toNat := by omega
  have rows : (endCoord y h).toNat - y.toNat + 1 = h.toNat := by omega
  have streamed := panelPlacesTheStreamInRowMajorOrder s.cfg s.panel x y (endCoord x w) (endCoord y h)
    (List.replicate (totalPixels w h) c) hcodes hpanel hrising (by omega) (by omega) (by omega) (by omega)
  simp only [columns, rows, List.length_replicate, List.getElem_replicate] at streamed
  obtain ⟨-, -, drawn, others⟩ := streamed (Nat.le_refl _)
  refine ⟨_, fillRectangleResult s x y w h c rest hwf hready hrect hok hturns, fun col row hcol => ⟨?_, ?_⟩⟩
  · rintro ⟨hx, hx', hy, hy'⟩
    have inside : col - x.toNat < w.toNat ∧ row - y.toNat < h.toNat := by omega
    obtain ⟨k, hk, hi, hj⟩ := (exists_rowMajor_iff hw).2 inside
    obtain rfl : col = x.toNat + k % w.toNat := by omega
    obtain rfl : row = y.toNat + k / w.toNat := by omega
    exact drawn k hk
  · intro hout hmid
    refine others hmid col row hcol fun k hk place => hout ?_
    obtain ⟨hi, hj⟩ := (exists_rowMajor_iff hw).1 ⟨k, hk, rfl, rfl⟩
    obtain ⟨rfl, rfl⟩ := place
    exact ⟨Nat.le_add_right _ _, Nat.add_lt_add_left hi _, Nat.le_add_right _ _, Nat.add_lt_add_left hj _⟩

end Sys2Proof.Machine

namespace Sys2Proof.Machine

/-! ### A stream that goes on where it held -/

/-- The state of a stream once the chunk it awaited is off its counters, before the turns `ts`. -/
abbrev chunkTaken (op : Stream) (ts : List Turn) (s : State) : State := advanceChunk op (withTurns ts s)

/-- ENGINE's turn takes a completed chunk off the counters and goes on with the chunk loop (43 R131). -/
theorem step_awaitChunk_done {op : Stream} {s : State} {ts : List Turn} (hseq : s.seq = .busy (.awaitChunk op))
    (hdone : s.done = true) (hturns : s.turns = .engine :: ts) : step s = stream op (chunkTaken op ts s) := by
  have tail : s.turns.tail = ts := by rw [hturns]; rfl
  rw [step_of_engineMoves ⟨ts, hturns⟩, tail, engineTurn_busy (s := withTurns ts s) hseq]
  exact if_pos hdone

/-- A range that starts at `k`, counted from zero. -/
theorem map_range'_eq {α : Type} (f : Nat → α) (k n : Nat) :
    (List.range' k n).map f = (List.range n).map fun j => f (k + j) := by
  rw [List.range'_eq_map_range, List.map_map]
  rfl

/-- Settles O34: the chunk loop goes on from the counters and the cursor as they stand. -/
theorem heldStreamsGoOnWhereTheyHeld : Obligations.HeldStreamsGoOnWhereTheyHeld := by
  refine ⟨fun s px rest hwf hseq hdone hfree hdc hstg hrem hturns => ?fill,
    fun s img rest hwf hseq hdone hfree hdc hlen hrange himg hturns => ?colour,
    fun s k px img rest hwf hseq hdone hfree hdc hsized hw hrem hpx hcursor hlen hrange himg hturns => ?mono⟩
  case fill =>
    have fuel : px ≤ s.rem - min s.rem s.cfg.nb := by omega
    exact (step_awaitChunk_done hseq hdone hturns).trans (streamLoop_fill s.ops.c0 _ px rest (chunkTaken .fill _ s)
      (one_le_n_of_wf hwf) hrem fuel hdone hfree hstg hdc rfl)
  case colour =>
    exact (step_awaitChunk_done hseq hdone hturns).trans (streamLoop_colour _ img rest (chunkTaken .colour _ s)
      (one_le_n_of_wf hwf) hlen.symm (Nat.le_of_eq hlen) hdone hfree hdc hrange himg rfl)
  case mono =>
    obtain ⟨stg, cnt, sent⟩ := streamLoop_mono _ s.ops.ptr.toNat k px img s.ops.h rest
      (chunkTaken .mono (List.replicate (streamTurns s.cfg.nb (2 * px)) .xfer ++ rest) s) (one_le_n_of_wf hwf) hrem
      (Nat.le_of_eq hrem.symm) hdone hfree hdc hsized hw hcursor (Nat.le_of_eq hpx) hlen hrange himg rfl
    have colours := map_range'_eq (monoColour s.ops.w s.ops.c0 s.ops.c1 img) k px
    have reads := map_range'_eq (fun j => s.ops.ptr.toNat + monoOffset s.ops.w j) k px
    have cursor : cursorAt s.ops.w s.ops.ptr.toNat (k + px) = ⟨s.ops.ptr.toNat + img.length, 0x80, 0⟩ := by
      rw [hpx, cursorAt_end _ _ _ hw, hlen]
    refine ⟨stg, cnt, (step_awaitChunk_done hseq hdone hturns).trans (sent.trans ?_)⟩
    rw [← colours, ← reads, ← cursor]
    rfl

end Sys2Proof.Machine

namespace Sys2Proof.Machine

/-! ### The end of a stream -/

theorem leads_of_forall {I : State → Prop} {o : Out} (h : ∀ t, o = .next t → I t) : Leads I o :=
  meets_of_forall h (fun _ _ => trivial) (fun _ _ => trivial)

/-- Whatever comes first, what follows it leads to `I`. -/
theorem leads_andThen {I : State → Prop} (o : Out) {f : State → Out} (h : ∀ m, Leads I (f m)) :
    Leads I (andThen o f) :=
  Meets.andThen (leads_of_forall fun m _ => h m)

/-- If the engine is idle, the flag is up. -/
def IdleDone (t : State) : Prop := t.seq = .idle → t.done = true

theorem idleDone_of_busy {t : State} {pos : Position} (h : t.seq = .busy pos) : IdleDone t :=
  fun hidle => nomatch h.symm.trans hidle

/-- With the flag up the chunk loop ends with the flag up, or holds. -/
theorem streamLoop_idleDone (op : Stream) (fuel : Nat) {s : State} (hdone : s.done = true) :
    Leads IdleDone (streamLoop op fuel s) := by
  refine streamLoop_meets (I := fun s => s.done = true) op (fun s _ _ => leads_of_forall fun t _ => ?_)
    (fun s hs _ => hs) fuel s hdone
  split
  · exact (advanceChunk_done op t).trans ‹_›
  · exact idleDone_of_busy rfl

/-- A stream with something left to send awaits a chunk of it, whatever the flag was. -/
theorem stream_idleDone (op : Stream) {s : State} (h : s.done = true ∨ s.rem ≠ 0) :
    Leads IdleDone (stream op s) := by
  rcases h with hdone | hrem
  · exact streamLoop_idleDone op _ hdone
  · obtain ⟨fuel, hfuel⟩ := Nat.exists_eq_succ_of_ne_zero hrem
    rw [stream, hfuel, streamLoop, if_neg hrem]
    refine leads_andThen _ fun t => ?_
    split
    · exact streamLoop_idleDone op fuel ((advanceChunk_done op t).trans ‹_›)
    · exact idleDone_of_busy rfl

/-! #### In the step that accepts it -/

/-- With the flag up no transfer is in flight: the half of 10_state R36 (i) that every single action keeps, whatever the
state. -/
def FreeWhenDone (s : State) : Prop := s.done = true → s.xfer = none

theorem actionsKeep_freeWhenDone : ActionsKeep FreeWhenDone where
  perform p _ hs := perform_leads (fun _ => hs) (fun _ _ _ => hs) (fun _ _ up => nomatch up) (fun _ _ _ _ _ _ _ => hs) p
  xferStep _ hs := xferStep_meets (fun _ => hs) (fun _ _ _ _ hx _ _ up => nomatch hx.symm.trans (hs up))
    (fun _ _ _ _ => rfl) (fun _ _ _ _ _ => trivial) trivial fun _ _ _ _ _ _ => trivial
  book _ _ _ _ _ _ _ hs := hs
  advanceChunk op s hs up := (advanceChunk_xfer op s).trans (hs ((advanceChunk_done op s).symm.trans up))

/-- Idle with nothing in flight, or not idle: what 10_state R36 (iv) says of a streaming operation. -/
def IdleAtRest (t : State) : Prop := t.seq = .idle → t.done = true ∧ t.xfer = none

theorem stream_idleAtRest (op : Stream) {s : State} (hfree : s.xfer = none) (hrem : s.rem ≠ 0) :
    Leads IdleAtRest (stream op s) := by
  refine leads_of_forall fun t ht hidle => ?_
  have up : t.done = true := (stream_idleDone op (.inr hrem)).of_next ht hidle
  exact ⟨up, (actionsKeep_freeWhenDone.stream op fun _ => hfree).of_next ht up⟩

/-- The three operations that stream chunks (44 R154). -/
def Streams (i : Instr) : Prop :=
  (∃ x y w h c, i = .fillRectangle x y w h c) ∨ (∃ x y w h p, i = .drawColourBitmap x y w h p) ∨
    (∃ x y w h p fg bg, i = .drawMonoBitmap x y w h p fg bg)

/-- An accepted streaming operation is a stream on a free bus with pixels to send. -/
theorem exec_idleAtRest {i : Instr} (hstream : Streams i) (s : State) : Leads IdleAtRest (exec i s) := by
  have free (load : Latches → Latches) (op : Stream) {f : State → State} (hx : ∀ u, (f u).xfer = u.xfer)
      (hrem : ∀ u, (f u).rem ≠ 0) : Leads IdleAtRest (onFreeBus (accept load s) fun u => stream op (f u)) :=
    onFreeBus_meets (fun hfree => stream_idleAtRest op ((hx _).trans hfree) (hrem _)) fun _ => trivial
  rcases hstream with ⟨x, y, w, h, c, rfl⟩ | ⟨x, y, w, h, p, rfl⟩ | ⟨x, y, w, h, p, fg, bg, rfl⟩
  · rw [exec, execFillRectangle_eq]
    refine whenIdle_meets (fun _ => requireRectangle_meets (fun hrect => ?_) trivial) trivial
    exact free _ .fill (fun _ => by simp) fun _ => totalBytes_ne_zero hrect
  · rw [exec, execDrawColourBitmap_eq]
    refine whenIdle_meets (fun _ => requireRectangle_meets (fun hrect => ?_) trivial) trivial
    refine requireRange_meets (fun _ => ?_) trivial
    exact free _ .colour (fun _ => by simp) fun _ => totalBytes_ne_zero hrect
  · rw [exec, execDrawMonoBitmap_eq]
    refine whenIdle_meets (fun _ => requireRectangle_meets (fun hrect => ?_) trivial) trivial
    refine requireRange_meets (fun _ => ?_) trivial
    exact free _ .mono (fun _ => by simp) fun _ => totalPixels_ne_zero hrect

/-! #### From a position inside it -/

theorem place_done (todo : List Primitive) (e : Ending) (s : State) : (place todo e s).done = s.done := by
  rw [place_frame]

theorem place_idleDone (todo : List Primitive) (e : Ending) {s : State} (hdone : s.done = true) :
    IdleDone (place todo e s) := fun _ => (place_done todo e s).trans hdone

theorem place_awaitChunk_idleDone (todo : List Primitive) (op : Stream) (s : State) :
    IdleDone (place todo (.awaitChunk op) s) := by
  cases todo <;> exact idleDone_of_busy rfl

theorem awaitChunk_idleDone (op : Stream) (s : State) : Leads IdleDone (awaitChunk op s) := by
  refine leads_andThen _ fun t => ?_
  split
  · exact stream_idleDone op (.inl ((advanceChunk_done op t).trans ‹_›))
  · exact idleDone_of_busy rfl

/-- What a streaming operation does before its chunk loop leaves the flag alone. -/
theorem perform_opens_done {op : Stream} {p : Primitive} (hp : opens op p = true) (s : State) :
    Leads (fun m => m.done = s.done) (perform p s) := by
  cases p with
  | drive | transmit =>
    unfold perform
    refine onFreeBus_meets (fun _ => ?_) fun _ => trivial
    rfl
  | fillSlots => rfl
  | setCounters op => cases op <;> rfl
  | _ => cases hp

theorem performAll_opens_done {op : Stream} {todo : List Primitive} (hopens : ∀ p ∈ todo, opens op p = true)
    (s : State) : Leads (fun m => m.done = s.done) (performAll todo s) := by
  induction todo generalizing s with
  | nil => rfl
  | cons p ps ih =>
    have rest := ih fun q hq => hopens q (List.mem_cons_of_mem p hq)
    exact ((perform_opens_done (hopens p List.mem_cons_self) s).weaken fun m hm =>
      (rest m).weaken fun t ht => ht.trans hm).andThen

/-- Where a streaming operation stands: before its chunk loop with the flag up, inside a turn of it, or at its
`awaitCompletion`. -/
theorem stream_position {s : State} {pos : Position} {op : Stream} (h : Inv s) (hseq : s.seq = .busy pos)
    (hpos : pos.stream = some op) :
    (∃ todo, pos = .line todo (.loop op) ∧ s.done = true ∧ ∀ p ∈ todo, opens op p = true) ∨
      (∃ todo, pos = .line todo (.awaitChunk op)) ∨ pos = .awaitChunk op := by
  rcases pos with ⟨todo, _ | o | _ | o⟩ | _ | o <;> cases hpos
  · obtain ⟨hfree, hopening⟩ := h.place todo _ hseq
    exact .inl ⟨todo, rfl, h.parts.done_of_no_transfer hfree, hopening.opening⟩
  · exact .inr (.inl ⟨todo, rfl⟩)
  · exact .inr (.inr rfl)

section
variable {s : State} {pos : Position} {op : Stream} (h : Inv s) (hseq : s.seq = .busy pos) (hpos : pos.stream = some op)
include h hseq hpos

theorem advance_idleDone : Leads IdleDone (advance pos s) := by
  rcases stream_position h hseq hpos with ⟨todo, rfl, hdone, hopens⟩ | ⟨todo, rfl⟩ | rfl
  · cases todo with
    | nil => exact place_idleDone [] _ hdone
    | cons p ps =>
      refine Meets.andThen ((perform_opens_done (hopens p List.mem_cons_self) s).weaken fun m hm => ?_)
      exact place_idleDone ps _ (hm.trans hdone)
  · cases todo with
    | nil => exact place_awaitChunk_idleDone [] op s
    | cons p ps =>
      exact leads_andThen _ fun m => place_awaitChunk_idleDone ps op m
  · simp only [advance]
    split
    · exact place_idleDone [] _ ((advanceChunk_done op s).trans ‹_›)
    · exact idleDone_of_busy hseq

theorem resume_idleDone : Leads IdleDone (resume pos s) := by
  rcases stream_position h hseq hpos with ⟨todo, rfl, hdone, hopens⟩ | ⟨todo, rfl⟩ | rfl
  · refine Meets.andThen ((performAll_opens_done hopens s).weaken fun m hm => ?_)
    exact stream_idleDone op (.inl (hm.trans hdone))
  · exact leads_andThen _ fun m => awaitChunk_idleDone op m
  · simp only [resume]
    split
    · exact stream_idleDone op (.inl ((advanceChunk_done op s).trans ‹_›))
    · exact idleDone_of_busy hseq

/-- Inside a streaming operation only ENGINE makes the engine idle, and it does so with the flag up. -/
theorem step_idleDone : Leads IdleDone (step s) := by
  refine step_meets (fun ts => ?_) (fun ts => ?_) (fun ts => ?_)
    fun _ _ _ => hostWrite_meets (idleDone_of_busy hseq) trivial trivial
  · rw [primitiveTurn_busy (s := withTurns ts s) hseq]
    exact advance_idleDone (h.withTurns ts) hseq hpos
  · rw [engineTurn_busy (s := withTurns ts s) hseq]
    exact resume_idleDone (h.withTurns ts) hseq hpos
  · exact leads_of_forall fun t ht => idleDone_of_busy ((xferStep_keeps_place ht).1.trans hseq)

end

/-- Settles O58: a stream retires behind a chunk that it has awaited; that its flag is up then says that nothing is in
flight. -/
theorem streamingOperationsRetireWithNothingInFlight : Obligations.StreamingOperationsRetireWithNothingInFlight := by
  refine ⟨fun i s t hstream hexec => (exec_idleAtRest hstream s).of_next hexec,
    fun s t pos op h hseq hpos hstep hidle => ?_⟩
  have kept : Inv t := stepKeepsTheInvariant s t h hstep
  have up : t.done = true := (step_idleDone h hseq hpos).of_next hstep hidle
  exact ⟨up, kept.parts.no_transfer_of_done up⟩

end Sys2Proof.Machine

namespace Sys2Proof.Machine

/-! ### The mono cursor -/

/-- The cursor after `k` pixels, by one step of the closed form for each (45 R173). -/
theorem iterate_advanceCursor {w : Half} (hw : 1 ≤ w.toNat) (p k : Nat) :
    (advanceCursor w)^[k] ⟨p, 0x80, 0⟩ = cursorAt w p k := by
  induction k with
  | zero => exact (cursorAt_zero w p).symm
  | succ k ih => rw [Function.iterate_succ_apply', ih, advanceCursor_cursorAt w p k hw]

/-- Settles O31: the closed form holds before the first pixel, and one pixel takes it to the next. -/
theorem cursorClosedForm : Obligations.CursorClosedForm := fun _ p k hw => iterate_advanceCursor hw p k

/-- Settles O30: the colour is the source bit's, and the cursor moves as `advanceCursor_eq` says of one with bit `7 - k`
of its mask set. -/
theorem unpackOneAdvancesTheCursor : Obligations.UnpackOneAdvancesTheCursor := by
  intro s i b k hk hmask hp hb rowEnd next
  have cursor : s.cursor = ⟨s.cursor.p, (0x80 : Byte) >>> k, s.cursor.col⟩ := by rw [← hmask]
  have moved : advanceCursor s.ops.w s.cursor = ⟨if next then s.cursor.p + 1 else s.cursor.p,
      if next then 0x80 else (0x80 : Byte) >>> (k + 1), if rowEnd then 0 else s.cursor.col + 1⟩ := by
    rw [cursor, advanceCursor_eq _ _ _ _ hk]
    simp only [next, rowEnd, Bool.or_eq_true, decide_eq_true_eq]
  rw [unpackOne_eq i s b k hk hmask hp hb, moved]
  rfl

/-! ### The addresses of a mono bitmap -/

/-- The first pixel of a byte of a row is a pixel of that row: only the last byte of a row has padding bits (30_encoding
R94). -/
theorem eight_mul_lt_of_lt_rowStride {w : Half} {c : Nat} (hc : c < rowStride w) : 8 * c < w.toNat := by
  unfold rowStride at hc
  omega

/-- Settles O29: the byte at `j` is byte `j % S` of row `j / S`, and the first of its pixels reads it. -/
theorem closedFormAddressesAreTheBitmapsBytes : Obligations.ClosedFormAddressesAreTheBitmapsBytes := by
  intro w h hw j
  refine ⟨fun ⟨k, hk, offset⟩ => offset ▸ monoOffset_lt w h k hk, fun hj => ?_⟩
  have stride : 0 < rowStride w := Nat.pos_of_mul_pos_left (Nat.zero_lt_of_lt hj)
  have row : j / rowStride w < h.toNat := Nat.div_lt_of_lt_mul (Nat.mul_comm h.toNat _ ▸ hj)
  have column := eight_mul_lt_of_lt_rowStride (Nat.mod_lt j stride)
  obtain ⟨k, hk, mod, div⟩ := (exists_rowMajor_iff hw).2 ⟨column, row⟩
  refine ⟨k, hk, ?_⟩
  rw [monoOffset, ← mod, ← div, Nat.mul_div_cancel_left _ (by decide), Nat.div_add_mod']

/-! ### drawColourBitmap -/

/-- The state of a colour blit before its chunk loop, the eleven transmits of its window completed (45 R165). -/
theorem colourOpened_ok (x y w h : Half) (p : Word) {s : State} (hok : NoSyncTimeout 11 s) :
    colourOpened x y w h p s = { s with
      ops := { s.ops with x := x, y := y, w := w, h := h, ptr := p }
      stg := s.stg.map Slot.unwritten
      off := 0
      rem := totalBytes w h
      dc := .data
      wire := s.wire ++ windowEvents s.cfg x y (endCoord x w) (endCoord y h)
      panel := (windowEvents s.cfg x y (endCoord x w) (endCoord y h)).foldl (Panel.receive s.cfg) s.panel
      draws := s.draws + 11 } := by
  rw [colourOpened, openWindow_accept_ok _ x y w h hok]
  rfl

/-- Settles O27: behind its window the colour blit is its chunk loop, which XFER's turns carry to the end. -/
theorem drawColourBitmapResult : Obligations.DrawColourBitmapResult := by
  intro s x y w h p img rest hwf hready hrect hlen hrange himg hok hturns
  obtain ⟨hidle, hfree, hdone⟩ := hready
  rw [exec_drawColourBitmap_of_free hidle hfree hrect (hlen ▸ hrange), colourOpened_ok x y w h p hok]
  refine Eq.trans (streamLoop_colour _ img rest _ (one_le_n_of_wf (by exact hwf)) (by exact hlen.symm)
    (by exact Nat.le_of_eq hlen) (by exact hdone) (by exact hfree) rfl (by exact hrange) (by exact himg)
    (by exact hturns)) ?_
  simp only [retire, colourSent, ← hidle, Nat.zero_add, Nat.add_zero, List.append_assoc, List.foldl_append]

/-! ### drawMonoBitmap -/

/-- The state of a mono blit before its chunk loop, the eleven transmits of its window completed (45 R167). -/
theorem monoOpened_ok (x y w h : Half) (p : Word) (fg bg : Half) {s : State} (hok : NoSyncTimeout 11 s) :
    monoOpened x y w h p fg bg s = { s with
      ops := { s.ops with x := x, y := y, w := w, h := h, ptr := p, c0 := fg, c1 := bg }
      stg := s.stg.map Slot.unwritten
      cursor := ⟨p.toNat, 0x80, 0⟩
      rem := totalPixels w h
      dc := .data
      wire := s.wire ++ windowEvents s.cfg x y (endCoord x w) (endCoord y h)
      panel := (windowEvents s.cfg x y (endCoord x w) (endCoord y h)).foldl (Panel.receive s.cfg) s.panel
      draws := s.draws + 11 } := by
  rw [monoOpened, openWindow_accept_ok _ x y w h hok]
  rfl

/-- Settles O28: the chunk loop sends all pixels from the first on, and the cursor behind the last is behind the bitmap. -/
theorem drawMonoBitmapResult : Obligations.DrawMonoBitmapResult := by
  intro s x y w h p fg bg img rest hwf hready hsized hrect hlen hrange himg hok hturns
  obtain ⟨stg, cnt, sent⟩ := exists_execDrawMonoBitmap (fg := fg) (bg := bg) hwf hready hsized hrect hlen hrange himg
    hturns
  obtain ⟨hidle, -, -⟩ := hready
  refine ⟨stg, cnt, sent.trans ?_⟩
  rw [monoOpened_ok x y w h p fg bg hok]
  simp only [retire, monoSent, monoColours, Nat.zero_add, cursorAt_end w h _ (rectangleFits_width hrect), hlen,
    ← totalBytes_eq, ← List.range_eq_range', ← hidle, List.append_assoc, List.foldl_append]

/-- Settles O57: in the result of a mono blit the capacity is in the chunks of the transfers, not in the wire. -/
theorem monoWireIsIndependentOfCapacity : Obligations.MonoWireIsIndependentOfCapacity := by
  intro s x y w h p fg bg img n' stg' rest rest' hwf hwf' hready hsized hsized' hrect hlen hrange himg hok hturns s'
  obtain ⟨_, _, run⟩ := drawMonoBitmapResult s x y w h p fg bg img rest hwf hready hsized hrect hlen hrange himg hok
    hturns
  obtain ⟨_, _, run'⟩ := drawMonoBitmapResult s' x y w h p fg bg img rest' hwf' hready hsized' hrect hlen hrange himg
    hok rfl
  exact ⟨_, _, run, run', rfl⟩

end Sys2Proof.Machine

namespace Sys2Proof.Machine

/-! ### reset() -/

theorem exec_reset_of_free {s : State} {q : PinSequence} (hidle : s.seq = .idle) (hfree : s.xfer = none)
    (hsequence : s.cfg.resetSeq = some q) :
    exec .reset s = .next (retire { writeDC (Config.freeMode s.draws) (accept (loadOperands .reset) s) with
      draws := s.draws + 1
      panel := Panel.unspecified true false (s.panel.draw + 1) }) := by
  refine (execReset_eq s).trans ((whenIdle_idle hidle _).trans ?_)
  simp only [hsequence]
  exact onFreeBus_free (by exact hfree) _

theorem exec_reset_without_sequence {s : State} (hidle : s.seq = .idle) (hsequence : s.cfg.resetSeq = none) :
    exec .reset s = .refused .noResetSequence := by
  refine (execReset_eq s).trans ((whenIdle_idle hidle _).trans ?_)
  simp only [hsequence]

/-- Settles O15: the two primitives of `reset()` act on the panel and on `DC`. -/
theorem panelResetResult : Obligations.PanelResetResult := by
  intro s hidle
  refine ⟨fun q hsequence hfree => ?_, exec_reset_without_sequence hidle⟩
  rw [exec_reset_of_free hidle hfree hsequence, retire, ← hidle]
  rfl

/-! ### The draws of the panel's free values -/

section
variable (cfg : Config) (p : Panel)

theorem draw_le_onCommand (b : Byte) : p.draw ≤ (p.onCommand cfg b).draw := by
  obtain ⟨-, settled⟩ := settled_keeps cfg p
  rcases onCommand_cases cfg p b with h | h | h <;> rw [h]
  · exact settled
  · exact settled
  · exact Nat.le_succ_of_le settled

/-- An address byte draws no earlier values where `set` draws none. -/
theorem draw_le_onAddressByte (size : Nat) (set : Half → Half → Panel → Panel) (b : Byte)
    (hset : ∀ start stop q, (set start stop q).draw = q.draw) : p.draw ≤ (p.onAddressByte size set b).draw := by
  unfold Panel.onAddressByte
  split
  · dsimp only
    split
    · rw [hset]
    · exact Nat.le_succ _
  · split
    · exact Nat.le_refl _
    · exact Nat.le_succ _

theorem draw_le_onPixelByte (b : Byte) : p.draw ≤ (p.onPixelByte cfg b).draw := by
  rcases onPixelByte_cases cfg p b with h | h | ⟨_, -, h⟩ <;> rw [h]
  exact Nat.le_succ _

theorem draw_le_onData (b : Byte) : p.draw ≤ (p.onData cfg b).draw := by
  unfold Panel.onData
  split
  · split
    · exact draw_le_onAddressByte p _ _ b fun _ _ _ => rfl
    · split
      · exact draw_le_onAddressByte p _ _ b fun _ _ _ => rfl
      · exact draw_le_onPixelByte cfg p b
  · exact Nat.le_succ _

/-- No byte of the wire takes the panel back to values drawn earlier (log 29). -/
theorem draw_le_receive (e : Event) : p.draw ≤ (p.receive cfg e).draw := by
  unfold Panel.receive
  split <;> split
  · exact draw_le_onCommand cfg p e.byte
  · exact draw_le_onData cfg p e.byte
  · exact Nat.le_succ _
  · exact Nat.le_succ _

theorem draw_le_foldl_receive (es : List Event) : p.draw ≤ (es.foldl (Panel.receive cfg) p).draw := by
  induction es generalizing p with
  | nil => exact Nat.le_refl _
  | cons e es ih => exact (draw_le_receive cfg p e).trans (ih _)

end

/-! ### init() -/

/-- Whether the panel is ready after `init()` does not depend on the bytes that reached it, but on `reset()` before them
(46 R192, log 19). -/
theorem afterInit_foldl_receive (cfg : Config) (p : Panel) (es : List Event) (complete : Bool) :
    (es.foldl (Panel.receive cfg) p).afterInit complete =
      { (es.foldl (Panel.receive cfg) p).afterInit complete with ready := p.wasReset && complete } := by
  rw [← foldl_receive_wasReset cfg es p]
  rfl

theorem exec_init_without_table {s : State} (hidle : s.seq = .idle) (htable : s.cfg.initSeq = none) :
    exec .init s = .refused .noInitTable := by
  refine (execInit_eq s).trans ((whenIdle_idle hidle _).trans ?_)
  simp only [htable]

/-- Settles O16: the table's events are sent, and the panel is then as `afterInit` leaves what received them. -/
theorem initResult : Obligations.InitResult := by
  intro s hidle
  refine ⟨fun table htable hfree hmark hok => ?completes, fun table htable hfree =>
    ⟨_, exec_init_of_free hidle hfree htable, ?wire, ?mark, ?draw, ?panel⟩, exec_init_without_table hidle⟩
  case completes =>
    rw [exec_init_of_free hidle hfree htable, sendEvents_ok _ (accept (loadOperands .init) s) (by exact hok)]
    simp only [put_panel, put_syncTimeout, accept_syncTimeout, hmark, Bool.not_false]
    rw [afterInit_foldl_receive, Bool.and_true, retire, ← hidle]
    rfl
  all_goals rw [sendEvents_eq]
  case wire => rfl
  case mark => rfl
  case draw => exact Nat.lt_succ_of_le (draw_le_foldl_receive s.cfg s.panel _)
  case panel => exact afterInit_foldl_receive s.cfg s.panel _ _

end Sys2Proof.Machine

namespace Sys2Proof.Machine

/-! ### No turn of any agent is a re-entry -/

/-- The answer is not the fault `Reentry` (60 R210). -/
abbrev NoReentry (o : Out) : Prop := FaultsIn (· ≠ .reentry) o

theorem NoReentry.andThen {o : Out} {f : State → Out} (h : NoReentry o) (hf : ∀ s, NoReentry (f s)) :
    NoReentry (andThen o f) :=
  (h.weaken fun s _ => hf s).andThen

theorem perform_noReentry (p : Primitive) (s : State) : NoReentry (perform p s) := by
  unfold perform
  cases p with
  | drive | transmit | resetPanel | driveFree =>
    exact onFreeBus_meets (fun _ => trivial) fun _ => by decide
  | tableSent | fillSlots | setCounters | setCount => trivial
  | unpack =>
    unfold unpackOne
    exact readSource_meets (fun _ _ _ => trivial) (by decide) trivial
  | beginDirect | beginChunk =>
    unfold beginTransfer
    exact whenDone_meets (fun _ => trivial) fun _ => by decide

theorem performAll_noReentry (todo : List Primitive) (s : State) : NoReentry (performAll todo s) := by
  induction todo generalizing s with
  | nil => trivial
  | cons p ps ih => exact (perform_noReentry p s).andThen ih

theorem xferStep_noReentry (s : State) : NoReentry (xferStep s) :=
  xferStep_meets (fun _ => trivial) (fun _ _ _ _ _ _ _ => trivial) (fun _ _ _ => trivial)
    (fun _ _ _ _ _ => by decide) (by decide) fun _ _ _ _ _ _ => trivial

theorem xferTurns_noReentry (s : State) : NoReentry (xferTurns s.turns s) :=
  xferTurns_meets (fun _ _ _ _ => xferStep_noReentry _) s.turns s trivial

theorem stream_noReentry (op : Stream) (s : State) : NoReentry (stream op s) := by
  refine streamLoop_meets (I := fun _ => True) op (fun s _ _ => ?_) (fun _ _ => trivial) s.rem s trivial
  have turn : NoReentry (chunkTurn op s) := (performAll_noReentry _ s).andThen xferTurns_noReentry
  exact turn.weaken fun t _ => by split <;> trivial

theorem finish_noReentry (e : Ending) (s : State) : NoReentry (finish e s) := by
  cases e with
  | retire => trivial
  | loop op => exact stream_noReentry op s
  | awaitDirect =>
    refine (xferTurns_noReentry s).andThen fun t => ?_
    split <;> trivial
  | awaitChunk op =>
    refine (xferTurns_noReentry s).andThen fun t => ?_
    split
    · exact stream_noReentry op _
    · trivial

theorem run_noReentry (todo : List Primitive) (e : Ending) (s : State) : NoReentry (run todo e s) :=
  (performAll_noReentry todo s).andThen (finish_noReentry e)

/-- An engine that is busy goes on with its operation; it accepts none. -/
theorem resume_noReentry (pos : Position) (s : State) : NoReentry (resume pos s) := by
  cases pos with
  | line todo e => exact run_noReentry todo e s
  | awaitDirect =>
    simp only [resume]
    split <;> trivial
  | awaitChunk op =>
    simp only [resume]
    split
    · exact stream_noReentry op _
    · trivial

theorem advance_noReentry (pos : Position) (s : State) : NoReentry (advance pos s) := by
  cases pos with
  | line todo e =>
    cases todo with
    | nil => trivial
    | cons p ps => exact (perform_noReentry p s).andThen fun _ => trivial
  | awaitDirect | awaitChunk =>
    simp only [advance]
    split <;> trivial

/-! ### Acceptance in the idle and in the busy engine -/

/-- An idle engine's acceptance is a re-entry only if what takes its line over is one. -/
theorem acceptInstr_noReentry {k : Begin} {s : State} (hidle : s.seq = .idle)
    (hk : ∀ todo e s, NoReentry (k todo e s)) (i : Instr) : NoReentry (acceptInstr i s k) := by
  have idle {f : State → Out} (hf : NoReentry (f s)) : NoReentry (whenIdle s f) := (whenIdle_idle hidle f).symm ▸ hf
  have free (load : Latches → Latches) (todo : State → List Primitive) (e : Ending) :
      NoReentry (onFreeBus (accept load s) fun s => k (todo s) e s) :=
    onFreeBus_meets (fun _ => hk _ _ _) fun _ => by decide
  cases i with
  | reset | init =>
    simp only [acceptInstr, acceptReset, acceptInit]
    refine idle ?_
    split
    · trivial
    · exact free _ _ _
  | plotPixel =>
    simp only [acceptInstr, acceptPlotPixel]
    refine idle ?_
    split
    · exact free _ _ _
    · exact hk _ _ _
  | drawColourBitmap | drawMonoBitmap =>
    simp only [acceptInstr, acceptDrawColourBitmap, acceptDrawMonoBitmap]
    exact idle (requireRectangle_meets (fun _ => requireRange_meets (fun _ => free _ _ _) trivial) trivial)
  | fillRectangle =>
    simp only [acceptInstr, acceptFillRectangle]
    exact idle (requireRectangle_meets (fun _ => free _ _ _) trivial)
  | sendCommand | sendDataByte | setWindow =>
    simp only [acceptInstr, acceptSendCommand, acceptSendDataByte, acceptSetWindow]
    exact idle (free _ _ _)
  | beginAsyncTransfer =>
    simp only [acceptInstr, acceptBeginAsyncTransfer]
    refine idle ?_
    split
    · trivial
    · exact requireRange_meets (fun _ => whenDone_meets (fun _ => hk _ _ _) fun _ => by decide) trivial
  | awaitCompletion =>
    simp only [acceptInstr, acceptAwaitCompletion]
    exact idle (hk _ _ _)

theorem whenIdle_busy {s : State} {pos : Position} (hbusy : s.seq = .busy pos) (k : State → Out) :
    whenIdle s k = .fault .reentry := by
  rw [whenIdle, hbusy]

/-- The first thing every acceptance tests is the phase (10_state R22). -/
theorem acceptInstr_busy {s : State} {pos : Position} (hbusy : s.seq = .busy pos) (i : Instr) (k : Begin) :
    acceptInstr i s k = .fault .reentry := by
  cases i <;>
    simp only [acceptInstr, acceptReset, acceptInit, acceptPlotPixel, acceptDrawColourBitmap, acceptDrawMonoBitmap,
      acceptFillRectangle, acceptSendCommand, acceptSendDataByte, acceptSetWindow, acceptBeginAsyncTransfer,
      acceptAwaitCompletion, whenIdle_busy hbusy]

theorem acceptNext_noReentry {k : Begin} {s : State} (hidle : s.seq = .idle)
    (hk : ∀ todo e s, NoReentry (k todo e s)) : NoReentry (acceptNext s fun i s => acceptInstr i s k) :=
  acceptNext_meets trivial (fun _ _ i => acceptInstr_noReentry (by exact hidle) hk i) trivial

/-! ### Every turn -/

theorem engineTurn_noReentry (s : State) : NoReentry (engineTurn s) := by
  rcases hseq : s.seq with _ | pos
  · rw [engineTurn_accepts hseq]
    exact acceptNext_noReentry hseq run_noReentry
  · rw [engineTurn_busy hseq]
    exact resume_noReentry pos s

theorem primitiveTurn_noReentry (s : State) : NoReentry (primitiveTurn s) := by
  rcases hseq : s.seq with _ | pos
  · rw [primitiveTurn_idle hseq]
    exact acceptNext_noReentry (k := begun) hseq fun _ _ _ => trivial
  · rw [primitiveTurn_busy hseq]
    exact advance_noReentry pos s

theorem step_noReentry (s : State) : NoReentry (step s) :=
  step_meets (fun _ => primitiveTurn_noReentry _) (fun _ => engineTurn_noReentry _) (fun _ => xferStep_noReentry _)
    fun _ _ _ => hostWrite_meets trivial (by decide) (by decide)

/-- Settles O43: ENGINE accepts a request only in its idle phase, and the acceptance of an operation in any other is the
fault. -/
theorem reentryCannotBeExpressed : Obligations.ReentryCannotBeExpressed :=
  ⟨fun s hfault => (step_noReentry s).of_fault hfault rfl,
    fun s _ i hbusy => (exec_eq_run i s).trans (acceptInstr_busy hbusy i run)⟩

end Sys2Proof.Machine

namespace Sys2Proof.Machine

/-! ### The frames of the operations without a transfer -/

/-- From `s` to `t` at most `DC`, the wire, the panel, the mark and the draws change: all that the actions of an operation
without a transfer can write. -/
def TransmitFrame (s t : State) : Prop :=
  t = { s with dc := t.dc, wire := t.wire, panel := t.panel, syncTimeout := t.syncTimeout, draws := t.draws }

theorem transmitFrame_refl (s : State) : TransmitFrame s s := rfl

theorem transmitFrame_sendEvents (es : List Event) (s : State) : TransmitFrame s (sendEvents es s) :=
  sendEvents_frame es s

theorem transmitFrame_setWindow (xs ys xe ye : Half) (s : State) : TransmitFrame s (setWindow xs ys xe ye s) := by
  rw [setWindow_eq]; rfl

theorem TransmitFrame.syncTx {s t : State} (h : TransmitFrame s t) (bs : List Byte) : TransmitFrame s (syncTx bs t) := by
  rw [h]; rfl

theorem TransmitFrame.withPanel {s t : State} (h : TransmitFrame s t) (p : Panel) :
    TransmitFrame s { t with panel := p } := by
  rw [h]; rfl

/-- From `s` to `t` an operation without a transfer has been accepted with its operands latched, and has retired. -/
def CompletedFrame (load : Latches → Latches) (s t : State) : Prop :=
  t = { s with
    ops := load s.ops
    stg := s.stg.map Slot.unwritten
    dc := t.dc
    wire := t.wire
    panel := t.panel
    syncTimeout := t.syncTimeout
    draws := t.draws
    retired := s.retired + 1 }

section
variable {s : State} (load : Latches → Latches) (hidle : s.seq = .idle)
include hidle

theorem completedFrame_retire {t : State} (h : TransmitFrame (accept load s) t) : CompletedFrame load s (retire t) := by
  rw [h, retire, ← hidle]; rfl

/-- What a bus-using operation does once its request is accepted, if its actions keep the frame. -/
theorem onFreeBus_completedFrame {f : State → State} (hf : TransmitFrame (accept load s) (f (accept load s))) :
    Leads (CompletedFrame load s) (onFreeBus (accept load s) fun s => .next (retire (f s))) :=
  onFreeBus_meets (fun _ => completedFrame_retire load hidle hf) fun _ => trivial

end

theorem exec_sendCommand_frame (code : Byte) (s : State) :
    Leads (CompletedFrame (loadOperands (.sendCommand code)) s) (exec (.sendCommand code) s) := by
  rw [exec, execSendCommand_eq]
  exact whenIdle_meets (fun hidle => onFreeBus_completedFrame _ hidle (transmitFrame_sendEvents [⟨.command, code⟩] _))
    trivial

theorem exec_sendDataByte_frame (value : Byte) (s : State) :
    Leads (CompletedFrame (loadOperands (.sendDataByte value)) s) (exec (.sendDataByte value) s) := by
  rw [exec, execSendDataByte_eq]
  exact whenIdle_meets (fun hidle => onFreeBus_completedFrame _ hidle (transmitFrame_sendEvents [⟨.data, value⟩] _))
    trivial

theorem exec_setWindow_frame (xs ys xe ye : Half) (s : State) :
    Leads (CompletedFrame (loadOperands (.setWindow xs ys xe ye)) s) (exec (.setWindow xs ys xe ye) s) := by
  rw [exec, execSetWindow_eq]
  exact whenIdle_meets (fun hidle => onFreeBus_completedFrame _ hidle (transmitFrame_setWindow ..)) trivial

theorem exec_plotPixel_frame (x y c : Half) (s : State) :
    Leads (CompletedFrame (loadOperands (.plotPixel x y c)) s) (exec (.plotPixel x y c) s) := by
  rw [exec, execPlotPixel_eq]
  refine whenIdle_meets (fun hidle => ?_) trivial
  dsimp only
  split
  · exact onFreeBus_completedFrame _ hidle ((transmitFrame_setWindow ..).syncTx _)
  · exact completedFrame_retire _ hidle (transmitFrame_refl _)

theorem exec_reset_frame (s : State) : Leads (CompletedFrame (loadOperands .reset) s) (exec .reset s) := by
  rw [exec, execReset_eq]
  refine whenIdle_meets (fun hidle => ?_) trivial
  split
  · trivial
  · exact onFreeBus_completedFrame _ hidle rfl

theorem exec_init_frame (s : State) : Leads (CompletedFrame (loadOperands .init) s) (exec .init s) := by
  rw [exec, execInit_eq]
  refine whenIdle_meets (fun hidle => ?_) trivial
  split
  · trivial
  · exact onFreeBus_completedFrame _ hidle ((transmitFrame_sendEvents ..).withPanel _)

/-- Settles O49: what each of the six sends, or does to the panel and to `DC`, stays in the frame between its acceptance
and its retirement. -/
theorem frameOfOperationsWithoutTransfer : Obligations.FrameOfOperationsWithoutTransfer := by
  rintro i s t hexec load
    (⟨b, rfl, rfl⟩ | ⟨b, rfl, rfl⟩ | ⟨xs, ys, xe, ye, rfl, rfl⟩ | ⟨x, y, c, rfl, rfl⟩ | ⟨rfl, rfl⟩ | ⟨rfl, rfl⟩)
  · exact (exec_sendCommand_frame b s).of_next hexec
  · exact (exec_sendDataByte_frame b s).of_next hexec
  · exact (exec_setWindow_frame xs ys xe ye s).of_next hexec
  · exact (exec_plotPixel_frame x y c s).of_next hexec
  · exact (exec_reset_frame s).of_next hexec
  · exact (exec_init_frame s).of_next hexec

end Sys2Proof.Machine

namespace Sys2Proof.Machine

/-! ### The frame of XFER's turns -/

/-- From `s` to `t` at most the flag, the record, the wire, the panel, the transfer events, the reads and the turns change:
all that XFER's turns can write. -/
def XferFrame (s t : State) : Prop :=
  t = { s with
    done := t.done
    xfer := t.xfer
    wire := t.wire
    panel := t.panel
    transfers := t.transfers
    reads := t.reads
    turns := t.turns }

theorem XferFrame.trans {s m t : State} (h : XferFrame s m) (h' : XferFrame m t) : XferFrame s t := by
  rw [h', h]; rfl

theorem xferStep_frame (s : State) : Leads (XferFrame s) (xferStep s) :=
  xferStep_meets (fun _ => rfl) (fun _ _ _ _ _ _ _ => rfl) (fun _ _ _ => rfl) (fun _ _ _ _ _ => trivial) trivial
    fun _ _ _ _ _ _ => trivial

theorem xferTurns_frame (ts : List Turn) (s : State) : Leads (XferFrame s) (xferTurns ts s) := by
  refine xferTurns_meets (fun m us hm _ => ?_) ts s rfl
  have turned : XferFrame s (withTurns us m) := hm.trans rfl
  exact (xferStep_frame (withTurns us m)).weaken fun _ => turned.trans

/-! ### The frames of beginAsyncTransfer and awaitCompletion -/

/-- All that `beginAsyncTransfer` can do: an idle engine begins the transfer and retires (43 R130). -/
theorem exec_beginAsyncTransfer_leads (p len : Word) (s : State) :
    Leads (fun t => s.seq = .idle ∧ t =
        retire (transferBegun (.mem p.toNat) len.toNat (accept (loadOperands (.beginAsyncTransfer p len)) s)))
      (exec (.beginAsyncTransfer p len) s) := by
  rw [exec, execBeginAsyncTransfer_eq]
  refine whenIdle_meets (fun hidle => ?_) trivial
  split
  · trivial
  · exact requireRange_meets (fun _ => Meets.andThen (whenDone_meets (fun _ => ⟨hidle, rfl⟩) fun _ => trivial)) trivial

/-- All that `awaitCompletion` can do: behind XFER's turns it retires or holds (43 R131). -/
theorem exec_awaitCompletion_leads (s : State) :
    Leads (fun t => ∃ m, XferFrame (accept id s) m ∧ (t = retire m ∨ t = hold .awaitDirect m))
      (exec .awaitCompletion s) := by
  rw [exec, execAwaitCompletion_eq]
  refine whenIdle_meets (fun _ => Meets.andThen ((xferTurns_frame _ _).weaken fun m hm => ?_)) trivial
  split
  · exact ⟨m, hm, .inl rfl⟩
  · exact ⟨m, hm, .inr rfl⟩

/-- Settles O50: `beginAsyncTransfer` begins its transfer and retires, and `awaitCompletion` retires or holds behind
XFER's turns. -/
theorem frameOfTransferControl : Obligations.FrameOfTransferControl := by
  refine ⟨fun p len s t hexec => ?begins, fun s t hexec => ?awaits⟩
  case begins =>
    obtain ⟨hidle, rfl⟩ := (exec_beginAsyncTransfer_leads p len s).of_next hexec
    rw [retire, ← hidle]
    rfl
  case awaits =>
    obtain ⟨m, frame, rfl | rfl⟩ := (exec_awaitCompletion_leads s).of_next hexec
    · rw [frame]; rfl
    · rw [frame]; rfl

end Sys2Proof.Machine

namespace Sys2Proof.Machine

/-! ### What every action of a chunk loop keeps, the loop keeps -/

/-- Each action of the chunk loop of `op` keeps `I`: the preparation and the begin of a chunk, XFER's step, and what goes
with them, which is the phase, the turns, the count of retirements and the counters. -/
structure LoopKeeps (op : Stream) (I : State → Prop) : Prop where
  prepareChunk : ∀ s, I s → Leads I (prepareChunk op s)
  transferBegun : ∀ s, I s → I (transferBegun (chunkSource op s) (chunkBytes op s) s)
  xferStep : ∀ s, I s → Leads I (xferStep s)
  book : ∀ s q ts r, I s → I { s with seq := q, turns := ts, retired := r }
  advanceChunk : ∀ s, I s → I (advanceChunk op s)

section
variable {op : Stream} {I : State → Prop} (h : LoopKeeps op I)
include h

theorem LoopKeeps.chunkTurn {s : State} (hs : I s) : Leads I (chunkTurn op s) := by
  rw [chunkTurn_eq]
  refine ((h.prepareChunk s hs).weaken fun m hm => Meets.andThen (whenDone_meets (fun _ => ?_) fun _ => trivial)).andThen
  exact xferTurns_meets (fun u us hu _ => h.xferStep _ (h.book u _ us _ hu)) _ _ (h.transferBegun m hm)

theorem LoopKeeps.stream {s : State} (hs : I s) : Leads I (stream op s) := by
  refine streamLoop_meets op (fun u hu _ => (h.chunkTurn hu).weaken fun t ht => ?_) (fun u hu => h.book u _ _ _ hu)
    s.rem s hs
  split
  · exact h.advanceChunk t ht
  · exact h.book t _ _ _ ht

end

theorem unpackFrom_leads {I : State → Prop}
    (hI : ∀ s stg c reads, I s → I { s with stg := stg, cursor := c, reads := reads }) (n i : Nat) {s : State}
    (hs : I s) : Leads I (unpackFrom n i s) := by
  induction n generalizing i s with
  | zero => exact hs
  | succ n ih =>
    rw [unpackFrom]
    exact Meets.andThen (readSource_meets (fun _ _ _ => ih (i + 1) (hI s _ _ _ hs)) trivial trivial)

/-! ### The frame of each chunk loop -/

/-- `s` with what every chunk loop moves as it is in `t`: `REM`, the phase, the turns, the count of retirements, and what
XFER writes but for the reads. -/
def loopMoved (s t : State) : State :=
  { s with
    rem := t.rem
    seq := t.seq
    done := t.done
    xfer := t.xfer
    wire := t.wire
    panel := t.panel
    transfers := t.transfers
    turns := t.turns
    retired := t.retired }

/-- What the chunk loop of `op` leaves in `t` as it was in `s`. -/
def LoopFrame (op : Stream) (s t : State) : Prop :=
  match op with
  | .fill => t = loopMoved s t
  | .colour => t = { loopMoved s t with off := t.off, reads := t.reads }
  | .mono => t = { loopMoved s t with stg := t.stg, cnt := t.cnt, cursor := t.cursor, reads := t.reads }

/-- A transfer in flight, if there is one, drains the staging buffer, so XFER reads no source memory. -/
def Draining (s : State) : Prop := ∀ f, s.xfer = some f → f.src = .staging

theorem loopKeeps_fill (s : State) : LoopKeeps .fill fun t => LoopFrame .fill s t ∧ Draining t where
  prepareChunk _ hm := hm
  transferBegun := fun _ ⟨frame, _⟩ => ⟨by rw [frame]; rfl, by rintro _ ⟨⟩; rfl⟩
  xferStep := by
    rintro m ⟨frame, draining⟩
    refine xferStep_meets (fun _ => ⟨frame, draining⟩) (fun src len sent b hx _ _ => ?_) (fun _ _ _ => ⟨?_, nofun⟩)
      (fun _ _ _ _ _ => trivial) trivial fun _ _ _ _ _ _ => trivial
    · obtain rfl : src = .staging := draining _ hx
      rw [sourceReads, List.append_nil]
      exact ⟨by rw [frame]; rfl, by rintro _ ⟨⟩; rfl⟩
    · rw [frame]; rfl
  book := fun _ _ _ _ ⟨frame, draining⟩ => ⟨by rw [frame]; rfl, draining⟩
  advanceChunk := fun _ ⟨frame, draining⟩ => ⟨by rw [frame]; rfl, draining⟩

theorem loopKeeps_colour (s : State) : LoopKeeps .colour (LoopFrame .colour s) where
  prepareChunk _ hm := hm
  transferBegun m hm := by rw [hm]; rfl
  xferStep m hm := (xferStep_frame m).weaken fun t ht => by rw [ht, hm]; rfl
  book m q ts r hm := by rw [hm]; rfl
  advanceChunk m hm := by rw [hm]; rfl

theorem loopKeeps_mono (s : State) : LoopKeeps .mono (LoopFrame .mono s) where
  prepareChunk m hm := unpackFrom_leads (fun u _ _ _ hu => by rw [hu]; rfl) _ _ (by rw [hm]; rfl)
  transferBegun m hm := by rw [hm]; rfl
  xferStep m hm := (xferStep_frame m).weaken fun t ht => by rw [ht, hm]; rfl
  book m q ts r hm := by rw [hm]; rfl
  advanceChunk m hm := by rw [hm]; rfl

/-! ### The frames of the streaming operations -/

/-- What the window of an operation just accepted leaves as it was, whatever the bus answers (42 R120, 41 R114). -/
theorem openWindow_accept_frame (load : Latches → Latches) (x y w h : Half) (s : State) :
    openWindow x y w h (accept load s) = { s with
      ops := load s.ops
      stg := s.stg.map Slot.unwritten
      dc := .data
      wire := (openWindow x y w h (accept load s)).wire
      panel := (openWindow x y w h (accept load s)).panel
      syncTimeout := (openWindow x y w h (accept load s)).syncTimeout
      draws := s.draws + 11 } := by
  rw [openWindow, setWindow_eq]; rfl

theorem exec_fillRectangle_frame (x y w h c : Half) (s : State) :
    Leads (LoopFrame .fill (fillOpened x y w h c s)) (exec (.fillRectangle x y w h c) s) := by
  rw [exec, execFillRectangle_eq]
  refine whenIdle_meets (fun _ => requireRectangle_meets (fun _ => onFreeBus_meets (fun hfree => ?_) fun _ => trivial)
    trivial) trivial
  have free : (fillOpened x y w h c s).xfer = none := by simpa [fillOpened] using hfree
  have opened : LoopFrame .fill (fillOpened x y w h c s) (fillOpened x y w h c s) := rfl
  exact ((loopKeeps_fill _).stream ⟨opened, fun f hf => nomatch free.symm.trans hf⟩).weaken fun _ => And.left

theorem exec_drawColourBitmap_frame (x y w h : Half) (p : Word) (s : State) :
    Leads (LoopFrame .colour (colourOpened x y w h p s)) (exec (.drawColourBitmap x y w h p) s) := by
  rw [exec, execDrawColourBitmap_eq]
  refine whenIdle_meets (fun _ => requireRectangle_meets (fun _ => requireRange_meets (fun _ => onFreeBus_meets
    (fun _ => ?_) fun _ => trivial) trivial) trivial) trivial
  exact (loopKeeps_colour (colourOpened x y w h p s)).stream rfl

theorem exec_drawMonoBitmap_frame (x y w h : Half) (p : Word) (fg bg : Half) (s : State) :
    Leads (LoopFrame .mono (monoOpened x y w h p fg bg s)) (exec (.drawMonoBitmap x y w h p fg bg) s) := by
  rw [exec, execDrawMonoBitmap_eq]
  refine whenIdle_meets (fun _ => requireRectangle_meets (fun _ => requireRange_meets (fun _ => onFreeBus_meets
    (fun _ => ?_) fun _ => trivial) trivial) trivial) trivial
  exact (loopKeeps_mono (monoOpened x y w h p fg bg s)).stream rfl

/-- Settles O51: behind its window, whose frame is `openWindow_accept_frame`, each of the three is its chunk loop. -/
theorem frameOfStreamingOperations : Obligations.FrameOfStreamingOperations := by
  refine ⟨fun x y w h c s t hexec => ?fill, fun x y w h p s t hexec => ?colour,
    fun x y w h p fg bg s t hexec => ?mono⟩
  case fill =>
    rw [(exec_fillRectangle_frame x y w h c s).of_next hexec, fillOpened, openWindow_accept_frame]
    rfl
  case colour =>
    rw [(exec_drawColourBitmap_frame x y w h p s).of_next hexec, colourOpened, openWindow_accept_frame]
    rfl
  case mono =>
    rw [(exec_drawMonoBitmap_frame x y w h p fg bg s).of_next hexec, monoOpened, openWindow_accept_frame]
    rfl

end Sys2Proof.Machine
